-- ==== Sys2Proof/Word.lean ====
section
/-! DEFINITION. The elements the engine carries (00_scope.md R8, 10_state.md R41): bits, symbols, the command word. -/

namespace Sys2Proof

/-- One element of IN: a bit, `true` for 1 and `false` for 0 (R8, R76). -/
abbrev Bit := Bool

/-- The 8-bit command word written to CMD (R24, R70). -/
abbrev Command := BitVec 8

/-- One element of OUT: a symbol as 3-bit two's complement, SYM_WIDTH = 3 (R41, R77). -/
abbrev Sym := BitVec 3

end Sys2Proof
end

