-- ==== Sys2Proof/Config.lean ====
section
/-! DEFINITION. What an implementation fixes (00_scope.md R7) and the free values the spec leaves open
(93_implementation_defined.md). -/

namespace Sys2Proof.Config

/-- `IC_OOR_POLICY` (R7, D11): what an initial-condition index outside the domain of Differential Manchester and
NRZ-Polar-I does (R204). -/
inductive IcOorPolicy where
  /-- the call has no meaning -/
  | refuse
  /-- the pseudocode runs with `level = ic` -/
  | literal
deriving DecidableEq, Repr

/-- `REG_MAP` (R7, R59, D13: open): where a platform places what the host reads and writes, and how it names the instance
(60_exceptions.md R214). No rule reads it. -/
structure RegMap where
  /-- how the instance is identified (R214) -/
  engine : Nat
  /-- the address of CMD -/
  cmd : Nat
  /-- the address of IN_LEN -/
  inLen : Nat
  /-- the address of STATUS -/
  status : Nat
  /-- the address of OUT_LEN -/
  outLen : Nat
  /-- the address of IN -/
  inBuf : Nat
  /-- the address of OUT -/
  outBuf : Nat
  /-- the address of DESC -/
  desc : Nat
deriving DecidableEq, Repr

/-- A bit of a platform's own memory, counted from the address of the buffer it holds a part of. -/
structure Place where
  /-- the platform word -/
  word : Nat
  /-- the bit in that word -/
  bit : Nat
deriving DecidableEq, Repr

/-- `PACKING` (R7, R54, D25: open): where a platform puts each element of IN and OUT in its own words. No rule reads it;
the form is a DESIGN CHOICE (log 16). -/
structure Packing where
  /-- the place of `IN[i]`, for i = 0, 1, … -/
  inPlaces : List Place
  /-- the places of the bits of `OUT[j]`, bit 0 first, for j = 0, 1, … -/
  outPlaces : List (List Place)
deriving DecidableEq, Repr

/-- `N_ENGINES` (R7, D20: open): the number of instances of a platform, at least 1. -/
abbrev NEngines : Type := { n : Nat // 1 ≤ n }

/-- The parameters of R7 that one instance has. They never change while the machine runs; a statement over every state is
a statement over every value of them. `IC_WIDTH`, `SYM_WIDTH`, `CMD_WIDTH` and `N_SCHEMES` are fixed and stand in the types;
`N_ENGINES` is a platform's. -/
structure Params where
  /-- `MAX_IN_LEN`: the number of bits IN holds (R53, D14: open) -/
  maxInLen : Nat
  /-- `IC_OOR_POLICY` (D11) -/
  icOorPolicy : IcOorPolicy
  /-- `STREAM_OUT`: whether OUT may be read before DONE (D19) -/
  streamOut : Bool
  /-- `REG_MAP` (D13: open) -/
  regMap : RegMap
  /-- `PACKING` (D25: open) -/
  packing : Packing
  /-- the model's own, not R7's: which instance of the platform this is, from 0. The free values are applied to it, so that
  those of different instances are different ones (log 7). -/
  engineIndex : Nat
deriving DecidableEq, Repr

/-- The REG_MAP of the state after reset: one address an element, nothing overlapping. A DESIGN CHOICE (log 16) that no
rule reads. -/
def defaultRegMap : RegMap :=
  { engine := 0, cmd := 0, inLen := 1, status := 2, outLen := 3, desc := 16, inBuf := 65536, outBuf := 131072 }

/-- The parameters of the state after reset: the spec's defaults for the two it gives a default (R7).
`MAX_IN_LEN` is open (D14); 65535, a 16-bit IN_LEN, is a DESIGN CHOICE (log 2), unsafe for a claim that rests on it.
`REG_MAP` and `PACKING` are open too (log 16): the packing places nothing. -/
def defaultParams : Params :=
  { maxInLen := 65535, icOorPolicy := .refuse, streamOut := false, regMap := defaultRegMap,
    packing := { inPlaces := [], outPlaces := [] }, engineIndex := 0 }

/-! Each free value takes the instance `k` first, and then a count of that instance's own (log 7). -/

/-- The value of an IN element that nothing has written since the `e`-th reset, at index `i` (U13; log 4). -/
opaque freeIn (k e i : Nat) : Bit

/-- What a read of OUT at index `j` returns where the spec leaves it open, at draw `d` (U5, U6, U12; log 5). -/
opaque freeOut (k d j : Nat) : Sym

/-- What a read of OUT_LEN returns while BUSY, at draw `d` (R62, U6; log 5). -/
opaque freeOutLen (k d : Nat) : Nat

/-- What a read of STATUS returns during a call that will be refused, at draw `d` (R200; log 34). -/
opaque freeStatus (k d : Nat) : BitVec 4

/-- `lastLevel` between calls, at draw `d` (R40, U4; log 6). -/
opaque freeLastLevel (k d : Nat) : BitVec 2

/-- `zeroRunLength` between calls, at draw `d` (R40, U4; log 6). -/
opaque freeZeroRunLength (k d : Nat) : Nat

/-- `level` between calls, at draw `d` (R40, U4; log 6). -/
opaque freeLevel (k d : Nat) : BitVec 3

/-- `growing` between calls, at draw `d` (R40, U4; log 6). -/
opaque freeGrowing (k d : Nat) : Bool

end Sys2Proof.Config
end

