-- ==== Sys2Proof/Syntax.lean ====
section
/-! DEFINITION. The twelve encode operations (00_scope.md R3, 30_encoding.md R72), one constructor per row of
spec/opcode_table.json. The one operand of a command is the initial-condition index `ic = CMD[5:4]`, 2 bits unsigned
(R74); the input bits are in IN. -/

namespace Sys2Proof

/-- A known command: its scheme and its initial-condition index (R72, R73: `ENCODE(s, ic)`). -/
inductive Instr where
  /-- `ENC.AMI`, SCHEME 0 (R115) -/
  | ami (ic : BitVec 2)
  /-- `ENC.B8ZS`, SCHEME 1 (R116) -/
  | b8zs (ic : BitVec 2)
  /-- `ENC.PSTERN`, SCHEME 2 (R117) -/
  | pstern (ic : BitVec 2)
  /-- `ENC.MAN`, SCHEME 3 (R130) -/
  | man (ic : BitVec 2)
  /-- `ENC.DMAN`, SCHEME 4 (R132) -/
  | dman (ic : BitVec 2)
  /-- `ENC.NRZU`, SCHEME 5 (R140) -/
  | nrzu (ic : BitVec 2)
  /-- `ENC.NRZL`, SCHEME 6 (R141) -/
  | nrzl (ic : BitVec 2)
  /-- `ENC.NRZI`, SCHEME 7 (R142) -/
  | nrzi (ic : BitVec 2)
  /-- `ENC.RZ`, SCHEME 8 (R150) -/
  | rz (ic : BitVec 2)
  /-- `ENC.2B1Q`, SCHEME 9 (R155) -/
  | twoB1Q (ic : BitVec 2)
  /-- `ENC.MLT3`, SCHEME 10 (R165) -/
  | mlt3 (ic : BitVec 2)
  /-- `ENC.4B5B`, SCHEME 11 (R180) -/
  | fourB5B (ic : BitVec 2)
deriving DecidableEq, Repr

end Sys2Proof
end

