-- ==== Sys2Proof/Machine/HostOp.lean ====
section
/-! DEFINITION. The capacities the host's operands meet (10_state.md R25, 20_memory.md R53), what the host can do
to the engine (10_state.md R23, 20_memory.md R58, 70_reset_and_hazards.md R232) and what its reads return. -/

namespace Sys2Proof

/-- The width of IN_LEN for a capacity of `m` bits: ceil(log2(m + 1)) (10_state.md R25). -/
def inLenWidth (m : Nat) : Nat := if m = 0 then 0 else Nat.log2 m + 1

/-- A value that IN_LEN can hold (R25). A value above MAX_IN_LEN that still fits breaks host duty 4 only (R226). -/
def inLenFits (p : Config.Params) (n : Nat) : Bool := n < 2 ^ inLenWidth p.maxInLen

/-- `i` is an element of IN, which holds MAX_IN_LEN bits (R53). -/
def isInIndex (p : Config.Params) (i : Nat) : Bool := i < p.maxInLen

/-- The capacity of OUT: `maxOut(MAX_IN_LEN) = 2 * MAX_IN_LEN` symbols (R53). -/
def maxOut (p : Config.Params) : Nat := 2 * p.maxInLen

/-- `j` is an element of OUT (R53). -/
def isOutIndex (p : Config.Params) (j : Nat) : Bool := j < maxOut p

end Sys2Proof

namespace Sys2Proof.Machine

/-- An entry of the descriptor ROM DESC (10_state.md R35). -/
structure Descriptor where
  /-- VALID, 1 bit: whether the code names a scheme -/
  valid : Bool
  /-- GROUP_SIZE, 3 bits: input bits a step consumes -/
  groupSize : BitVec 3
  /-- OPTION_COUNT, 3 bits: declared initial-condition options -/
  optionCount : BitVec 3
  /-- OUT_PER_GROUP, 3 bits: symbols a step emits -/
  outPerGroup : BitVec 3
deriving DecidableEq, Repr

/-- One statement of the host, executed in order (R79). A statement that names a register stands for the access at
whatever address REG_MAP gives that register (R59). -/
inductive HostOp where
  /-- `IN <bits>` (R79): write IN with the bits, first bit at index 0, and IN_LEN with their number -/
  | writeIn (bits : List Bit)
  /-- write one element of IN (R50) -/
  | writeInBit (i : Nat) (b : Bit)
  /-- write IN_LEN (R25) -/
  | writeInLen (n : Nat)
  /-- write CMD and go on without waiting (R24, R207): the engine is BUSY until it has had its turns -/
  | writeCmd (w : Command)
  /-- `CMD <hex>` and `ENC.<M> ic` (R79): write CMD and wait for STATE in {DONE, ERROR} -/
  | command (w : Command)
  /-- the host-side part of `ENCP.<M>` (R80): prepend zeros to IN up to a multiple of the scheme's GROUP_SIZE -/
  | pad (i : Instr)
  /-- a write to STATUS, which is ignored (R26) -/
  | writeStatus (v : BitVec 4)
  /-- a write to OUT_LEN, which is read only (R23, R27) -/
  | writeOutLen (n : Nat)
  /-- read CMD (R24) -/
  | readCmd
  /-- read IN_LEN (R25) -/
  | readInLen
  /-- read STATUS (R26) -/
  | readStatus
  /-- read OUT_LEN (R27) -/
  | readOutLen
  /-- read an element of IN (R58) -/
  | readIn (i : Nat)
  /-- read an element of OUT (R58, R62) -/
  | readOut (j : Nat)
  /-- `DESCRIBE`: read DESC[s] (R102) -/
  | describe (s : BitVec 4)
  /-- `listSchemes()` (R103) -/
  | listSchemes
  /-- let the engine do one step of the call in progress, if there is one (R57, R61) -/
  | tick
  /-- wait until STATE is not BUSY (R79, host duty 7 of R226; IDLE ends the wait too, log 36) -/
  | waitEnd
  /-- power-on reset (R220), also during a call (R221) -/
  | reset
deriving DecidableEq, Repr

/-- What one read of the host returned. -/
inductive HostRead where
  /-- CMD -/
  | cmd (w : Command)
  /-- IN_LEN -/
  | inLen (n : Nat)
  /-- STATUS -/
  | status (v : BitVec 4)
  /-- OUT_LEN -/
  | outLen (n : Nat)
  /-- IN[i] -/
  | inBit (i : Nat) (b : Bit)
  /-- OUT[j], as its three bits (R77) -/
  | sym (j : Nat) (v : Sym)
  /-- DESC[s] -/
  | desc (s : BitVec 4) (d : Descriptor)
  /-- the scheme codes of `listSchemes` -/
  | schemes (codes : List (BitVec 4))
deriving DecidableEq, Repr

end Sys2Proof.Machine
end

