-- ==== Sys2Proof/Machine/State.lean ====
section
/-! DEFINITION. The state of one engine instance (10_state.md) with the host beside it, the reasons a step can stop, and
the state after reset. Plain data throughout. -/

namespace Sys2Proof.Machine

/-- The two buffers (20_memory.md R50): the elements that have been written, as (index, element) with strictly rising
indices. An index that is not listed holds nothing: the host has not written that IN bit since reset (R40), or OUT holds
no symbol there (R39, U5). -/
structure Memory where
  /-- IN, written by the host -/
  inBits : List (Nat × Bit)
  /-- OUT, written by the engine -/
  outSyms : List (Nat × Sym)
deriving DecidableEq, Repr

/-- A stop at which the hardware has no move. -/
inductive Fault where
  /-- Raised by a host write of CMD, IN_LEN or IN while STATE = BUSY (70_reset_and_hazards.md R227, R209, U8: no move).
  Unsafe if a real host does it: the model then has no run at all (D18; log 9). -/
  | hostWriteWhileBusy
  /-- Raised by a host access to an element of IN at or above MAX_IN_LEN, or of OUT at or above 2 * MAX_IN_LEN, which do
  not exist (20_memory.md R53). Safe (log 11). -/
  | noSuchElement
deriving DecidableEq, Repr

/-- A case the spec gives no meaning, or one the model does not have. -/
inductive Refusal where
  /-- Raised by an arm of `exec` whose instruction has no meaning yet. Safe. -/
  | notModelled (mnemonic : String)
  /-- Raised by ENC.4B5B when the length is not a multiple of 4 (47_4b5b.md R183, 60_exceptions.md R202). Safe. -/
  | invalidInputLength
  /-- Raised by ENC.DMAN and ENC.NRZI with `ic` in {2, 3} under IC_OOR_POLICY = refuse (60_exceptions.md R204). Safe. -/
  | icOutOfDomain
  /-- Raised by a known command when n > MAX_IN_LEN: host duty 4 is broken and the call has no meaning
  (70_reset_and_hazards.md R226, U9). Safe. -/
  | inputTooLong
  /-- Raised by a host write to IN_LEN of a number wider than the register (10_state.md R25). Safe (log 12). -/
  | notRepresentable
deriving DecidableEq, Repr

/-- One engine instance and its host. The first block is the spec's; the last four fields are the model's own. -/
structure State where
  /-- the parameters of R7, fixed while the machine runs -/
  params : Config.Params
  /-- CMD (R24) -/
  cmd : Command
  /-- IN_LEN (R25) -/
  inLen : Nat
  /-- STATUS: STATE in bits 1:0, ERR_CODE in bits 3:2 (R26) -/
  status : BitVec 4
  /-- OUT_LEN (R27) -/
  outLen : Nat
  /-- `cur`, the index of the next input bit (R28) -/
  cur : Nat
  /-- `olen`, the symbols emitted so far in the call (R29) -/
  olen : Nat
  /-- `n`, the input length sampled at the start of the call (R207) -/
  len : Nat
  /-- `lastLevel`, 2-bit two's complement (R30) -/
  lastLevel : BitVec 2
  /-- `zeroRunLength`, an unbounded count (R31) -/
  zeroRunLength : Nat
  /-- `level`, 3-bit two's complement (R32) -/
  level : BitVec 3
  /-- `growing` (R33) -/
  growing : Bool
  /-- IN and OUT (R37, R50) -/
  mem : Memory
  /-- the host statements still to be executed, in order (R79; log 8) -/
  host : List HostOp
  /-- what the host's reads returned, newest first (log 8) -/
  got : List HostRead
  /-- the number of draws so far, which the free values of OUT, OUT_LEN, STATUS and the scheme registers are applied to
  (log 7) -/
  draws : Nat
  /-- the number of resets so far, which the free contents of IN are applied to (log 7) -/
  resets : Nat
deriving DecidableEq, Repr

/-- Power-on reset of a machine with parameters `p` (10_state.md R40, 70_reset_and_hazards.md R220): CMD, IN_LEN, STATUS
and OUT_LEN are 0 and the buffers' contents are unspecified. The spec leaves `cur`, `olen`, `n` and the scheme state
registers open; their values here are the DESIGN CHOICE of log 1. -/
def State.resetWith (p : Config.Params) : State where
  params := p
  cmd := 0x00
  inLen := 0
  status := 0x0
  outLen := 0
  cur := 0
  olen := 0
  len := 0
  lastLevel := -1
  zeroRunLength := 0
  level := 0
  growing := false
  mem := { inBits := [], outSyms := [] }
  host := []
  got := []
  draws := 0
  resets := 0

/-- The machine right after reset, with the parameters of `Config.defaultParams` (log 2, log 3). -/
def State.reset : State := State.resetWith Config.defaultParams

end Sys2Proof.Machine
end

