-- ==== Sys2Proof/Machine/Flags.lean ====
section
/-! DEFINITION. STATUS, the engine's only status word (10_state.md R26, R38): its two fields and their values. The engine
has no condition codes. -/

namespace Sys2Proof.Machine

/-- STATE = 0: no call since reset. -/
def stIdle : BitVec 2 := 0

/-- STATE = 1: a call is in progress. -/
def stBusy : BitVec 2 := 1

/-- STATE = 2: the last call completed. -/
def stDone : BitVec 2 := 2

/-- STATE = 3: the last call was rejected. -/
def stError : BitVec 2 := 3

/-- ERR_CODE = 0. -/
def errNone : BitVec 2 := 0

/-- ERR_CODE = 1, UnknownScheme (R201). Codes 2 and 3 are reserved and never produced. -/
def errUnknownScheme : BitVec 2 := 1

/-- The STATUS word of a STATE and an ERR_CODE (R26). -/
def statusWord (state err : BitVec 2) : BitVec 4 := err ++ state

/-- STATE = STATUS[1:0]. -/
def stateField (v : BitVec 4) : BitVec 2 := v.extractLsb' 0 2

/-- ERR_CODE = STATUS[3:2]. -/
def errField (v : BitVec 4) : BitVec 2 := v.extractLsb' 2 2

/-- A call is in progress. -/
def isBusy (s : State) : Bool := stateField s.status == stBusy

/-- STATUS with a new STATE and ERR_CODE. -/
def setStatus (state err : BitVec 2) (s : State) : State := { s with status := statusWord state err }

end Sys2Proof.Machine
end

