-- ==== Sys2Proof/Machine/Symbols.lean ====
section
/-! DEFINITION. Bits and symbols as the integers the pseudocode computes with, and back (00_scope.md R8, 10_state.md R41,
30_encoding.md R77). -/

namespace Sys2Proof

/-- A bit as the integer 0 or 1 that the pseudocode computes with (R8). -/
def bitToInt (b : Bit) : Int := if b then 1 else 0

/-- The OUT element that holds the level `v` (R77); modulo the width outside -4..+3, which no run reaches (DEDUCED, log 31). -/
def symOfLevel (v : Int) : Sym := BitVec.ofInt 3 v

/-- The level the host reads back from an OUT element, `sext(sym[2:0])` (R77). -/
def levelOfSym (v : Sym) : Int := v.toInt

end Sys2Proof
end

