-- ==== Sys2Proof/Machine/Ops.lean ====
section
/-! DEFINITION. The named operations over the buffers and the registers (00_scope.md R10), and the engine's equivalents of
taking an exception and returning from one: an unknown command's error entry (60_exceptions.md R201), the start of a call
(R207, 10_state.md R39) and its end (R208). -/

namespace Sys2Proof.Machine

/-! ### Cells: a buffer as a list of (index, element) in one canonical form -/

/-- The element written at index `a`, if any. -/
def cellsRead {α : Type} : List (Nat × α) → Nat → Option α
  | [], _ => none
  | (b, v) :: cs, a => if a = b then some v else cellsRead cs a

/-- Write `v` at index `a`, keeping the indices strictly rising. -/
def cellsWrite {α : Type} (a : Nat) (v : α) : List (Nat × α) → List (Nat × α)
  | [] => [(a, v)]
  | (b, w) :: cs =>
    if a < b then (a, v) :: (b, w) :: cs
    else if a = b then (a, v) :: cs
    else (b, w) :: cellsWrite a v cs

/-- Write the elements of a list from index `a` on. -/
def cellsWriteList {α : Type} (a : Nat) : List α → List (Nat × α) → List (Nat × α)
  | [], cs => cs
  | v :: vs, cs => cellsWriteList (a + 1) vs (cellsWrite a v cs)

/-- Every index of `cs` is above `a`, and they rise strictly. -/
def cellsWfAbove {α : Type} (a : Nat) : List (Nat × α) → Bool
  | [] => true
  | (b, _) :: cs => decide (a < b) && cellsWfAbove b cs

/-- The canonical form: strictly rising indices. An unlisted index holds no element, so no entry can repeat what an
unlisted index reads as. -/
def cellsWf {α : Type} : List (Nat × α) → Bool
  | [] => true
  | (b, _) :: cs => cellsWfAbove b cs

/-- Both buffers are in canonical form. -/
def Memory.wf (m : Memory) : Bool := cellsWf m.inBits && cellsWf m.outSyms

/-! ### IN and OUT -/

/-- `MemRead(IN, i, 1)` (R10). An element nothing has written since reset reads as a free value (R40, U13) of this
instance, at this count of its resets (log 4, log 7). -/
def memReadIn (s : State) (i : Nat) : Bit :=
  (cellsRead s.mem.inBits i).getD (Config.freeIn s.params.engineIndex s.resets i)

/-- The input bit sequence `IN[0..n-1]`, first in time first (R51). -/
def inputBits (s : State) (n : Nat) : List Bit := (List.range n).map (memReadIn s)

/-- `OUT[j]` as the engine holds it; an element that holds no symbol reads as a free value (U5). -/
def memReadOut (s : State) (j : Nat) : Sym :=
  (cellsRead s.mem.outSyms j).getD (Config.freeOut s.params.engineIndex s.draws j)

/-- `MemWrite(OUT, j, 1, v)` (R10): the level `v` is stored in SYM_WIDTH bits (R77). -/
def memWriteOut (j : Nat) (v : Int) (s : State) : State :=
  { s with mem := { s.mem with outSyms := cellsWrite j (symOfLevel v) s.mem.outSyms } }

/-- `emit(v)` (R10): append one symbol. -/
def emit (v : Int) (s : State) : State := { memWriteOut s.olen v s with olen := s.olen + 1 }

/-- The level at `OUT[j]`, read back as an integer (R77). -/
def outLevel (s : State) (j : Nat) : Int := levelOfSym (memReadOut s j)

/-- The levels `OUT[0..OUT_LEN-1]` of a call that has ended (R233). -/
def outLevels (s : State) : List Int := (List.range s.outLen).map (outLevel s)

/-- Write IN from index 0 with `bits` and IN_LEN with their number (R79). -/
def writeInput (bits : List Bit) (s : State) : State :=
  { s with inLen := bits.length, mem := { s.mem with inBits := cellsWriteList 0 bits s.mem.inBits } }

/-! ### The scheme state registers -/

/-- `lastLevel <- v`, 2-bit two's complement (R30). -/
def setLastLevel (v : Int) (s : State) : State := { s with lastLevel := BitVec.ofInt 2 v }

/-- `zeroRunLength <- v` (R31). -/
def setZeroRunLength (v : Nat) (s : State) : State := { s with zeroRunLength := v }

/-- `level <- v`, 3-bit two's complement (R32). -/
def setLevel (v : Int) (s : State) : State := { s with level := BitVec.ofInt 3 v }

/-- `growing <- v` (R33). -/
def setGrowing (v : Bool) (s : State) : State := { s with growing := v }

/-- The AMI family's registers between calls: their values are unspecified (R40, U4), so free values at this draw
(DESIGN CHOICE of the moment, log 6). -/
def releaseAmi (s : State) : State :=
  { s with
    lastLevel := Config.freeLastLevel s.params.engineIndex s.draws
    zeroRunLength := Config.freeZeroRunLength s.params.engineIndex s.draws }

/-- `level` between calls (R40, U4). -/
def releaseLevel (s : State) : State := { s with level := Config.freeLevel s.params.engineIndex s.draws }

/-- `level` and `growing` between calls (R40, U4). -/
def releaseMlt3 (s : State) : State :=
  { s with
    level := Config.freeLevel s.params.engineIndex s.draws
    growing := Config.freeGrowing s.params.engineIndex s.draws }

/-! ### Call start, error entry and call end -/

/-- CMD latches the word of a host write (R207 step 1, R24). -/
def latchCommand (w : Command) (s : State) : State := { s with cmd := w }

/-- The entry of every call, of a known word and an unknown one: STATE <- BUSY, ERR_CODE <- NONE, and `n` samples IN_LEN
(R207 steps 2 and 3). What OUT reads as is open anew from here on (R62, U6), so the draw advances (log 5). -/
def enterCall (s : State) : State := { setStatus stBusy errNone s with len := s.inLen, draws := s.draws + 1 }

/-- The start of an accepted call: its entry, and then the cursor and the count are 0 and OUT is empty (R207, R104,
R39). -/
def openCall (s : State) : State :=
  { enterCall s with cur := 0, olen := 0, mem := { s.mem with outSyms := [] } }

/-- `raise UnknownScheme(code)` (R201): STATE <- ERROR, ERR_CODE <- UNKNOWN_SCHEME, OUT_LEN <- 0. CMD keeps the offending
word; no bit of IN is read, no symbol written and no scheme state register initialised. What OUT reads as is open from here
on (U5), so the draw advances. -/
def raiseUnknownScheme (s : State) : State :=
  { setStatus stError errUnknownScheme s with outLen := 0, draws := s.draws + 1 }

/-- The end of a completed call (R104, R208): OUT_LEN <- olen, STATE <- DONE with ERR_CODE = NONE; `release` gives up the
scheme's own registers (R40). -/
def endCall (release : State → State) (s : State) : State :=
  let t := release s
  { setStatus stDone errNone t with outLen := t.olen, draws := t.draws + 1 }

end Sys2Proof.Machine
end

