-- ==== Sys2Proof/Machine/Operands.lean ====
section
/-! DEFINITION. The operands of an encode operation: the initial-condition index (30_encoding.md R74, R75) and the bits of
the group at the cursor (20_memory.md R52). -/

namespace Sys2Proof.Machine

/-- `ic` as an unsigned integer in 0..3 (R74). -/
def icValue (ic : BitVec 2) : Nat := ic.toNat

/-- "truthy index ⇒ +1, else −1" (R30, R75): the AMI family's starting polarity. -/
def icPolarity (ic : BitVec 2) : Int := if icValue ic ≠ 0 then 1 else -1

/-- MLT-3's starting level (R167). -/
def icMlt3Level (ic : BitVec 2) : Int := if icValue ic = 0 then 1 else if icValue ic = 3 then -1 else 0

/-- MLT-3's starting direction, `ic == 1` (R33, R167; 90_conflicts.md C1; DEDUCED, log 21). -/
def icMlt3Growing (ic : BitVec 2) : Bool := icValue ic == 1

/-- The domain of Differential Manchester and NRZ-Polar-I is 0 and 1 (R75). -/
def icInLevelDomain (ic : BitVec 2) : Bool := icValue ic ≤ 1

/-- What becomes of an index outside that domain: refused under `refuse`, run as written under `literal` (R204;
DEDUCED, log 25). -/
def levelDomainCheck (ic : BitVec 2) (s : State) : Option Refusal :=
  if icInLevelDomain ic then none
  else
    match s.params.icOorPolicy with
    | .refuse => some .icOutOfDomain
    | .literal => none

/-- Bit `k` of the group at the cursor, `IN[cur + k]`, the earliest bit first (R52). -/
def groupBit (k : Nat) (s : State) : Bit := memReadIn s (s.cur + k)

/-- `8*a + 4*b + 2*c + d` of the four bits at the cursor: the group read as the written string "abcd" (R52, R180;
DEDUCED, unsafe if D8 is wrong, log 22). -/
def groupNibble (s : State) : BitVec 4 :=
  BitVec.ofNat 4 (8 * (groupBit 0 s).toNat + 4 * (groupBit 1 s).toNat + 2 * (groupBit 2 s).toNat + (groupBit 3 s).toNat)

end Sys2Proof.Machine
end

