-- ==== Sys2Proof/Machine/Call.lean ====
section
/-! DEFINITION. The call (40_registry.md R104): what a scheme supplies, one group's step, the loop and the end. Both the
whole call of `exec` and the step-by-step run of the engine are made of these. -/

namespace Sys2Proof.Machine

/-- What a scheme supplies to the call of R104. -/
structure Transform where
  /-- GROUP_SIZE, input bits a step consumes -/
  group : Nat
  /-- a refusal before the first step (R206 step 2) -/
  check : State → Option Refusal
  /-- `init[s](ic)` -/
  init : State → State
  /-- `step[s]` on the group at the cursor -/
  step : State → State
  /-- what becomes of a partial group at the end (R206 step 3): refused, or dropped -/
  remainder : Option Refusal
  /-- the scheme's own registers once the call is over (R40) -/
  release : State → State

/-- The start of a known command's call (R104): the scheme's domain check, host duty 4 (R226; its place in the order is
a DESIGN CHOICE, safe, log 19), then R39's initialisation and the scheme's own. -/
def startCall (t : Transform) (s : State) : Host.Outcome State Fault Refusal :=
  match t.check s with
  | some r => .refused r
  | none =>
    if s.params.maxInLen < s.inLen then .refused .inputTooLong
    else .next (t.init (openCall s))

/-- A full group is left: `cur + g <= n` (R104). -/
def groupReady (t : Transform) (s : State) : Bool := s.cur + t.group ≤ s.len

/-- One pass of R104's loop: the scheme's step, then `cur <- cur + g` (R28). -/
def groupStep (t : Transform) (s : State) : State :=
  let u := t.step s
  { u with cur := u.cur + t.group }

/-- R104's loop, at most `k` passes. A call needs no more than `n` (R105). -/
def groupLoop (t : Transform) : Nat → State → State
  | 0, s => s
  | k + 1, s => if groupReady t s then groupLoop t k (groupStep t s) else s

/-- What follows the loop (R104): a partial group is refused or dropped, and otherwise the call ends DONE. -/
def closeCall (t : Transform) (s : State) : Host.Outcome State Fault Refusal :=
  if s.cur < s.len then
    match t.remainder with
    | some r => .refused r
    | none => .next (endCall t.release s)
  else .next (endCall t.release s)

/-- The whole call of a known command (R104). -/
def runCall (t : Transform) (s : State) : Host.Outcome State Fault Refusal :=
  match startCall t s with
  | .next u => closeCall t (groupLoop t u.len u)
  | .fault r => .fault r
  | .refused r => .refused r

end Sys2Proof.Machine
end

