-- ==== Sys2Proof/Decode.lean ====
section
/-! DEFINITION. The command format CMD8 (30_encoding.md R70), its decoder (R73), total on all 256 words and rejecting by
name, and its encoder (R72). -/

namespace Sys2Proof

/-- SCHEME = CMD[3:0] (R70). -/
def schemeField (w : Command) : BitVec 4 := w.extractLsb' 0 4

/-- IC = CMD[5:4] (R70, R74). -/
def icField (w : Command) : BitVec 2 := w.extractLsb' 4 2

/-- RSVD = CMD[7:6] (R70). -/
def rsvdField (w : Command) : BitVec 2 := w.extractLsb' 6 2

/-- The initial-condition index of a command (R74). -/
def Instr.ic : Instr → BitVec 2
  | .ami ic => ic
  | .b8zs ic => ic
  | .pstern ic => ic
  | .man ic => ic
  | .dman ic => ic
  | .nrzu ic => ic
  | .nrzl ic => ic
  | .nrzi ic => ic
  | .rz ic => ic
  | .twoB1Q ic => ic
  | .mlt3 ic => ic
  | .fourB5B ic => ic

/-- The SCHEME code of a command (R72). -/
def Instr.scheme : Instr → BitVec 4
  | .ami _ => 0
  | .b8zs _ => 1
  | .pstern _ => 2
  | .man _ => 3
  | .dman _ => 4
  | .nrzu _ => 5
  | .nrzl _ => 6
  | .nrzi _ => 7
  | .rz _ => 8
  | .twoB1Q _ => 9
  | .mlt3 _ => 10
  | .fourB5B _ => 11

/-- Why a word decodes to UNKNOWN (R73, R78). Both raise the same UnknownScheme (R201). -/
inductive UnknownCommand where
  /-- RSVD is not 0: 192 words -/
  | reservedBits
  /-- RSVD is 0 and SCHEME is in 12..15: 16 words -/
  | unassignedScheme
deriving DecidableEq, Repr

/-- The command of a SCHEME code, for the codes that name a scheme (R72). -/
def instrOfScheme (s : BitVec 4) (ic : BitVec 2) : Option Instr :=
  match s.toNat with
  | 0 => some (.ami ic)
  | 1 => some (.b8zs ic)
  | 2 => some (.pstern ic)
  | 3 => some (.man ic)
  | 4 => some (.dman ic)
  | 5 => some (.nrzu ic)
  | 6 => some (.nrzl ic)
  | 7 => some (.nrzi ic)
  | 8 => some (.rz ic)
  | 9 => some (.twoB1Q ic)
  | 10 => some (.mlt3 ic)
  | 11 => some (.fourB5B ic)
  | _ => none

/-- `decode` of R73: the command a word stands for, or why it is UNKNOWN. RSVD is looked at first
(DEDUCED, log 23). -/
def decode (w : Command) : Except UnknownCommand Instr :=
  if rsvdField w = 0#2 then
    match instrOfScheme (schemeField w) (icField w) with
    | some i => .ok i
    | none => .error .unassignedScheme
  else .error .reservedBits

/-- The word of a command: `00 ++ ic ++ scheme` (R70, R72). -/
def encode (i : Instr) : Command := 0#2 ++ i.ic ++ i.scheme

/-- What the decoder reads from an instruction of `nbits` bits whose bits are `w`, numbered as spec/opcode_table.json
numbers them. A command is one 8-bit word (R71); bits above `nbits` are 0. -/
def decodeTableWord (nbits w : Nat) : Option Instr :=
  match decode (BitVec.ofNat 8 (w % 2 ^ nbits)) with
  | .ok i => some i
  | .error _ => none

end Sys2Proof
end

