-- ==== Sys2Proof/Machine/Registry.lean ====
section
/-! DEFINITION. The two constant tables, the descriptor ROM DESC (10_state.md R35, 40_registry.md R100) and the 4B5B code
ROM T4B5B (10_state.md R36, 47_4b5b.md R181), and the registry operations over DESC (R101 to R103). -/

namespace Sys2Proof.Machine

/-- The rows of R100 for the codes 0..11: GROUP_SIZE, OPTION_COUNT, OUT_PER_GROUP. -/
def descRows : List Descriptor :=
  [ ⟨true, 1, 2, 1⟩,   -- 0  AMI
    ⟨true, 1, 2, 1⟩,   -- 1  B8ZS
    ⟨true, 1, 2, 1⟩,   -- 2  Pseudoternary
    ⟨true, 1, 0, 2⟩,   -- 3  Manchester
    ⟨true, 1, 2, 2⟩,   -- 4  Differential Manchester
    ⟨true, 1, 0, 1⟩,   -- 5  NRZ-Unipolar
    ⟨true, 1, 0, 1⟩,   -- 6  NRZ-Polar-L
    ⟨true, 1, 2, 1⟩,   -- 7  NRZ-Polar-I
    ⟨true, 1, 0, 2⟩,   -- 8  RZ
    ⟨true, 2, 0, 1⟩,   -- 9  2B1Q
    ⟨true, 1, 4, 1⟩,   -- 10 MLT-3
    ⟨true, 4, 0, 5⟩ ]  -- 11 4B5B

/-- The entry of a code that names no scheme: VALID = 0, the other fields 0 (R100). -/
def descInvalid : Descriptor := ⟨false, 0, 0, 0⟩

/-- DESC[s] (R35, R100). -/
def descRom (s : BitVec 4) : Descriptor := descRows.getD s.toNat descInvalid

/-- `lookup(s)` (R101): the descriptor of a registered code; `none` is the lookup's failure, UnknownScheme. -/
def descLookup (s : BitVec 4) : Option Descriptor := if (descRom s).valid then some (descRom s) else none

/-- `listSchemes()` (R103): the registered codes in ascending order. -/
def schemeCodes : List (BitVec 4) :=
  ((List.range 16).map (BitVec.ofNat 4)).filter fun s => (descRom s).valid

/-- GROUP_SIZE of a command's scheme, in bits. -/
def groupSizeOf (i : Instr) : Nat := (descRom i.scheme).groupSize.toNat

/-- OUT_PER_GROUP of a command's scheme, in symbols. -/
def outPerGroupOf (i : Instr) : Nat := (descRom i.scheme).outPerGroup.toNat

/-- `⌊n/g⌋ * k` (R106). -/
def outLenOf (i : Instr) (n : Nat) : Nat := n / groupSizeOf i * outPerGroupOf i

/-- The column `outLen(n)` of R100, written out. -/
def outLenColumn (i : Instr) (n : Nat) : Nat :=
  match i with
  | .ami _ => n
  | .b8zs _ => n
  | .pstern _ => n
  | .man _ => 2 * n
  | .dman _ => 2 * n
  | .nrzu _ => n
  | .nrzl _ => n
  | .nrzi _ => n
  | .rz _ => 2 * n
  | .twoB1Q _ => n / 2
  | .mlt3 _ => n
  | .fourB5B _ => 5 * n / 4

/-- The codewords of R181 for the groups 0..15. -/
def t4b5bRows : List (BitVec 5) :=
  [ 0x1E, 0x09, 0x14, 0x15, 0x0A, 0x0B, 0x0E, 0x0F, 0x12, 0x13, 0x16, 0x17, 0x1A, 0x1B, 0x1C, 0x1D ]

/-- T4B5B[idx] (R36, R181). -/
def t4b5b (idx : BitVec 4) : BitVec 5 := t4b5bRows.getD idx.toNat 0

end Sys2Proof.Machine
end

