-- ==== Sys2Proof/Machine/Ami.lean ====
section
/-! DEFINITION. AMI, B8ZS and Pseudoternary (41_ami_family.md): one machine under two flags (R110). -/

namespace Sys2Proof.Machine

/-- `init[AMI-family](ic)` (R111). -/
def amiInit (ic : BitVec 2) (s : State) : State := setZeroRunLength 0 (setLastLevel (icPolarity ic) s)

/-- `substitute()` (R112): four of the last eight symbols are overwritten, at offsets -5, -4, -2 and -1, in that order. -/
def substitute (s : State) : State :=
  let v := s.lastLevel.toInt
  setZeroRunLength 0
    (memWriteOut (s.olen - 1) v
      (memWriteOut (s.olen - 2) (-v)
        (memWriteOut (s.olen - 4) (-v)
          (memWriteOut (s.olen - 5) v s))))

/-- The mark branch of R111: the run ends, the polarity flips and the new polarity is emitted. -/
def amiMark (s : State) : State :=
  let t := setLastLevel (-s.lastLevel.toInt) (setZeroRunLength 0 s)
  emit t.lastLevel.toInt t

/-- The other branch of R111: the run grows and 0 is emitted. -/
def amiSpace (s : State) : State := emit 0 (setZeroRunLength (s.zeroRunLength + 1) s)

/-- `step[AMI-family](bit)` (R111). -/
def amiFamilyStep (substituteZeroRuns invertRoles : Bool) (s : State) : State :=
  let bit := groupBit 0 s
  let isMarkBit := if invertRoles then !bit else bit
  let t := if isMarkBit then amiMark s else amiSpace s
  if substituteZeroRuns && t.zeroRunLength == 8 then substitute t else t

/-- AMI: substituteZeroRuns = false, invertRoles = false (R110, R115). -/
def amiTransform (ic : BitVec 2) : Transform where
  group := (descRom 0).groupSize.toNat
  check := fun _ => none
  init := amiInit ic
  step := amiFamilyStep false false
  remainder := none
  release := releaseAmi

/-- B8ZS: substituteZeroRuns = true, invertRoles = false (R110, R116). -/
def b8zsTransform (ic : BitVec 2) : Transform where
  group := (descRom 1).groupSize.toNat
  check := fun _ => none
  init := amiInit ic
  step := amiFamilyStep true false
  remainder := none
  release := releaseAmi

/-- Pseudoternary: substituteZeroRuns = false, invertRoles = true (R110, R117). -/
def psternTransform (ic : BitVec 2) : Transform where
  group := (descRom 2).groupSize.toNat
  check := fun _ => none
  init := amiInit ic
  step := amiFamilyStep false true
  remainder := none
  release := releaseAmi

/-- `ENC.AMI ic` (R115). -/
def execAmi (ic : BitVec 2) (s : State) : Host.Outcome State Fault Refusal := runCall (amiTransform ic) s

/-- `ENC.B8ZS ic` (R116). -/
def execB8zs (ic : BitVec 2) (s : State) : Host.Outcome State Fault Refusal := runCall (b8zsTransform ic) s

/-- `ENC.PSTERN ic` (R117). -/
def execPstern (ic : BitVec 2) (s : State) : Host.Outcome State Fault Refusal := runCall (psternTransform ic) s

end Sys2Proof.Machine
end

