-- ==== Sys2Proof/Machine/Block.lean ====
section
/-! DEFINITION. 4B5B (47_4b5b.md). -/

namespace Sys2Proof.Machine

/-- Bit `k` of a codeword as a symbol (R180). -/
def codeBit (w : BitVec 5) (k : Nat) : Int := bitToInt (w.getLsbD k)

/-- `step[4B5B](a, b, c, d)` (R180): the codeword of the group, leftmost character `w[4]` first. -/
def fourB5BStep (s : State) : State :=
  let w := t4b5b (groupNibble s)
  emit (codeBit w 0) (emit (codeBit w 1) (emit (codeBit w 2) (emit (codeBit w 3) (emit (codeBit w 4) s))))

/-- 4B5B (R180): `ic` is ignored; a partial trailing group has no meaning (R183; DEDUCED, safe,
log 24). -/
def fourB5BTransform (_ic : BitVec 2) : Transform where
  group := (descRom 11).groupSize.toNat
  check := fun _ => none
  init := id
  step := fourB5BStep
  remainder := some .invalidInputLength
  release := id

/-- `ENC.4B5B ic` (R180, R183). -/
def execFourB5B (ic : BitVec 2) (s : State) : Host.Outcome State Fault Refusal := runCall (fourB5BTransform ic) s

end Sys2Proof.Machine
end

