-- ==== Sys2Proof/Machine/Manchester.lean ====
section
/-! DEFINITION. Manchester and Differential Manchester (42_manchester.md). -/

namespace Sys2Proof.Machine

/-- `step[MAN](bit)` (R130): `1 - bit`, then `bit`. -/
def manStep (s : State) : State :=
  let bit := bitToInt (groupBit 0 s)
  emit bit (emit (1 - bit) s)

/-- Manchester (R130): stateless, `ic` is ignored. -/
def manTransform (_ic : BitVec 2) : Transform where
  group := (descRom 3).groupSize.toNat
  check := fun _ => none
  init := id
  step := manStep
  remainder := none
  release := id

/-- `if bit == 0: level <- 1 - level` (R132). -/
def dmanFlip (s : State) : State := if groupBit 0 s then s else setLevel (1 - s.level.toInt) s

/-- `step[DMAN](bit)` (R132): `level`, then `1 - level`, which is not stored. -/
def dmanStep (s : State) : State :=
  let t := dmanFlip s
  emit (1 - t.level.toInt) (emit t.level.toInt t)

/-- Differential Manchester (R132). -/
def dmanTransform (ic : BitVec 2) : Transform where
  group := (descRom 4).groupSize.toNat
  check := levelDomainCheck ic
  init := setLevel (icValue ic)
  step := dmanStep
  remainder := none
  release := releaseLevel

/-- `ENC.MAN ic` (R130). -/
def execMan (ic : BitVec 2) (s : State) : Host.Outcome State Fault Refusal := runCall (manTransform ic) s

/-- `ENC.DMAN ic` (R132, R204). -/
def execDman (ic : BitVec 2) (s : State) : Host.Outcome State Fault Refusal := runCall (dmanTransform ic) s

end Sys2Proof.Machine
end

