-- ==== Sys2Proof/Machine/Mlt3.lean ====
section
/-! DEFINITION. MLT-3 (46_mlt3.md). -/

namespace Sys2Proof.Machine

/-- `init[MLT3](ic)` (R167). -/
def mlt3Init (ic : BitVec 2) (s : State) : State := setGrowing (icMlt3Growing ic) (setLevel (icMlt3Level ic) s)

/-- The move of R166 on a 1 bit: a step in the direction of travel, or a clamp to 0 that reverses it. -/
def mlt3Move (s : State) : State :=
  let t : Int := s.level.toInt + (if s.growing then 1 else -1)
  if t < -1 ∨ 1 < t then setGrowing (!s.growing) (setLevel 0 s) else setLevel t s

/-- `step[MLT3](bit)` (R166): the level is emitted whatever the bit. -/
def mlt3Step (s : State) : State :=
  let u := if groupBit 0 s then mlt3Move s else s
  emit u.level.toInt u

/-- MLT-3 (R165). -/
def mlt3Transform (ic : BitVec 2) : Transform where
  group := (descRom 10).groupSize.toNat
  check := fun _ => none
  init := mlt3Init ic
  step := mlt3Step
  remainder := none
  release := releaseMlt3

/-- `ENC.MLT3 ic` (R165). -/
def execMlt3 (ic : BitVec 2) (s : State) : Host.Outcome State Fault Refusal := runCall (mlt3Transform ic) s

end Sys2Proof.Machine
end

