-- ==== Sys2Proof/Machine/Nrz.lean ====
section
/-! DEFINITION. The NRZ family (43_nrz.md). -/

namespace Sys2Proof.Machine

/-- `step[NRZU](bit)` (R140): the bit itself. -/
def nrzuStep (s : State) : State := emit (bitToInt (groupBit 0 s)) s

/-- NRZ-Unipolar (R140): `ic` is not read. -/
def nrzuTransform (_ic : BitVec 2) : Transform where
  group := (descRom 5).groupSize.toNat
  check := fun _ => none
  init := id
  step := nrzuStep
  remainder := none
  release := id

/-- `step[NRZL](bit)` (R141): -1 for a 1 bit, +1 for a 0 bit. -/
def nrzlStep (s : State) : State := emit (if groupBit 0 s then -1 else 1) s

/-- NRZ-Polar-L (R141): `ic` is not read. -/
def nrzlTransform (_ic : BitVec 2) : Transform where
  group := (descRom 6).groupSize.toNat
  check := fun _ => none
  init := id
  step := nrzlStep
  remainder := none
  release := id

/-- `if bit == 0: level <- 1 - level` (R142). -/
def nrziFlip (s : State) : State := if groupBit 0 s then s else setLevel (1 - s.level.toInt) s

/-- `step[NRZI](bit)` (R142): the inversion is on a 0 bit; `level` is emitted. -/
def nrziStep (s : State) : State :=
  let t := nrziFlip s
  emit t.level.toInt t

/-- NRZ-Polar-I (R142). -/
def nrziTransform (ic : BitVec 2) : Transform where
  group := (descRom 7).groupSize.toNat
  check := levelDomainCheck ic
  init := setLevel (icValue ic)
  step := nrziStep
  remainder := none
  release := releaseLevel

/-- `ENC.NRZU ic` (R140). -/
def execNrzu (ic : BitVec 2) (s : State) : Host.Outcome State Fault Refusal := runCall (nrzuTransform ic) s

/-- `ENC.NRZL ic` (R141). -/
def execNrzl (ic : BitVec 2) (s : State) : Host.Outcome State Fault Refusal := runCall (nrzlTransform ic) s

/-- `ENC.NRZI ic` (R142, R204). -/
def execNrzi (ic : BitVec 2) (s : State) : Host.Outcome State Fault Refusal := runCall (nrziTransform ic) s

end Sys2Proof.Machine
end

