-- ==== Sys2Proof/Machine/Quaternary.lean ====
section
/-! DEFINITION. 2B1Q (45_2b1q.md). -/

namespace Sys2Proof.Machine

/-- `step[2B1Q](b0, b1)` (R155): `b0 = IN[cur]` gives the sign and `b1 = IN[cur+1]` the magnitude. -/
def twoB1QStep (s : State) : State :=
  let sign : Int := if groupBit 0 s then 1 else -1
  let magnitude : Int := if groupBit 1 s then 1 else 3
  emit (sign * magnitude) s

/-- 2B1Q (R155): `ic` is not read; a trailing unpaired bit is dropped (R156). -/
def twoB1QTransform (_ic : BitVec 2) : Transform where
  group := (descRom 9).groupSize.toNat
  check := fun _ => none
  init := id
  step := twoB1QStep
  remainder := none
  release := id

/-- `ENC.2B1Q ic` (R155, R156). -/
def execTwoB1Q (ic : BitVec 2) (s : State) : Host.Outcome State Fault Refusal := runCall (twoB1QTransform ic) s

end Sys2Proof.Machine
end

