-- ==== Sys2Proof/Machine/Rz.lean ====
section
/-! DEFINITION. RZ (44_rz.md). -/

namespace Sys2Proof.Machine

/-- `step[RZ](bit)` (R150): the pulse, then the return to zero. -/
def rzStep (s : State) : State := emit 0 (emit (if groupBit 0 s then 1 else -1) s)

/-- RZ (R150): stateless, `ic` is ignored. -/
def rzTransform (_ic : BitVec 2) : Transform where
  group := (descRom 8).groupSize.toNat
  check := fun _ => none
  init := id
  step := rzStep
  remainder := none
  release := id

/-- `ENC.RZ ic` (R150). -/
def execRz (ic : BitVec 2) (s : State) : Host.Outcome State Fault Refusal := runCall (rzTransform ic) s

end Sys2Proof.Machine
end

