-- ==== Sys2Proof/Machine/Dispatch.lean ====
section
/-! DEFINITION. One arm per command (30_encoding.md R72): the whole call of a known command (40_registry.md R104). -/

namespace Sys2Proof.Machine

def exec (i : Instr) (s : State) : Host.Outcome State Fault Refusal :=
  match i with
  | .ami ic => Sys2Proof.Machine.execAmi ic s
  | .b8zs ic => Sys2Proof.Machine.execB8zs ic s
  | .pstern ic => Sys2Proof.Machine.execPstern ic s
  | .man ic => Sys2Proof.Machine.execMan ic s
  | .dman ic => Sys2Proof.Machine.execDman ic s
  | .nrzu ic => Sys2Proof.Machine.execNrzu ic s
  | .nrzl ic => Sys2Proof.Machine.execNrzl ic s
  | .nrzi ic => Sys2Proof.Machine.execNrzi ic s
  | .rz ic => Sys2Proof.Machine.execRz ic s
  | .twoB1Q ic => Sys2Proof.Machine.execTwoB1Q ic s
  | .mlt3 ic => Sys2Proof.Machine.execMlt3 ic s
  | .fourB5B ic => Sys2Proof.Machine.execFourB5B ic s

end Sys2Proof.Machine
end

