-- ==== Sys2Proof/Machine/Engine.lean ====
section
/-! DEFINITION. The engine's own move, one step of a call at a time (20_memory.md R57, R61, 40_registry.md R104), and which
OUT symbols are final while a call runs (70_reset_and_hazards.md R228). -/

namespace Sys2Proof.Machine

/-- The transform the SCHEME code selects (R35, R207). -/
def transformOf : Instr → Transform
  | .ami ic => amiTransform ic
  | .b8zs ic => b8zsTransform ic
  | .pstern ic => psternTransform ic
  | .man ic => manTransform ic
  | .dman ic => dmanTransform ic
  | .nrzu ic => nrzuTransform ic
  | .nrzl ic => nrzlTransform ic
  | .nrzi ic => nrziTransform ic
  | .rz ic => rzTransform ic
  | .twoB1Q ic => twoB1QTransform ic
  | .mlt3 ic => mlt3Transform ic
  | .fourB5B ic => fourB5BTransform ic

/-- One step of the call that a transform serves: a group if a full one is left, and otherwise the call's end
(DESIGN CHOICE of the grain, safe; log 10). -/
def callStep (t : Transform) (s : State) : Host.Outcome State Fault Refusal :=
  if groupReady t s then .next (groupStep t s) else closeCall t s

/-- The engine's move. When not BUSY it is idle and keeps everything (60_exceptions.md R216). While BUSY it does one step of
the call whose command CMD holds. BUSY with an unknown word in CMD is a call that has been entered and not decoded yet: the
engine raises UnknownScheme (R104; that the entry and the decoding are two moves is a DESIGN CHOICE, safe; log 29). -/
def engineStep (s : State) : Host.Outcome State Fault Refusal :=
  if isBusy s then
    match decode s.cmd with
    | .ok i => callStep (transformOf i) s
    | .error _ => .next (raiseUnknownScheme s)
  else .next s

/-- `runStart = cur - zeroRunLength` (R228). -/
def runStart (s : State) : Nat := s.cur - s.zeroRunLength

/-- The run positions a substitution never writes, 1, 2, 3 and 6, as offsets from the run's start (R228 (c)). -/
def runOffsetNeverWritten (k : Nat) : Bool := k == 0 || k == 1 || k == 2 || k == 5

/-- `OUT[p]` of a B8ZS call in progress is final (R228 (b), (c)). -/
def isFinalB8zs (s : State) (p : Nat) : Bool :=
  decide (p < runStart s) || runOffsetNeverWritten (p - runStart s)

/-- The call in progress will be refused at its end for its partial group, which only ENC.4B5B's is: the spec gives such a
call no meaning, and nothing may be claimed of its STATUS or OUT (R183, R200, R233; DEDUCED, safe, log 34). -/
def willBeRefused (s : State) : Bool :=
  isBusy s &&
    match decode s.cmd with
    | .ok i => (transformOf i).remainder.isSome && decide (s.len % (transformOf i).group ≠ 0)
    | .error _ => false

/-- The number of symbols of the call in progress that have a meaning: `olen` of them, but none before an unknown word is
decoded (R201), and none in a call that will be refused (R183). -/
def readableSoFar (s : State) : Nat :=
  match decode s.cmd with
  | .ok _ => if willBeRefused s then 0 else s.olen
  | .error _ => 0

/-- `OUT[p]` holds a symbol and is final (R228): the call has ended, or every scheme but B8ZS, or R228 (b) or (c). -/
def isFinal (s : State) (p : Nat) : Bool :=
  if isBusy s then
    decide (p < readableSoFar s) &&
      match decode s.cmd with
      | .ok (.b8zs _) => isFinalB8zs s p
      | _ => true
  else decide (p < s.outLen)

end Sys2Proof.Machine
end

