-- ==== Sys2Proof/WellFormed.lean ====
section
/-! DEFINITION. When a command and a host statement can be written to the hardware at all: every operand fits the register
or names an element that exists. -/

namespace Sys2Proof

/-- IC_WIDTH, `ic` in 0..3 (R74). The index of a command as a host writes it in decimal (R79) is checked here; inside
`Instr` it is a 2-bit field already. -/
def icFits (n : Nat) : Bool := n < 4

/-- A host statement whose operands exist and fit on a machine with parameters `p`. -/
def hostOpWellFormed (p : Config.Params) : Machine.HostOp → Bool
  | .writeIn bits => bits.length ≤ p.maxInLen
  | .writeInBit i _ => isInIndex p i
  | .writeInLen n => inLenFits p n
  | .writeCmd _ => true
  | .command _ => true
  | .pad _ => true
  | .writeStatus _ => true
  | .writeOutLen _ => true
  | .readCmd => true
  | .readInLen => true
  | .readStatus => true
  | .readOutLen => true
  | .readIn i => isInIndex p i
  | .readOut j => isOutIndex p j
  | .describe _ => true
  | .listSchemes => true
  | .tick => true
  | .waitEnd => true
  | .reset => true

/-- Every term of `Instr` is a command with a word (R70): its one field has the width of the IC field. -/
def Instr.wellFormed : Instr → Bool
  | .ami ic => icFits ic.toNat
  | .b8zs ic => icFits ic.toNat
  | .pstern ic => icFits ic.toNat
  | .man ic => icFits ic.toNat
  | .dman ic => icFits ic.toNat
  | .nrzu ic => icFits ic.toNat
  | .nrzl ic => icFits ic.toNat
  | .nrzi ic => icFits ic.toNat
  | .rz ic => icFits ic.toNat
  | .twoB1Q ic => icFits ic.toNat
  | .mlt3 ic => icFits ic.toNat
  | .fourB5B ic => icFits ic.toNat

end Sys2Proof
end

