-- ==== Sys2Proof/Machine/HostOps.lean ====
section
/-! DEFINITION. The host's moves (20_memory.md R58, R62, 30_encoding.md R79, R80, 60_exceptions.md R207, R209, R211,
70_reset_and_hazards.md R220, R221, R227, R232). -/

namespace Sys2Proof.Machine

/-- A host write that is allowed only while the engine is not BUSY (R227): while it is, there is no move (U8). -/
def writeUnlessBusy (s : State) (k : Host.Outcome State Fault Refusal) : Host.Outcome State Fault Refusal :=
  if isBusy s then .fault .hostWriteWhileBusy else k

/-- The host's read returned `r`; the state is otherwise unchanged (R58). -/
def hostGets (r : HostRead) (s : State) : State := { s with got := r :: s.got }

/-- A read whose value is open while BUSY is a draw (R62): the next one may differ. -/
def hostDraws (r : HostRead) (s : State) : State := { hostGets r s with draws := s.draws + 1 }

/-- The bits of ENCP's padded input (R80): `[0]*p ++ IN` with `p = (g - (n mod g)) mod g`. -/
def paddedInput (g : Nat) (bits : List Bit) : List Bit :=
  List.replicate ((g - bits.length % g) % g) false ++ bits

/-- Write IN and IN_LEN with `bits` (R79), which must fit in IN (R53). -/
def hostWriteInput (bits : List Bit) (s : State) : Host.Outcome State Fault Refusal :=
  if bits.length ≤ s.params.maxInLen then .next (writeInput bits s) else .fault .noSuchElement

/-- Write one element of IN (R50, R53). -/
def hostWriteInBit (i : Nat) (b : Bit) (s : State) : Host.Outcome State Fault Refusal :=
  if isInIndex s.params i then
    .next { s with mem := { s.mem with inBits := cellsWrite i b s.mem.inBits } }
  else .fault .noSuchElement

/-- Write IN_LEN (R25): any number the register can hold. -/
def hostWriteInLen (n : Nat) (s : State) : Host.Outcome State Fault Refusal :=
  if inLenFits s.params n then .next { s with inLen := n } else .refused .notRepresentable

/-- `CMD <hex>` of R79: the word is latched and the call entered (R207), an unknown word raises UnknownScheme before
anything else (R206), and a known one runs its whole call, whose start makes the same entry. -/
def hostCommand (w : Command) (s : State) : Host.Outcome State Fault Refusal :=
  match decode w with
  | .ok i => exec i (latchCommand w s)
  | .error _ => .next (raiseUnknownScheme (enterCall (latchCommand w s)))

/-- A write to CMD without waiting (R207): the call is entered, and a known command's is started. An unknown word leaves the
engine BUSY until its next move (log 29). -/
def hostWriteCmd (w : Command) (s : State) : Host.Outcome State Fault Refusal :=
  match decode w with
  | .ok i => startCall (transformOf i) (latchCommand w s)
  | .error _ => .next (enterCall (latchCommand w s))

/-- The host's part of `ENCP.<M>` (R80; one step, DESIGN CHOICE, safe, log 32). -/
def hostPad (i : Instr) (s : State) : Host.Outcome State Fault Refusal :=
  hostWriteInput (paddedInput (groupSizeOf i) (inputBits s s.inLen)) s

/-- Read OUT_LEN: while BUSY the value is open (R62, U6; under STREAM_OUT too, DESIGN CHOICE, safe, log 27). -/
def hostReadOutLen (s : State) : State :=
  if isBusy s then hostDraws (.outLen (Config.freeOutLen s.params.engineIndex s.draws)) s
  else hostGets (.outLen s.outLen) s

/-- Read STATUS (R26). While BUSY too it returns what the register holds (DEDUCED, log 33), except during a call that will be
refused: nothing may be claimed of that call's STATUS (R200), so the value is open (DEDUCED, safe, log 34). -/
def hostReadStatus (s : State) : State :=
  if willBeRefused s then hostDraws (.status (Config.freeStatus s.params.engineIndex s.draws)) s
  else hostGets (.status s.status) s

/-- Read an element of IN (R58). -/
def hostReadIn (i : Nat) (s : State) : Host.Outcome State Fault Refusal :=
  if isInIndex s.params i then .next (hostGets (.inBit i (memReadIn s i)) s) else .fault .noSuchElement

/-- What a read of OUT[j] finds while BUSY: under STREAM_OUT what the engine has emitted so far (R228, U7), and
otherwise an open value (R62, U6; at or above what has been emitted, log 27). A call that will be refused gives no OUT
value (R183), so every such read is open then (DEDUCED, safe, log 34). -/
def busySym (j : Nat) (s : State) : State :=
  if s.params.streamOut && decide (j < readableSoFar s) then hostGets (.sym j (memReadOut s j)) s
  else hostDraws (.sym j (Config.freeOut s.params.engineIndex s.draws j)) s

/-- What a read of OUT[j] finds while not BUSY: OUT[0..OUT_LEN-1] is the result (R233), and the rest is open (U5), but the
same at every read until the engine acts again (R58). -/
def settledSym (j : Nat) (s : State) : Sym :=
  if j < s.outLen then memReadOut s j else Config.freeOut s.params.engineIndex s.draws j

/-- Read an element of OUT (R58, R62). -/
def hostReadOut (j : Nat) (s : State) : Host.Outcome State Fault Refusal :=
  if isOutIndex s.params j then
    .next (if isBusy s then busySym j s else hostGets (.sym j (settledSym j s)) s)
  else .fault .noSuchElement

/-- Power-on reset of this instance (R220, R221): every register at its reset value and the buffers' contents open. The
host, what it has read, and the parameters are no part of the engine and stay (DESIGN CHOICE, safe; log 20). That a reset
the host sends reaches only the instance it is addressed to is a DESIGN CHOICE too, unsafe (log 35);
`platformPowerOnReset` resets all of them at once. -/
def hostReset (s : State) : State :=
  { State.resetWith s.params with host := s.host, got := s.got, draws := s.draws + 1, resets := s.resets + 1 }

/-- The move of one host statement `op`, from the state whose queue `op` has been taken off. Writes to STATUS are ignored
(R26), and to OUT_LEN as well (DEDUCED, log 18); reads of CMD, IN_LEN and IN return what they hold while BUSY too (DEDUCED,
log 33). A wait ends at any STATE that is not BUSY, so IDLE ends it too: the host waits for DONE or ERROR (R79, R226), and
what it does when it finds IDLE, or a reset abandons the call it waits for (R221), is a DESIGN CHOICE, unsafe (log 36). -/
def hostDo (op : HostOp) (s : State) : Host.Outcome State Fault Refusal :=
  match op with
  | .writeIn bits => writeUnlessBusy s (hostWriteInput bits s)
  | .writeInBit i b => writeUnlessBusy s (hostWriteInBit i b s)
  | .writeInLen n => writeUnlessBusy s (hostWriteInLen n s)
  | .writeCmd w => writeUnlessBusy s (hostWriteCmd w s)
  | .command w => writeUnlessBusy s (hostCommand w s)
  | .pad i => writeUnlessBusy s (hostPad i s)
  | .writeStatus _ => .next s
  | .writeOutLen _ => .next s
  | .readCmd => .next (hostGets (.cmd s.cmd) s)
  | .readInLen => .next (hostGets (.inLen s.inLen) s)
  | .readStatus => .next (hostReadStatus s)
  | .readOutLen => .next (hostReadOutLen s)
  | .readIn i => hostReadIn i s
  | .readOut j => hostReadOut j s
  | .describe c => .next (hostGets (.desc c (descRom c)) s)
  | .listSchemes => .next (hostGets (.schemes schemeCodes) s)
  | .tick => engineStep s
  | .waitEnd => if isBusy s then engineStep { s with host := .waitEnd :: s.host } else .next s
  | .reset => .next (hostReset s)

/-- One step of the engine and its host. The next host statement is executed; with none left the engine moves alone. -/
def hostStep (s : State) : Host.Outcome State Fault Refusal :=
  match s.host with
  | [] => engineStep s
  | op :: rest => hostDo op { s with host := rest }

/-- `s` with the command word `w` as the host's next statement, and not BUSY (a BUSY engine would give it no move). -/
def placeCommand (w : Command) (s : State) : State :=
  let t := { s with host := .command w :: s.host }
  if isBusy t then setStatus stIdle errNone t else t

/-- The statement `ENC.<M> [ic]` of R79. -/
def encStatement (i : Instr) : HostOp := .command (encode i)

/-- The pseudo-instruction `ENCP.<M> [ic]` of R80: pad, then encode. -/
def encpStatement (i : Instr) : List HostOp := [.pad i, encStatement i]

end Sys2Proof.Machine
end

