-- ==== Sys2Proof/Machine/Platform.lean ====
section
/-! DEFINITION. A platform of N_ENGINES independent instances (20_memory.md R67, 60_exceptions.md R214, 10_state.md R21):
each has its own registers and buffers, and the constant ROMs are the only thing they share (DEDUCED, safe; log 17). -/

namespace Sys2Proof.Machine

/-- The instances of a platform, at least one (00_scope.md R7), each with the host statements addressed to it. -/
structure Platform where
  /-- instance 0 -/
  first : State
  /-- instances 1, 2, … -/
  others : List State
deriving DecidableEq, Repr

/-- One state per instance. -/
def Platform.engines (pl : Platform) : List State := pl.first :: pl.others

/-- N_ENGINES (R7). -/
def Platform.nEngines (pl : Platform) : Config.NEngines := ⟨pl.engines.length, Nat.succ_le_succ (Nat.zero_le _)⟩

/-- The platform with instance `k` in the state `t`. -/
def Platform.withEngine (k : Nat) (t : State) (pl : Platform) : Platform :=
  match k with
  | 0 => { pl with first := t }
  | j + 1 => { pl with others := pl.others.set j t }

/-- A platform of `n` instances right after power-on, with the parameters `p k` for instance `k` (R214, R220). Each gets
its own `engineIndex`, so that what is open in one instance is tied to nothing in another (R40, R67; log 7). -/
def Platform.reset (n : Config.NEngines) (p : Nat → Config.Params) : Platform where
  first := State.resetWith { p 0 with engineIndex := 0 }
  others := (List.range (n.val - 1)).map fun k => State.resetWith { p (k + 1) with engineIndex := k + 1 }

/-- Power-on reset of a running platform: every instance at once (R220). -/
def platformPowerOnReset (pl : Platform) : Platform where
  first := hostReset pl.first
  others := pl.others.map hostReset

/-- Instance `k` makes its step; the others do nothing. An index that names no instance gives the platform no move. -/
def platformStep (k : Nat) (pl : Platform) : Option (Host.Outcome Platform Fault Refusal) :=
  match pl.engines[k]? with
  | none => none
  | some s =>
    some (match step s with
      | .next t => .next (pl.withEngine k t)
      | .fault r => .fault r
      | .refused r => .refused r)

end Sys2Proof.Machine
end

