-- ==== Sys2Proof/Machine/PureForm.lean ====
section
/-! DEFINITION. Each scheme as a pure function from its starting condition and the input bits to the levels it emits
(40_registry.md R108), with no registers, cursor or buffer. The machine's calls are stated against these. -/

namespace Sys2Proof.Machine

/-- AMI and Pseudoternary (R111 without substitution): a mark negates the last polarity and emits it, any other bit emits
0. `invertRoles` makes 0 the mark bit. -/
def amiLevels (invertRoles : Bool) : Int → List Bit → List Int
  | _, [] => []
  | last, b :: bs =>
    if b != invertRoles then -last :: amiLevels invertRoles (-last) bs
    else 0 :: amiLevels invertRoles last bs

/-- The eight symbols that stand for eight zeros when the last polarity is `v` (R112). -/
def b8zsPattern (v : Int) : List Int := [0, 0, 0, v, -v, 0, -v, v]

/-- B8ZS by looking ahead: eight zeros in a row become the pattern, and otherwise it is AMI (R112, R116). -/
def b8zsLevels : Int → List Bit → List Int
  | _, [] => []
  | last, true :: bs => -last :: b8zsLevels (-last) bs
  | last, false :: false :: false :: false :: false :: false :: false :: false :: bs =>
    b8zsPattern last ++ b8zsLevels last bs
  | last, false :: bs => 0 :: b8zsLevels last bs

/-- Manchester (R130). -/
def manLevels (bits : List Bit) : List Int := bits.flatMap fun b => [1 - bitToInt b, bitToInt b]

/-- The level after a bit of Differential Manchester or NRZ-Polar-I: a 0 bit inverts it (R132, R142). -/
def nextLevel (level : Int) (b : Bit) : Int := if b then level else 1 - level

/-- Differential Manchester (R132). -/
def dmanLevels : Int → List Bit → List Int
  | _, [] => []
  | level, b :: bs => nextLevel level b :: (1 - nextLevel level b) :: dmanLevels (nextLevel level b) bs

/-- NRZ-Unipolar (R140). -/
def nrzuLevels (bits : List Bit) : List Int := bits.map bitToInt

/-- NRZ-Polar-L (R141). -/
def nrzlLevels (bits : List Bit) : List Int := bits.map fun b => if b then -1 else 1

/-- NRZ-Polar-I (R142). -/
def nrziLevels : Int → List Bit → List Int
  | _, [] => []
  | level, b :: bs => nextLevel level b :: nrziLevels (nextLevel level b) bs

/-- RZ (R150). -/
def rzLevels (bits : List Bit) : List Int := bits.flatMap fun b => [if b then 1 else -1, 0]

/-- The symbol of a 2B1Q pair, as the table of R155 lists it. -/
def pairLevel : Bit → Bit → Int
  | false, false => -3
  | false, true => -1
  | true, false => 3
  | true, true => 1

/-- 2B1Q (R155): pairs in order, a trailing unpaired bit dropped (R156). -/
def twoB1QLevels : List Bit → List Int
  | b0 :: b1 :: bs => pairLevel b0 b1 :: twoB1QLevels bs
  | _ => []

/-- MLT-3's next (level, growing), as the transition table of R168 lists it for a 1 bit; a 0 bit changes nothing. -/
def mlt3Next (level : Int) (growing : Bool) (b : Bit) : Int × Bool :=
  if b then
    let t := if growing then level + 1 else level - 1
    if -1 ≤ t ∧ t ≤ 1 then (t, growing) else (0, !growing)
  else (level, growing)

/-- MLT-3 (R166). -/
def mlt3Levels : Int → Bool → List Bit → List Int
  | _, _, [] => []
  | level, growing, b :: bs =>
    (mlt3Next level growing b).1 :: mlt3Levels (mlt3Next level growing b).1 (mlt3Next level growing b).2 bs

/-- The five symbols of a codeword, leftmost character first (R180). -/
def codewordLevels (w : BitVec 5) : List Int := [4, 3, 2, 1, 0].map fun k => bitToInt (w.getLsbD k)

/-- The index of a group of four bits, the first in time the most significant (R52, R180). -/
def nibbleOf (a b c d : Bit) : BitVec 4 := BitVec.ofNat 4 (8 * a.toNat + 4 * b.toNat + 2 * c.toNat + d.toNat)

/-- 4B5B (R180). The last clause is a partial group, which has no meaning (R183): a call that reaches it is refused. -/
def fourB5BLevels : List Bit → List Int
  | a :: b :: c :: d :: bs => codewordLevels (t4b5b (nibbleOf a b c d)) ++ fourB5BLevels bs
  | _ => []

/-- The levels a command's call emits for the input bits (R108). -/
def encodeLevels (i : Instr) (bits : List Bit) : List Int :=
  match i with
  | .ami ic => amiLevels false (icPolarity ic) bits
  | .b8zs ic => b8zsLevels (icPolarity ic) bits
  | .pstern ic => amiLevels true (icPolarity ic) bits
  | .man _ => manLevels bits
  | .dman ic => dmanLevels (icValue ic) bits
  | .nrzu _ => nrzuLevels bits
  | .nrzl _ => nrzlLevels bits
  | .nrzi ic => nrziLevels (icValue ic) bits
  | .rz _ => rzLevels bits
  | .twoB1Q _ => twoB1QLevels bits
  | .mlt3 ic => mlt3Levels (icMlt3Level ic) (icMlt3Growing ic) bits
  | .fourB5B _ => fourB5BLevels bits

end Sys2Proof.Machine
end

