-- ==== Sys2Proof/Safety.lean ====
section
/-! DEFINITION. What the spec promises of every run: the host's contract (70_reset_and_hazards.md R226, 60_exceptions.md
R203), what a call leaves alone (10_state.md R38), and the shapes the state keeps from step to step. -/

namespace Sys2Proof.Machine

/-! ### The contract and the frame of a call -/

/-- Host duty 4: `n <= MAX_IN_LEN` (R226). -/
def inputFits (s : State) : Prop := s.inLen ≤ s.params.maxInLen

/-- The index is in the scheme's domain (R75), or the policy runs it as written (R204). -/
def icAdmitted (i : Instr) (s : State) : Prop :=
  match i with
  | .ami _ => True
  | .b8zs _ => True
  | .pstern _ => True
  | .man _ => True
  | .dman ic => icInLevelDomain ic = true ∨ s.params.icOorPolicy = .literal
  | .nrzu _ => True
  | .nrzl _ => True
  | .nrzi ic => icInLevelDomain ic = true ∨ s.params.icOorPolicy = .literal
  | .rz _ => True
  | .twoB1Q _ => True
  | .mlt3 _ => True
  | .fourB5B _ => True

/-- No partial group that has no meaning is left over (R183, R202): only 4B5B needs a whole number of groups. -/
def groupsWhole (i : Instr) (s : State) : Prop :=
  match i with
  | .ami _ => True
  | .b8zs _ => True
  | .pstern _ => True
  | .man _ => True
  | .dman _ => True
  | .nrzu _ => True
  | .nrzl _ => True
  | .nrzi _ => True
  | .rz _ => True
  | .twoB1Q _ => True
  | .mlt3 _ => True
  | .fourB5B _ => s.inLen % 4 = 0

/-- The duties under which a known command's call ends DONE (R203, R226). -/
def contractMet (i : Instr) (s : State) : Prop := inputFits s ∧ icAdmitted i s ∧ groupsWhole i s

/-- STATUS says DONE and no error (R26). -/
def statusDone (t : State) : Prop := t.status = statusWord stDone errNone

/-- STATUS says ERROR and UNKNOWN_SCHEME, the value 0x7 (R26, R201). -/
def statusUnknownScheme (t : State) : Prop := t.status = statusWord stError errUnknownScheme

/-- OUT holds symbols at the indices below `k` and nowhere else. -/
def outFilled (k : Nat) (t : State) : Prop := ∀ j, (cellsRead t.mem.outSyms j).isSome = decide (j < k)

/-- What no call writes: the parameters, CMD, IN_LEN, every bit of IN, and the host's side (R24, R25, R38, R56, R216). -/
def callFrame (s t : State) : Prop :=
  t.params = s.params ∧ t.cmd = s.cmd ∧ t.inLen = s.inLen ∧ t.mem.inBits = s.mem.inBits ∧
    (∀ a, memReadIn t a = memReadIn s a) ∧ t.host = s.host ∧ t.got = s.got ∧ t.resets = s.resets

/-- The scheme state registers of the AMI family are unchanged (R34, R38). -/
def amiRegsKept (s t : State) : Prop := t.lastLevel = s.lastLevel ∧ t.zeroRunLength = s.zeroRunLength

/-- `level` is unchanged (R34, R38). -/
def levelKept (s t : State) : Prop := t.level = s.level

/-- `growing` is unchanged (R34, R38). -/
def growingKept (s t : State) : Prop := t.growing = s.growing

/-- `t` is the end of a DONE call of group size `g` on input of length `n` that emitted `levels`: STATUS, OUT_LEN, `olen`,
all of OUT, the sampled length and the cursor (R28, R104, R106, R233). -/
def callDone (g n : Nat) (levels : List Int) (t : State) : Prop :=
  statusDone t ∧ t.outLen = levels.length ∧ t.olen = levels.length ∧ outFilled levels.length t ∧
    outLevels t = levels ∧ t.len = n ∧ t.cur = n / g * g

/-- The result of a call that has ended (R233): STATUS and `OUT[0..OUT_LEN-1]`. -/
def callResult (t : State) : BitVec 4 × Nat × List Int := (t.status, t.outLen, outLevels t)

/-- A row of MLT-3's transition table (R168): the step leaves level `l` and direction `g`, and `l` is the level emitted. -/
def mlt3Row (s : State) (l : Int) (g : Bool) : Prop :=
  (mlt3Step s).level.toInt = l ∧ (mlt3Step s).growing = g ∧ (mlt3Step s).olen = s.olen + 1 ∧
    outLevel (mlt3Step s) s.olen = l

/-! ### Shapes that every step keeps -/

/-- ERR_CODE is 0 unless STATE is ERROR, and then it is UNKNOWN_SCHEME; 2 and 3 are never produced (R26). -/
def statusLegal (s : State) : Prop :=
  errField s.status = if stateField s.status = stError then errUnknownScheme else errNone

/-- OUT_LEN is 0 in IDLE and in ERROR, and in DONE it counts the symbols OUT holds, which fit (R27, R40, R53). -/
def outLenLegal (s : State) : Prop :=
  ((stateField s.status = stIdle ∨ stateField s.status = stError) → s.outLen = 0) ∧
    (stateField s.status = stDone → outFilled s.outLen s ∧ s.outLen ≤ maxOut s.params)

/-- No element of OUT holds 100, the level -4, which is never produced (R77). -/
def symbolsLegal (s : State) : Prop := ∀ j v, cellsRead s.mem.outSyms j = some v → v ≠ 0b100#3

/-- `lastLevel` is -1 or +1 (R30, R113 (c)). -/
def polarityLegal (s : State) : Prop := s.lastLevel = 0b01#2 ∨ s.lastLevel = 0b11#2

/-- The pending zero run of a B8ZS call: 0..7 long, within the symbols emitted, and every symbol of it still reads 0
(R31, R228). -/
def pendingRunLegal (s : State) : Prop :=
  s.zeroRunLength ≤ 7 ∧ s.zeroRunLength ≤ s.cur ∧
    ∀ j, runStart s ≤ j → j < s.cur → cellsRead s.mem.outSyms j = some 0b000#3

/-- `level` is one of the two values that `level <- 1 - level` moves between (R32, R132, R142). -/
def levelLegal (ic : BitVec 2) (s : State) : Prop := s.level.toInt = icValue ic ∨ s.level.toInt = 1 - icValue ic

/-- MLT-3's (level, growing): a level in {-1, 0, +1}, and (-1, true) is not reached (R32, R168). -/
def mlt3Legal (s : State) : Prop :=
  (s.level = 0b001#3 ∨ s.level = 0b000#3 ∨ s.level = 0b111#3) ∧ ¬(s.level = 0b111#3 ∧ s.growing = true)

/-- The scheme state registers of the command in progress hold legal values (R30 to R33). -/
def registersLegal (i : Instr) (s : State) : Prop :=
  match i with
  | .ami _ => polarityLegal s
  | .b8zs _ => polarityLegal s ∧ pendingRunLegal s
  | .pstern _ => polarityLegal s
  | .dman ic => levelLegal ic s
  | .nrzi ic => levelLegal ic s
  | .mlt3 _ => mlt3Legal s
  | .man _ => True
  | .nrzu _ => True
  | .nrzl _ => True
  | .rz _ => True
  | .twoB1Q _ => True
  | .fourB5B _ => True

/-- A call in progress (R28, R29, R56, R104, R207): `n` is IN_LEN, and unless the word is unknown and not decoded yet, `n`
fits, the cursor is a whole number of groups into the input, `olen` and OUT hold OUT_PER_GROUP symbols for each, and the
registers are legal. -/
def busyLegal (s : State) : Prop :=
  isBusy s = true →
    s.len = s.inLen ∧ ∀ i, decode s.cmd = .ok i →
      s.len ≤ s.params.maxInLen ∧ s.cur ≤ s.len ∧ s.cur % groupSizeOf i = 0 ∧
        s.olen = s.cur / groupSizeOf i * outPerGroupOf i ∧ outFilled s.olen s ∧ registersLegal i s

/-- The whole shape. -/
def Inv (s : State) : Prop :=
  s.mem.wf = true ∧ statusLegal s ∧ outLenLegal s ∧ symbolsLegal s ∧ busyLegal s

/-! ### Runs -/

/-- `k` steps from `s` end in `t`: no fault and no refusal on the way. -/
def runsTo (k : Nat) (s t : State) : Prop := Sys2Proof.Machine.runSteps k s = .next t

end Sys2Proof.Machine
end

