-- ==== Sys2Proof/Certificates/Slice0/Obligations.lean ====
section
/-! DEFINITION. The statements for the provers. -/

open Sys2Proof Sys2Proof.Machine

/-! ### Commands and tables -/

/-- 30_encoding.md: the decoder reads back every well-formed command from the word the encoder writes, and every word it
accepts is that command's word. -/
def Obligations.DecodeAndEncodeAgree : Prop :=
  (∀ i : Instr, i.wellFormed = true → decode (encode i) = .ok i) ∧
    ∀ (w : Command) (i : Instr), decode w = .ok i → i.wellFormed = true ∧ encode i = w

/-- R78: the illegal words are exactly those with RSVD not 0 and those with RSVD = 0 and SCHEME in 12..15, 192 and 16 of
them, and each one, written to CMD while the engine is not BUSY, raises UnknownScheme. -/
def Obligations.IllegalWordsRaiseUnknownScheme : Prop :=
  (∀ w : Command, (∃ e, decode w = .error e) ↔ rsvdField w ≠ 0#2 ∨ 12 ≤ (schemeField w).toNat) ∧
    ((List.range 256).filter fun k => decide (rsvdField (BitVec.ofNat 8 k) ≠ 0#2)).length = 192 ∧
    ((List.range 256).filter fun k =>
      decide (rsvdField (BitVec.ofNat 8 k) = 0#2 ∧ 12 ≤ (schemeField (BitVec.ofNat 8 k)).toNat)).length = 16 ∧
    ∀ (s : State) (w : Command) (rest : List HostOp), s.host = .command w :: rest → isBusy s = false →
      (rsvdField w ≠ 0#2 ∨ 12 ≤ (schemeField w).toNat) → ∃ t, step s = .next t ∧ statusUnknownScheme t

/-- The words of 30_encoding.md's examples, written out bit by bit, one for each file of operations, decode to the
commands they stand for, and 0x4C to none. -/
def Obligations.SampleWordsDecode : Prop :=
  decode 0b00010001#8 = .ok (.b8zs 1) ∧ decode 0b00111010#8 = .ok (.mlt3 3) ∧ decode 0b00001011#8 = .ok (.fourB5B 0) ∧
    decode 0b00010100#8 = .ok (.dman 1) ∧ decode 0b00000110#8 = .ok (.nrzl 0) ∧ decode 0b00101000#8 = .ok (.rz 2) ∧
    decode 0b00001001#8 = .ok (.twoB1Q 0) ∧ decode 0b01001100#8 = .error .reservedBits

/-- R103, with the lookup of R101 over the ROM of R100: the lookup finds exactly the codes 0..11 and answers DESC's entry;
`listSchemes` returns those codes in ascending order, in any engine state, and changes nothing but what the host has got;
and a command word is known exactly when RSVD is 0 and the lookup of its SCHEME succeeds. -/
def Obligations.LookupFindsTheTwelveSchemes : Prop :=
  (∀ c : BitVec 4, (descLookup c).isSome = true ↔ c.toNat ≤ 11) ∧
    (∀ c : BitVec 4, (descLookup c).isSome = true → descLookup c = some (descRom c)) ∧
    schemeCodes.map BitVec.toNat = [0, 1, 2, 3, 4, 5, 6, 7, 8, 9, 10, 11] ∧
    (∀ (s : State) (rest : List HostOp), s.host = .listSchemes :: rest →
      step s = .next { s with host := rest, got := .schemes schemeCodes :: s.got }) ∧
    ∀ w : Command, (∃ i, decode w = .ok i) ↔ rsvdField w = 0#2 ∧ (descLookup (schemeField w)).isSome = true

/-! ### The step and the call -/

/-- A step runs the decoded command: when the host's next statement writes a known word to CMD and the engine is not BUSY,
the step is the command's meaning at the state with the statement taken off the host's queue and CMD holding the word.
`withFetchWord` puts a word there; that the next command comes from a queue in the state is the model's choice (log 8). -/
def Obligations.StepRunsTheDecodedCommand : Prop :=
  (∀ (s : State) (w : Command) (rest : List HostOp) (i : Instr),
    s.host = .command w :: rest → isBusy s = false → decode w = .ok i →
      step s = exec i { s with host := rest, cmd := w }) ∧
    ∀ (s : State) (nbits w : Nat) (i : Instr), isBusy s = false → decodeTableWord nbits w = some i →
      step (s.withFetchWord nbits w) = exec i { s with cmd := encode i }

/-- R201: an unknown word is the one cause of UnknownScheme; it is detected before anything else, whatever IN_LEN, IN and
the index, sets STATUS to ERROR with UNKNOWN_SCHEME and OUT_LEN to 0, keeps the word in CMD and IN_LEN in the sampled length
(R207), and leaves IN, OUT, the cursor, `olen` and every scheme state register as they are. A word written without waiting
enters the call, and waiting for its end then comes to the same; that the entry and the error are two moves there is the
model's choice (log 29). -/
def Obligations.UnknownWordEndsInError : Prop :=
  (∀ w : Command, (∃ e, decode w = .error e) ↔
      rsvdField w ≠ 0#2 ∨ rsvdField w = 0#2 ∧ 12 ≤ (schemeField w).toNat) ∧
    (∀ (s : State) (w : Command) (rest : List HostOp),
      s.host = .command w :: rest → isBusy s = false → (∃ e, decode w = .error e) →
        ∃ t, step s = .next t ∧ statusUnknownScheme t ∧ t.outLen = 0 ∧ t.cmd = w ∧ t.mem = s.mem ∧ t.cur = s.cur ∧
          t.olen = s.olen ∧ t.len = s.inLen ∧ t.inLen = s.inLen ∧ amiRegsKept s t ∧ levelKept s t ∧ growingKept s t ∧
          t.params = s.params ∧ t.host = rest ∧ t.got = s.got ∧ t.resets = s.resets) ∧
    ∀ (s : State) (w : Command) (rest : List HostOp), isBusy s = false → (∃ e, decode w = .error e) →
      step { s with host := .writeCmd w :: rest } =
          .next { s with
            host := rest, cmd := w, status := statusWord stBusy errNone, len := s.inLen, draws := s.draws + 1 } ∧
        runSteps 3 { s with host := .writeCmd w :: .waitEnd :: rest } = step { s with host := .command w :: rest }

/-- R203: under the host's contract every known command's call ends DONE. -/
def Obligations.ContractedCallEndsDone : Prop :=
  ∀ (i : Instr) (s : State), contractMet i s → ∃ t, exec i s = .next t ∧ statusDone t

/-- R105: a known command's call, once it has started, runs exactly `⌊n/g⌋` steps, each on a full group, after which no
full group is left, and then ends in DONE or a refusal. -/
def Obligations.CallRunsOneStepPerGroup : Prop :=
  ∀ (i : Instr) (s u : State), startCall (transformOf i) s = .next u →
    let m := s.inLen / groupSizeOf i
    (∀ k, k < m → groupReady (transformOf i) ((groupStep (transformOf i))^[k] u) = true) ∧
      groupReady (transformOf i) ((groupStep (transformOf i))^[m] u) = false ∧
      exec i s = closeCall (transformOf i) ((groupStep (transformOf i))^[m] u) ∧
      ((∃ t, exec i s = .next t ∧ statusDone t) ∨ ∃ r, exec i s = .refused r)

/-- R106: after a DONE call OUT_LEN is `⌊n/g⌋ * k`, which is R100's column; a substitution leaves `olen` alone; and with
`n = 0` every command whose index has a meaning ends DONE with OUT_LEN = 0. -/
def Obligations.OutputLengthIsTheColumn : Prop :=
  (∀ (i : Instr) (s t : State), exec i s = .next t →
      t.outLen = s.inLen / groupSizeOf i * outPerGroupOf i ∧ t.outLen = outLenColumn i s.inLen) ∧
    (∀ s : State, (substitute s).olen = s.olen) ∧
    ∀ (i : Instr) (s : State), s.inLen = 0 → icAdmitted i s → ∃ t, exec i s = .next t ∧ statusDone t ∧ t.outLen = 0

/-- R107: two calls of the same command on the same input, in any two states of any two instances with the same policy and
capacity, end in the same STATUS and output, or are refused for the same reason. -/
def Obligations.CallIsDeterminedByCommandAndInput : Prop :=
  ∀ (i : Instr) (s u : State), s.params.icOorPolicy = u.params.icOorPolicy →
    s.params.maxInLen = u.params.maxInLen → s.inLen = u.inLen →
    (∀ a, a < s.inLen → memReadIn s a = memReadIn u a) →
      (∃ t v, exec i s = .next t ∧ exec i u = .next v ∧ callResult t = callResult v) ∨
        ∃ r, exec i s = .refused r ∧ exec i u = .refused r

/-- A call started without waiting and then waited for, one group a step, reaches in `⌊n/g⌋ + 3` steps what the waiting
statement reaches in one: the same state, or the same refusal. That the call's end is a step of its own, and so the
number of steps, is the model's choice (log 10). -/
def Obligations.StepwiseCallEqualsWholeCall : Prop :=
  ∀ (s : State) (w : Command) (rest : List HostOp) (i : Instr), isBusy s = false → decode w = .ok i →
    runSteps (s.inLen / groupSizeOf i + 3) { s with host := .writeCmd w :: .waitEnd :: rest } =
      step { s with host := .command w :: rest }

/-- Every step of every scheme appends OUT_PER_GROUP symbols and moves the cursor by GROUP_SIZE. -/
def Obligations.EveryGroupAppendsItsSymbols : Prop :=
  ∀ (i : Instr) (s : State),
    (groupStep (transformOf i) s).olen = s.olen + (descRom i.scheme).outPerGroup.toNat ∧
      (groupStep (transformOf i) s).cur = s.cur + (descRom i.scheme).groupSize.toNat

/-! ### What each command's call does -/

/-- ENC.AMI: alternating marks for 1 bits, the first one opposite to the starting polarity. -/
def Obligations.AmiCallEmitsAlternatingMarks : Prop :=
  ∀ (ic : BitVec 2) (s : State), inputFits s →
    ∃ t, exec (.ami ic) s = .next t ∧
      callDone 1 s.inLen (amiLevels false (icPolarity ic) (inputBits s s.inLen)) t ∧
      callFrame s t ∧ levelKept s t ∧ growingKept s t

/-- ENC.B8ZS: AMI in which every eight zeros in a row become the pattern, which the engine writes back over zeros it has
already emitted. -/
def Obligations.B8zsCallSubstitutesEightZeros : Prop :=
  ∀ (ic : BitVec 2) (s : State), inputFits s →
    ∃ t, exec (.b8zs ic) s = .next t ∧
      callDone 1 s.inLen (b8zsLevels (icPolarity ic) (inputBits s s.inLen)) t ∧
      callFrame s t ∧ levelKept s t ∧ growingKept s t

/-- ENC.PSTERN: AMI with the bits' roles exchanged. -/
def Obligations.PsternCallEmitsMarksForZeros : Prop :=
  ∀ (ic : BitVec 2) (s : State), inputFits s →
    ∃ t, exec (.pstern ic) s = .next t ∧
      callDone 1 s.inLen (amiLevels true (icPolarity ic) (inputBits s s.inLen)) t ∧
      callFrame s t ∧ levelKept s t ∧ growingKept s t

/-- ENC.MAN: the two half-bits of every bit; no scheme register is touched. -/
def Obligations.ManCallEmitsHalfBits : Prop :=
  ∀ (ic : BitVec 2) (s : State), inputFits s →
    ∃ t, exec (.man ic) s = .next t ∧ callDone 1 s.inLen (manLevels (inputBits s s.inLen)) t ∧
      callFrame s t ∧ amiRegsKept s t ∧ levelKept s t ∧ growingKept s t

/-- ENC.DMAN, on the indices that have a meaning under the policy. -/
def Obligations.DmanCallEmitsLevelAndItsInverse : Prop :=
  ∀ (ic : BitVec 2) (s : State), inputFits s → icAdmitted (.dman ic) s →
    ∃ t, exec (.dman ic) s = .next t ∧ callDone 1 s.inLen (dmanLevels (icValue ic) (inputBits s s.inLen)) t ∧
      callFrame s t ∧ amiRegsKept s t ∧ growingKept s t

/-- ENC.NRZU: the bits themselves. -/
def Obligations.NrzuCallCopiesTheInput : Prop :=
  ∀ (ic : BitVec 2) (s : State), inputFits s →
    ∃ t, exec (.nrzu ic) s = .next t ∧ callDone 1 s.inLen (nrzuLevels (inputBits s s.inLen)) t ∧
      callFrame s t ∧ amiRegsKept s t ∧ levelKept s t ∧ growingKept s t

/-- ENC.NRZL: -1 for a 1 bit and +1 for a 0 bit. -/
def Obligations.NrzlCallEmitsPolarLevels : Prop :=
  ∀ (ic : BitVec 2) (s : State), inputFits s →
    ∃ t, exec (.nrzl ic) s = .next t ∧ callDone 1 s.inLen (nrzlLevels (inputBits s s.inLen)) t ∧
      callFrame s t ∧ amiRegsKept s t ∧ levelKept s t ∧ growingKept s t

/-- ENC.NRZI, on the indices that have a meaning under the policy. -/
def Obligations.NrziCallInvertsOnZeros : Prop :=
  ∀ (ic : BitVec 2) (s : State), inputFits s → icAdmitted (.nrzi ic) s →
    ∃ t, exec (.nrzi ic) s = .next t ∧ callDone 1 s.inLen (nrziLevels (icValue ic) (inputBits s s.inLen)) t ∧
      callFrame s t ∧ amiRegsKept s t ∧ growingKept s t

/-- ENC.RZ: a pulse and a zero for every bit. -/
def Obligations.RzCallEmitsPulses : Prop :=
  ∀ (ic : BitVec 2) (s : State), inputFits s →
    ∃ t, exec (.rz ic) s = .next t ∧ callDone 1 s.inLen (rzLevels (inputBits s s.inLen)) t ∧
      callFrame s t ∧ amiRegsKept s t ∧ levelKept s t ∧ growingKept s t

/-- ENC.2B1Q: one symbol a pair, a trailing bit dropped. -/
def Obligations.TwoB1QCallEmitsOneSymbolPerPair : Prop :=
  ∀ (ic : BitVec 2) (s : State), inputFits s →
    ∃ t, exec (.twoB1Q ic) s = .next t ∧ callDone 2 s.inLen (twoB1QLevels (inputBits s s.inLen)) t ∧
      callFrame s t ∧ amiRegsKept s t ∧ levelKept s t ∧ growingKept s t

/-- ENC.MLT3: the level and the direction of travel from the index, then one level a bit. -/
def Obligations.Mlt3CallWalksTheLevels : Prop :=
  ∀ (ic : BitVec 2) (s : State), inputFits s →
    ∃ t, exec (.mlt3 ic) s = .next t ∧
      callDone 1 s.inLen (mlt3Levels (icMlt3Level ic) (icMlt3Growing ic) (inputBits s s.inLen)) t ∧
      callFrame s t ∧ amiRegsKept s t

/-- ENC.4B5B on whole groups: the codeword of every group. -/
def Obligations.FourB5BCallEmitsCodewords : Prop :=
  ∀ (ic : BitVec 2) (s : State), inputFits s → s.inLen % 4 = 0 →
    ∃ t, exec (.fourB5B ic) s = .next t ∧ callDone 4 s.inLen (fourB5BLevels (inputBits s s.inLen)) t ∧
      callFrame s t ∧ amiRegsKept s t ∧ levelKept s t ∧ growingKept s t

/-! ### Where a call has no meaning -/

/-- R202: with group size 1 there is never a partial group; 2B1Q drops the trailing bit and ends DONE; 4B5B is refused. -/
def Obligations.PartialGroupDroppedOrRefused : Prop :=
  (∀ (i : Instr) (n : Nat), groupSizeOf i = 1 → n % groupSizeOf i = 0) ∧
    (∀ (ic : BitVec 2) (s : State), inputFits s → s.inLen % groupSizeOf (.twoB1Q ic) ≠ 0 →
      ∃ t, exec (.twoB1Q ic) s = .next t ∧ statusDone t ∧ t.cur + 1 = s.inLen ∧
        outLevels t = twoB1QLevels (inputBits s (s.inLen - 1))) ∧
    ∀ (ic : BitVec 2) (s : State), inputFits s → s.inLen % groupSizeOf (.fourB5B ic) ≠ 0 →
      exec (.fourB5B ic) s = .refused .invalidInputLength

/-- R204: ENC.DMAN and ENC.NRZI with an index of 2 or 3 are refused under `refuse`, before the first step whatever the
input; under `literal` the call runs the scheme's rule as written with `level = ic` and ends DONE, with no error code. -/
def Obligations.IndexOutOfDomainFollowsThePolicy : Prop :=
  ∀ (ic : BitVec 2) (s : State), 2 ≤ ic.toNat →
    (s.params.icOorPolicy = .refuse →
      exec (.dman ic) s = .refused .icOutOfDomain ∧ exec (.nrzi ic) s = .refused .icOutOfDomain) ∧
    (s.params.icOorPolicy = .literal → inputFits s →
      (∃ t, exec (.dman ic) s = .next t ∧ statusDone t ∧ errField t.status = errNone ∧
        outLevels t = dmanLevels ic.toNat (inputBits s s.inLen)) ∧
      ∃ t, exec (.nrzi ic) s = .next t ∧ statusDone t ∧ errField t.status = errNone ∧
        outLevels t = nrziLevels ic.toNat (inputBits s s.inLen))

/-- An input longer than MAX_IN_LEN gives a known command's call no meaning. Which refusal is named when the index is out of
its domain too is the model's choice (log 19), so that case is left out. -/
def Obligations.TooLongInputIsRefused : Prop :=
  ∀ (i : Instr) (s : State), icAdmitted i s → s.params.maxInLen < s.inLen → exec i s = .refused .inputTooLong

/-! ### Properties of the output -/

/-- R131, the four properties of Manchester's output. -/
def Obligations.ManchesterOutputProperties : Prop :=
  ∀ (ic : BitVec 2) (s t : State), exec (.man ic) s = .next t →
    t.outLen = 2 * s.inLen ∧
      (∀ j, j < t.outLen → outLevel t j = 0 ∨ outLevel t j = 1) ∧
      ∀ i, i < s.inLen →
        outLevel t (2 * i) ≠ outLevel t (2 * i + 1) ∧
          (memReadIn s i = true → outLevel t (2 * i) = 0 ∧ outLevel t (2 * i + 1) = 1) ∧
          (memReadIn s i = false → outLevel t (2 * i) = 1 ∧ outLevel t (2 * i + 1) = 0) ∧
          outLevel t (2 * i + 1) = bitToInt (memReadIn s i)

/-- R133, the three properties of Differential Manchester's output, for an index of 0 or 1. -/
def Obligations.DifferentialManchesterTransitions : Prop :=
  ∀ (ic : BitVec 2) (s t : State), ic.toNat ≤ 1 → exec (.dman ic) s = .next t →
    (∀ j, j < t.outLen → outLevel t j = 0 ∨ outLevel t j = 1) ∧
      (∀ i, i < s.inLen → outLevel t (2 * i) ≠ outLevel t (2 * i + 1)) ∧
      (∀ i, 1 ≤ i → i < s.inLen → (outLevel t (2 * i) = outLevel t (2 * i - 2) ↔ memReadIn s i = true)) ∧
      (0 < s.inLen → (outLevel t 0 = ic.toNat ↔ memReadIn s 0 = true)) ∧
      ∀ i, 1 ≤ i → i < s.inLen → (outLevel t (2 * i) ≠ outLevel t (2 * i - 1) ↔ memReadIn s i = true)

/-- R143, the properties of the three NRZ schemes' output. -/
def Obligations.NrzOutputProperties : Prop :=
  (∀ (ic : BitVec 2) (s t : State), exec (.nrzu ic) s = .next t →
      t.outLen = s.inLen ∧ ∀ i, i < s.inLen → outLevel t i = bitToInt (memReadIn s i)) ∧
    (∀ (ic : BitVec 2) (s t : State), exec (.nrzl ic) s = .next t →
      t.outLen = s.inLen ∧ ∀ i, i < s.inLen → outLevel t i = 1 - 2 * bitToInt (memReadIn s i)) ∧
    ∀ (ic : BitVec 2) (s t : State), exec (.nrzi ic) s = .next t →
      t.outLen = s.inLen ∧
        (∀ i, 1 ≤ i → i < s.inLen → (outLevel t i ≠ outLevel t (i - 1) ↔ memReadIn s i = false)) ∧
        (0 < s.inLen → (outLevel t 0 ≠ ic.toNat ↔ memReadIn s 0 = false))

/-- R151, the properties of RZ's output: the pulse is in the first half-bit alone. -/
def Obligations.RzOutputProperties : Prop :=
  ∀ (ic : BitVec 2) (s t : State), exec (.rz ic) s = .next t →
    t.outLen = 2 * s.inLen ∧
      (∀ j, j < t.outLen → outLevel t j = -1 ∨ outLevel t j = 0 ∨ outLevel t j = 1) ∧
      ∀ i, i < s.inLen → outLevel t (2 * i) = 2 * bitToInt (memReadIn s i) - 1 ∧ outLevel t (2 * i) ≠ 0 ∧
        outLevel t (2 * i + 1) = 0

/-- R157, the properties of 2B1Q's output: four levels, one for each pair, with the sign from the first bit and the
magnitude from the second. -/
def Obligations.TwoB1QOutputProperties : Prop :=
  (∀ (ic : BitVec 2) (s t : State), exec (.twoB1Q ic) s = .next t →
      t.outLen = s.inLen / 2 ∧ ∀ i, i < s.inLen / 2 →
        (outLevel t i = -3 ∨ outLevel t i = -1 ∨ outLevel t i = 1 ∨ outLevel t i = 3) ∧
          outLevel t i = pairLevel (memReadIn s (2 * i)) (memReadIn s (2 * i + 1)) ∧
          (0 < outLevel t i ↔ memReadIn s (2 * i) = true) ∧
          (|outLevel t i| = 1 ↔ memReadIn s (2 * i + 1) = true) ∧
          (|outLevel t i| = 3 ↔ memReadIn s (2 * i + 1) = false)) ∧
    (∀ a b c d : Bit, pairLevel a b = pairLevel c d → a = c ∧ b = d) ∧
    ∀ v : Int, v = -3 ∨ v = -1 ∨ v = 1 ∨ v = 3 → ∃ a b : Bit, pairLevel a b = v

/-- MLT-3's step on a 1 bit, row by row of its transition table, and on a 0 bit: the next level and direction, and the level
emitted. -/
def Obligations.Mlt3StepFollowsItsTable : Prop :=
  ∀ s : State,
    (groupBit 0 s = true →
      (s.level.toInt = 1 → s.growing = true → mlt3Row s 0 false) ∧
      (s.level.toInt = 1 → s.growing = false → mlt3Row s 0 false) ∧
      (s.level.toInt = 0 → s.growing = true → mlt3Row s 1 true) ∧
      (s.level.toInt = 0 → s.growing = false → mlt3Row s (-1) false) ∧
      (s.level.toInt = -1 → s.growing = true → mlt3Row s 0 true) ∧
      (s.level.toInt = -1 → s.growing = false → mlt3Row s 0 true)) ∧
    (groupBit 0 s = false → mlt3Row s s.level.toInt s.growing)

/-- R169, the properties of MLT-3: three levels; a 1 bit changes the level and a 0 bit repeats it, the starting level
included; at a level of +1 or -1 the direction has no effect on any later output, since the next 1 bit leads to 0 with the
direction away from the level left; and the output on `1111` for each index. -/
def Obligations.Mlt3OutputProperties : Prop :=
  (∀ (ic : BitVec 2) (s t : State), exec (.mlt3 ic) s = .next t →
      t.outLen = s.inLen ∧
      (∀ i, i < s.inLen → outLevel t i = -1 ∨ outLevel t i = 0 ∨ outLevel t i = 1) ∧
      (∀ i, 1 ≤ i → i < s.inLen → (outLevel t i ≠ outLevel t (i - 1) ↔ memReadIn s i = true)) ∧
      (0 < s.inLen → (outLevel t 0 ≠ icMlt3Level ic ↔ memReadIn s 0 = true)) ∧
      (s.inLen = 4 → (∀ i, i < 4 → memReadIn s i = true) →
        outLevels t = [[0, -1, 0, 1], [1, 0, -1, 0], [-1, 0, 1, 0], [0, 1, 0, -1]].getD ic.toNat [])) ∧
    (∀ (ic : BitVec 2) (s : State) (k : Nat), s.level.toInt = 1 ∨ s.level.toInt = -1 →
      (groupLoop (mlt3Transform ic) k { s with growing := true }).mem =
        (groupLoop (mlt3Transform ic) k { s with growing := false }).mem) ∧
    ∀ s : State, groupBit 0 s = true →
      (s.level.toInt = 1 → (mlt3Step s).level.toInt = 0 ∧ (mlt3Step s).growing = false) ∧
      (s.level.toInt = -1 → (mlt3Step s).level.toInt = 0 ∧ (mlt3Step s).growing = true)

/-- R182, the properties of 4B5B: binary symbols, at least two 1 symbols a codeword and exactly two in four of them, no
codeword that begins with two 0 symbols or ends with more than two, and never more than three 0 symbols in a row. -/
def Obligations.FourB5BOutputProperties : Prop :=
  (∀ (ic : BitVec 2) (s t : State), exec (.fourB5B ic) s = .next t →
      (∀ j, j < t.outLen → outLevel t j = 0 ∨ outLevel t j = 1) ∧
        ∀ j, j + 4 ≤ t.outLen → ∃ k, k < 4 ∧ outLevel t (j + k) = 1) ∧
    (∀ g : BitVec 4, 2 ≤ ((codewordLevels (t4b5b g)).filter (· = 1)).length ∧
      (((codewordLevels (t4b5b g)).filter (· = 1)).length = 2 ↔
        g = 0b0001#4 ∨ g = 0b0010#4 ∨ g = 0b0100#4 ∨ g = 0b1000#4)) ∧
    t4b5b 0b0001#4 = 0b01001#5 ∧ t4b5b 0b0010#4 = 0b10100#5 ∧ t4b5b 0b0100#4 = 0b01010#5 ∧
    t4b5b 0b1000#4 = 0b10010#5 ∧
    (∀ g : BitVec 4, (codewordLevels (t4b5b g)).take 2 ≠ [0, 0]) ∧
    ∀ g : BitVec 4, (codewordLevels (t4b5b g)).drop 2 ≠ [0, 0, 0]

/-- The 4B5B code is injective: two calls that emit the same symbols had the same input. -/
def Obligations.FourB5BIsInjective : Prop :=
  ∀ (ic ic' : BitVec 2) (s s' t t' : State), exec (.fourB5B ic) s = .next t → exec (.fourB5B ic') s' = .next t' →
    outLevels t = outLevels t' → inputBits s s.inLen = inputBits s' s'.inLen

/-- AMI's and Pseudoternary's output: one symbol a bit, in three levels, and each nonzero symbol is the negation of the
nonzero one before it, the first the negation of the starting polarity. -/
def Obligations.AmiAndPsternMarksAlternate : Prop :=
  ∀ (ic : BitVec 2) (s t : State), exec (.ami ic) s = .next t ∨ exec (.pstern ic) s = .next t →
    t.outLen = s.inLen ∧ (∀ v ∈ outLevels t, v = -1 ∨ v = 0 ∨ v = 1) ∧
      (∀ a b : Int, ∀ l r : List Int, (outLevels t).filter (· ≠ 0) = l ++ a :: b :: r → b = -a) ∧
      ∀ a : Int, ((outLevels t).filter (· ≠ 0)).head? = some a → a = -icPolarity ic

/-- Pseudoternary of a sequence is AMI of its bitwise complement, with the same index. -/
def Obligations.PsternIsAmiOfTheComplement : Prop :=
  ∀ (ic : BitVec 2) (s u t v : State), s.inLen = u.inLen → (∀ a, a < s.inLen → memReadIn s a = !memReadIn u a) →
    exec (.pstern ic) s = .next t → exec (.ami ic) u = .next v → outLevels t = outLevels v

/-- B8ZS emits one symbol a bit, in three levels, and never leaves eight zeros in a row. -/
def Obligations.B8zsNeverLeavesEightZeros : Prop :=
  ∀ (ic : BitVec 2) (s t : State), exec (.b8zs ic) s = .next t →
    t.outLen = s.inLen ∧ (∀ v ∈ outLevels t, v = -1 ∨ v = 0 ∨ v = 1) ∧
      ∀ j, j + 8 ≤ t.outLen → ∃ k, k < 8 ∧ outLevel t (j + k) ≠ 0

/-- The substitution writes the polarity at offsets -5 and -1 and its negation at -4 and -2, leaves every other element of
OUT, `lastLevel` and `olen` alone, and ends the run. -/
def Obligations.SubstitutionWritesFourSymbols : Prop :=
  ∀ s : State, 8 ≤ s.olen → s.lastLevel.toInt = 1 ∨ s.lastLevel.toInt = -1 →
    outLevel (substitute s) (s.olen - 5) = s.lastLevel.toInt ∧ outLevel (substitute s) (s.olen - 4) = -s.lastLevel.toInt ∧
      outLevel (substitute s) (s.olen - 2) = -s.lastLevel.toInt ∧ outLevel (substitute s) (s.olen - 1) = s.lastLevel.toInt ∧
      (∀ j, j ≠ s.olen - 5 → j ≠ s.olen - 4 → j ≠ s.olen - 2 → j ≠ s.olen - 1 →
        memReadOut (substitute s) j = memReadOut s j) ∧
      (substitute s).lastLevel = s.lastLevel ∧ (substitute s).olen = s.olen ∧ (substitute s).zeroRunLength = 0

/-! ### Streaming -/

/-- A symbol that is final while a call runs is never written again: the next step of the engine, if the call goes on or
ends, leaves it as it is and final. (A call that will be refused has no final symbol, log 34.) -/
def Obligations.FinalSymbolsStayFixed : Prop :=
  ∀ (s t : State) (p : Nat), Inv s → isBusy s = true → s.host = [] → isFinal s p = true → step s = .next t →
    isFinal t p = true ∧ outLevel t p = outLevel s p

/-- A symbol of a B8ZS call that is not final reads 0, and if the run reaches eight zeros it becomes +1 or -1: finality is
not given too late. -/
def Obligations.PendingSymbolsCanStillChange : Prop :=
  ∀ (s : State) (ic : BitVec 2) (p : Nat), Inv s → isBusy s = true → s.host = [] → decode s.cmd = .ok (.b8zs ic) →
    p < s.olen → isFinal s p = false →
      outLevel s p = 0 ∧
        (s.cur + (8 - s.zeroRunLength) ≤ s.len →
          (∀ k, k < 8 - s.zeroRunLength → memReadIn s (s.cur + k) = false) →
            ∃ t, runSteps (8 - s.zeroRunLength) s = .next t ∧ (outLevel t p = 1 ∨ outLevel t p = -1) ∧
              isFinal t p = true)

/-- What a host that does not track the run may rely on: a symbol that is not 0, or whose bit lies five or more behind the
cursor, is final. (A call that will be refused has no symbol to rely on, log 34.) -/
def Obligations.NonzeroOrFiveBehindIsFinal : Prop :=
  ∀ (s : State) (p : Nat), Inv s → isBusy s = true → p < readableSoFar s → (outLevel s p ≠ 0 ∨ p + 5 ≤ s.cur) →
    isFinal s p = true

/-! ### The host -/

/-- R227: a host write of CMD, IN_LEN or IN while the engine is BUSY has no move. -/
def Obligations.WriteWhileBusyHasNoMove : Prop :=
  ∀ (s : State) (op : HostOp) (rest : List HostOp), isBusy s = true → s.host = op :: rest →
    ((∃ bits, op = .writeIn bits) ∨ (∃ i b, op = .writeInBit i b) ∨ (∃ n, op = .writeInLen n) ∨
      (∃ w, op = .writeCmd w) ∨ (∃ w, op = .command w) ∨ ∃ i, op = .pad i) →
      step s = .fault .hostWriteWhileBusy

/-- While not BUSY the engine is idle: its own move changes nothing. -/
def Obligations.IdleEngineKeepsEverything : Prop :=
  ∀ s : State, isBusy s = false → s.host = [] → step s = .next s

/-- While not BUSY, a step that is no write of CMD and no reset keeps CMD, STATUS, OUT_LEN, every symbol that OUT reads as
and the engine's internal registers, so DONE and ERROR last until the next CMD write. IN and IN_LEN are the host's to
write. -/
def Obligations.OnlyACommandMakesTheEngineAct : Prop :=
  ∀ s t : State, isBusy s = false → (∀ rest, s.host ≠ .reset :: rest) → (∀ w rest, s.host ≠ .command w :: rest) →
    (∀ w rest, s.host ≠ .writeCmd w :: rest) → step s = .next t →
      t.cmd = s.cmd ∧ t.status = s.status ∧ t.outLen = s.outLen ∧ t.mem.outSyms = s.mem.outSyms ∧
        (∀ j, settledSym j t = settledSym j s) ∧ outLevels t = outLevels s ∧ t.cur = s.cur ∧ t.olen = s.olen ∧
        t.len = s.len ∧ amiRegsKept s t ∧ levelKept s t ∧ growingKept s t

/-- A read returns the value held and changes nothing but what the host has got: CMD, IN_LEN and IN at any time, STATUS
unless the call in progress will be refused (log 34), and OUT_LEN and OUT while not BUSY. What OUT holds at or above OUT_LEN
is open, and the same at every such read. Writes to STATUS are ignored. That reads of CMD, IN_LEN, STATUS and IN return the
value held while BUSY too is the model's inference (log 33), and so is that a write to OUT_LEN is ignored (log 18). -/
def Obligations.SettledReadsReturnAndChangeNothing : Prop :=
  ∀ (s : State) (rest : List HostOp) (op : HostOp), s.host = op :: rest →
    (op = .readCmd → step s = .next { s with host := rest, got := .cmd s.cmd :: s.got }) ∧
      (op = .readInLen → step s = .next { s with host := rest, got := .inLen s.inLen :: s.got }) ∧
      (op = .readStatus → willBeRefused s = false →
        step s = .next { s with host := rest, got := .status s.status :: s.got }) ∧
      (∀ i, op = .readIn i → i < s.params.maxInLen →
        step s = .next { s with host := rest, got := .inBit i (memReadIn s i) :: s.got }) ∧
      (isBusy s = false → op = .readOutLen →
        step s = .next { s with host := rest, got := .outLen s.outLen :: s.got }) ∧
      (∀ j, isBusy s = false → op = .readOut j → j < 2 * s.params.maxInLen →
        (j < s.outLen → step s = .next { s with host := rest, got := .sym j (memReadOut s j) :: s.got }) ∧
          (s.outLen ≤ j →
            step s = .next
              { s with host := rest, got := .sym j (Config.freeOut s.params.engineIndex s.draws j) :: s.got })) ∧
      (∀ v, op = .writeStatus v → step s = .next { s with host := rest }) ∧
      ∀ n, op = .writeOutLen n → step s = .next { s with host := rest }

/-- R102: describe returns the ROM's entry in any engine state and changes nothing but what the host has got: no STATUS
change. The entries of the codes 0..11 are the columns of R100, and the others have VALID = 0 and the rest 0. -/
def Obligations.DescribeReturnsTheRomEntry : Prop :=
  (∀ (s : State) (c : BitVec 4) (rest : List HostOp), s.host = .describe c :: rest →
      step s = .next { s with host := rest, got := .desc c (descRom c) :: s.got }) ∧
    (∀ i : Instr, (descRom i.scheme).valid = true) ∧
    ((List.range 12).map fun k => (descRom (BitVec.ofNat 4 k)).groupSize.toNat) = [1, 1, 1, 1, 1, 1, 1, 1, 1, 2, 1, 4] ∧
    ((List.range 12).map fun k => (descRom (BitVec.ofNat 4 k)).optionCount.toNat) = [2, 2, 2, 0, 2, 0, 0, 2, 0, 0, 4, 0] ∧
    ((List.range 12).map fun k => (descRom (BitVec.ofNat 4 k)).outPerGroup.toNat) = [1, 1, 1, 2, 2, 1, 1, 1, 2, 1, 1, 5] ∧
    ∀ c : BitVec 4, 12 ≤ c.toNat → descRom c = ⟨false, 0, 0, 0⟩

/-- What the host writes into IN is what is read there: the statement `IN <bits>` sets IN_LEN to the number of bits and
IN[0..n-1] to them, and leaves the rest of IN, OUT and every register alone. -/
def Obligations.WrittenInputIsRead : Prop :=
  ∀ (s : State) (bits : List Bit) (rest : List HostOp), isBusy s = false →
    s.host = .writeIn bits :: rest → bits.length ≤ s.params.maxInLen →
      ∃ t, step s = .next t ∧ t.inLen = bits.length ∧ inputBits t t.inLen = bits ∧
        (∀ a, bits.length ≤ a → memReadIn t a = memReadIn s a) ∧
        t = { s with host := rest, inLen := t.inLen, mem := { s.mem with inBits := t.mem.inBits } }

/-- A host write of one IN element or of IN_LEN stores the value and does nothing else. -/
def Obligations.SingleWritesStoreOneThing : Prop :=
  (∀ (s : State) (i : Nat) (b : Bit) (rest : List HostOp), isBusy s = false →
      s.host = .writeInBit i b :: rest → i < s.params.maxInLen →
        ∃ t, step s = .next t ∧ memReadIn t i = b ∧ (∀ a, a ≠ i → memReadIn t a = memReadIn s a) ∧
          t = { s with host := rest, mem := { s.mem with inBits := t.mem.inBits } }) ∧
    ∀ (s : State) (n : Nat) (rest : List HostOp), isBusy s = false → s.host = .writeInLen n :: rest →
      n ≤ s.params.maxInLen → step s = .next { s with host := rest, inLen := n }

/-- ENCP's pad makes the length a multiple of the group size with fewer than a group of leading zero bits, and leaves OUT
and every other register alone; the command that follows then never leaves a partial group. -/
def Obligations.PadMakesWholeGroups : Prop :=
  ∀ (s : State) (i : Instr) (rest : List HostOp), isBusy s = false → s.host = .pad i :: rest →
    (paddedInput (groupSizeOf i) (inputBits s s.inLen)).length ≤ s.params.maxInLen →
      ∃ t p, step s = .next t ∧ p < groupSizeOf i ∧ t.inLen = s.inLen + p ∧ t.inLen % groupSizeOf i = 0 ∧
        inputBits t t.inLen = List.replicate p false ++ inputBits s s.inLen ∧
        t = { s with host := rest, inLen := t.inLen, mem := { s.mem with inBits := t.mem.inBits } }

/-- While BUSY without STREAM_OUT a read of OUT or OUT_LEN is one draw: it returns this instance's free value at this draw,
and changes nothing but the draw and what the host has got. While BUSY under STREAM_OUT a read of OUT below what the call has
emitted returns that symbol, and changes nothing else. In a 4B5B call on a partial group, which will be refused and gives no
OUT value, every read of OUT and of STATUS is a draw, whatever STREAM_OUT is. That OUT_LEN, and OUT at or above what has
been emitted, are draws under STREAM_OUT as well is the model's choice (log 27), and so is the form of the free value
(log 5); that the reads in a call that will be refused are draws, not stops, is the model's inference (log 34). -/
def Obligations.OpenReadsAreDraws : Prop :=
  ∀ (s : State) (rest : List HostOp), isBusy s = true →
    let k := s.params.engineIndex
    let partial4 := ∃ ic, decode s.cmd = .ok (.fourB5B ic) ∧ s.len % 4 ≠ 0
    (s.host = .readOutLen :: rest →
      step s = .next
        { s with host := rest, got := .outLen (Config.freeOutLen k s.draws) :: s.got, draws := s.draws + 1 }) ∧
    (s.host = .readStatus :: rest → partial4 →
      step s = .next
        { s with host := rest, got := .status (Config.freeStatus k s.draws) :: s.got, draws := s.draws + 1 }) ∧
    ∀ j, s.host = .readOut j :: rest → j < 2 * s.params.maxInLen →
      (s.params.streamOut = false ∨ (∃ e, decode s.cmd = .error e) ∨ partial4 ∨ s.olen ≤ j →
        step s = .next
          { s with host := rest, got := .sym j (Config.freeOut k s.draws j) :: s.got, draws := s.draws + 1 }) ∧
      (s.params.streamOut = true → (∃ i, decode s.cmd = .ok i) → ¬partial4 → j < s.olen →
        step s = .next { s with host := rest, got := .sym j (memReadOut s j) :: s.got })

/-! ### Reset and invariants -/

/-- R220: power-on reset puts every instance of a platform, of which there is at least one, into IDLE with no error, CMD,
IN_LEN and OUT_LEN 0, from the start, with the parameters given for it, and when the platform runs; the ROMs are constant. -/
def Obligations.ResetLeavesEveryInstanceIdle : Prop :=
  (∀ (n : Config.NEngines) (p : Nat → Config.Params), (Platform.reset n p).nEngines = n ∧
      ∀ (k : Nat) (s : State), (Platform.reset n p).engines[k]? = some s →
        { s.params with engineIndex := (p k).engineIndex } = p k ∧ stateField s.status = stIdle ∧
          errField s.status = errNone ∧ s.cmd = 0 ∧ s.inLen = 0 ∧ s.outLen = 0) ∧
    (∀ pl : Platform, (platformPowerOnReset pl).nEngines = pl.nEngines ∧
      ∀ s ∈ (platformPowerOnReset pl).engines,
        stateField s.status = stIdle ∧ errField s.status = errNone ∧ s.cmd = 0 ∧ s.inLen = 0 ∧ s.outLen = 0) ∧
    stateField State.reset.status = stIdle ∧ errField State.reset.status = errNone ∧ State.reset.cmd = 0 ∧
    State.reset.inLen = 0 ∧ State.reset.outLen = 0

/-- R221: a reset of an instance while BUSY abandons the call: neither DONE nor ERROR is reported, OUT holds nothing that
was written, and the registers are those of power-on reset. So it is in any other state. What IN and OUT read as from then
on is open. -/
def Obligations.ResetAbandonsTheCall : Prop :=
  ∀ (s : State) (rest : List HostOp), s.host = .reset :: rest →
    ∃ t, step s = .next t ∧ stateField t.status = stIdle ∧ errField t.status = errNone ∧ t.cmd = 0 ∧ t.inLen = 0 ∧
      t.outLen = 0 ∧ (∀ j, cellsRead t.mem.outSyms j = none) ∧ (∀ a, cellsRead t.mem.inBits a = none) ∧
      t.params = s.params

/-- The state after reset has the whole shape, whatever the parameters. -/
def Obligations.ResetHasTheShape : Prop :=
  (∀ p : Config.Params, Inv (State.resetWith p)) ∧ Inv State.reset

/-- Every step, of the host or the engine, from any state of that shape leads to one: memory is canonical; the error code
goes with ERROR; OUT_LEN counts OUT; no symbol is -4; and a call in progress has sampled IN_LEN, and once its word is
decoded it has its cursor inside the input on a group boundary, OUT_PER_GROUP symbols out for each group, and legal
registers. -/
def Obligations.StepKeepsTheShape : Prop := ∀ s t : State, Inv s → step s = .next t → Inv t

/-- Every step keeps IN and OUT in canonical form, from any state in which they are. -/
def Obligations.StepKeepsMemoryCanonical : Prop :=
  ∀ s t : State, s.mem.wf = true → step s = .next t → t.mem.wf = true

/-- Every step keeps STATUS legal: ERR_CODE is 0 unless STATE is ERROR, and 2 and 3 are never produced. -/
def Obligations.StepKeepsStatusLegal : Prop :=
  ∀ s t : State, statusLegal s → step s = .next t →
    statusLegal t ∧ errField t.status ≠ 2 ∧ errField t.status ≠ 3

/-- No step changes a parameter of the machine, and none but a statement to that effect changes IN or IN_LEN. -/
def Obligations.ParametersAndInputAreKept : Prop :=
  ∀ s t : State, step s = .next t →
    t.params = s.params ∧
      ((∀ rest, s.host ≠ .reset :: rest) → (∀ bits rest, s.host ≠ .writeIn bits :: rest) →
        (∀ i b rest, s.host ≠ .writeInBit i b :: rest) → (∀ n rest, s.host ≠ .writeInLen n :: rest) →
        (∀ i rest, s.host ≠ .pad i :: rest) → t.inLen = s.inLen ∧ ∀ a, memReadIn t a = memReadIn s a)

/-- R67: a step of one instance of a platform changes no other, and what it does depends on no other. That this holds of a
reset the host sends to one instance is the model's choice (log 35), and that the open values are the same in the two
platforms is as well (log 7). -/
def Obligations.InstancesAreIndependent : Prop :=
  (∀ (k : Nat) (pl pl' : Platform), platformStep k pl = some (.next pl') →
      pl'.engines.length = pl.engines.length ∧ ∀ j, j ≠ k → pl'.engines[j]? = pl.engines[j]?) ∧
    ∀ (k : Nat) (pl ql pl' : Platform), pl.engines[k]? = ql.engines[k]? → platformStep k pl = some (.next pl') →
      ∃ ql', platformStep k ql = some (.next ql') ∧ ql'.engines[k]? = pl'.engines[k]?
end

