-- ==== Sys2Proof/Laws/State.lean ====
section
/-! SUPPORT. One lemma per field per update of the state: what the field reads after the update. -/

namespace Sys2Proof.Machine

@[simp] theorem setStatus_params (a e : BitVec 2) (s : State) : (setStatus a e s).params = s.params := rfl
@[simp] theorem setStatus_cmd (a e : BitVec 2) (s : State) : (setStatus a e s).cmd = s.cmd := rfl
@[simp] theorem setStatus_inLen (a e : BitVec 2) (s : State) : (setStatus a e s).inLen = s.inLen := rfl
@[simp] theorem setStatus_status (a e : BitVec 2) (s : State) : (setStatus a e s).status = statusWord a e := rfl
@[simp] theorem setStatus_outLen (a e : BitVec 2) (s : State) : (setStatus a e s).outLen = s.outLen := rfl
@[simp] theorem setStatus_cur (a e : BitVec 2) (s : State) : (setStatus a e s).cur = s.cur := rfl
@[simp] theorem setStatus_olen (a e : BitVec 2) (s : State) : (setStatus a e s).olen = s.olen := rfl
@[simp] theorem setStatus_len (a e : BitVec 2) (s : State) : (setStatus a e s).len = s.len := rfl
@[simp] theorem setStatus_lastLevel (a e : BitVec 2) (s : State) : (setStatus a e s).lastLevel = s.lastLevel := rfl
@[simp] theorem setStatus_zeroRunLength (a e : BitVec 2) (s : State) : (setStatus a e s).zeroRunLength = s.zeroRunLength := rfl
@[simp] theorem setStatus_level (a e : BitVec 2) (s : State) : (setStatus a e s).level = s.level := rfl
@[simp] theorem setStatus_growing (a e : BitVec 2) (s : State) : (setStatus a e s).growing = s.growing := rfl
@[simp] theorem setStatus_mem (a e : BitVec 2) (s : State) : (setStatus a e s).mem = s.mem := rfl
@[simp] theorem setStatus_host (a e : BitVec 2) (s : State) : (setStatus a e s).host = s.host := rfl
@[simp] theorem setStatus_got (a e : BitVec 2) (s : State) : (setStatus a e s).got = s.got := rfl
@[simp] theorem setStatus_draws (a e : BitVec 2) (s : State) : (setStatus a e s).draws = s.draws := rfl
@[simp] theorem setStatus_resets (a e : BitVec 2) (s : State) : (setStatus a e s).resets = s.resets := rfl

@[simp] theorem memWriteOut_params (j : Nat) (v : Int) (s : State) : (memWriteOut j v s).params = s.params := rfl
@[simp] theorem memWriteOut_cmd (j : Nat) (v : Int) (s : State) : (memWriteOut j v s).cmd = s.cmd := rfl
@[simp] theorem memWriteOut_inLen (j : Nat) (v : Int) (s : State) : (memWriteOut j v s).inLen = s.inLen := rfl
@[simp] theorem memWriteOut_status (j : Nat) (v : Int) (s : State) : (memWriteOut j v s).status = s.status := rfl
@[simp] theorem memWriteOut_outLen (j : Nat) (v : Int) (s : State) : (memWriteOut j v s).outLen = s.outLen := rfl
@[simp] theorem memWriteOut_cur (j : Nat) (v : Int) (s : State) : (memWriteOut j v s).cur = s.cur := rfl
@[simp] theorem memWriteOut_olen (j : Nat) (v : Int) (s : State) : (memWriteOut j v s).olen = s.olen := rfl
@[simp] theorem memWriteOut_len (j : Nat) (v : Int) (s : State) : (memWriteOut j v s).len = s.len := rfl
@[simp] theorem memWriteOut_lastLevel (j : Nat) (v : Int) (s : State) : (memWriteOut j v s).lastLevel = s.lastLevel := rfl
@[simp] theorem memWriteOut_zeroRunLength (j : Nat) (v : Int) (s : State) : (memWriteOut j v s).zeroRunLength = s.zeroRunLength := rfl
@[simp] theorem memWriteOut_level (j : Nat) (v : Int) (s : State) : (memWriteOut j v s).level = s.level := rfl
@[simp] theorem memWriteOut_growing (j : Nat) (v : Int) (s : State) : (memWriteOut j v s).growing = s.growing := rfl
@[simp] theorem memWriteOut_mem (j : Nat) (v : Int) (s : State) : (memWriteOut j v s).mem = { s.mem with outSyms := cellsWrite j (symOfLevel v) s.mem.outSyms } := rfl
@[simp] theorem memWriteOut_host (j : Nat) (v : Int) (s : State) : (memWriteOut j v s).host = s.host := rfl
@[simp] theorem memWriteOut_got (j : Nat) (v : Int) (s : State) : (memWriteOut j v s).got = s.got := rfl
@[simp] theorem memWriteOut_draws (j : Nat) (v : Int) (s : State) : (memWriteOut j v s).draws = s.draws := rfl
@[simp] theorem memWriteOut_resets (j : Nat) (v : Int) (s : State) : (memWriteOut j v s).resets = s.resets := rfl

@[simp] theorem emit_params (v : Int) (s : State) : (emit v s).params = s.params := rfl
@[simp] theorem emit_cmd (v : Int) (s : State) : (emit v s).cmd = s.cmd := rfl
@[simp] theorem emit_inLen (v : Int) (s : State) : (emit v s).inLen = s.inLen := rfl
@[simp] theorem emit_status (v : Int) (s : State) : (emit v s).status = s.status := rfl
@[simp] theorem emit_outLen (v : Int) (s : State) : (emit v s).outLen = s.outLen := rfl
@[simp] theorem emit_cur (v : Int) (s : State) : (emit v s).cur = s.cur := rfl
@[simp] theorem emit_olen (v : Int) (s : State) : (emit v s).olen = s.olen + 1 := rfl
@[simp] theorem emit_len (v : Int) (s : State) : (emit v s).len = s.len := rfl
@[simp] theorem emit_lastLevel (v : Int) (s : State) : (emit v s).lastLevel = s.lastLevel := rfl
@[simp] theorem emit_zeroRunLength (v : Int) (s : State) : (emit v s).zeroRunLength = s.zeroRunLength := rfl
@[simp] theorem emit_level (v : Int) (s : State) : (emit v s).level = s.level := rfl
@[simp] theorem emit_growing (v : Int) (s : State) : (emit v s).growing = s.growing := rfl
@[simp] theorem emit_mem (v : Int) (s : State) : (emit v s).mem = { s.mem with outSyms := cellsWrite s.olen (symOfLevel v) s.mem.outSyms } := rfl
@[simp] theorem emit_host (v : Int) (s : State) : (emit v s).host = s.host := rfl
@[simp] theorem emit_got (v : Int) (s : State) : (emit v s).got = s.got := rfl
@[simp] theorem emit_draws (v : Int) (s : State) : (emit v s).draws = s.draws := rfl
@[simp] theorem emit_resets (v : Int) (s : State) : (emit v s).resets = s.resets := rfl

@[simp] theorem writeInput_params (bits : List Bit) (s : State) : (writeInput bits s).params = s.params := rfl
@[simp] theorem writeInput_cmd (bits : List Bit) (s : State) : (writeInput bits s).cmd = s.cmd := rfl
@[simp] theorem writeInput_inLen (bits : List Bit) (s : State) : (writeInput bits s).inLen = bits.length := rfl
@[simp] theorem writeInput_status (bits : List Bit) (s : State) : (writeInput bits s).status = s.status := rfl
@[simp] theorem writeInput_outLen (bits : List Bit) (s : State) : (writeInput bits s).outLen = s.outLen := rfl
@[simp] theorem writeInput_cur (bits : List Bit) (s : State) : (writeInput bits s).cur = s.cur := rfl
@[simp] theorem writeInput_olen (bits : List Bit) (s : State) : (writeInput bits s).olen = s.olen := rfl
@[simp] theorem writeInput_len (bits : List Bit) (s : State) : (writeInput bits s).len = s.len := rfl
@[simp] theorem writeInput_lastLevel (bits : List Bit) (s : State) : (writeInput bits s).lastLevel = s.lastLevel := rfl
@[simp] theorem writeInput_zeroRunLength (bits : List Bit) (s : State) : (writeInput bits s).zeroRunLength = s.zeroRunLength := rfl
@[simp] theorem writeInput_level (bits : List Bit) (s : State) : (writeInput bits s).level = s.level := rfl
@[simp] theorem writeInput_growing (bits : List Bit) (s : State) : (writeInput bits s).growing = s.growing := rfl
@[simp] theorem writeInput_mem (bits : List Bit) (s : State) : (writeInput bits s).mem = { s.mem with inBits := cellsWriteList 0 bits s.mem.inBits } := rfl
@[simp] theorem writeInput_host (bits : List Bit) (s : State) : (writeInput bits s).host = s.host := rfl
@[simp] theorem writeInput_got (bits : List Bit) (s : State) : (writeInput bits s).got = s.got := rfl
@[simp] theorem writeInput_draws (bits : List Bit) (s : State) : (writeInput bits s).draws = s.draws := rfl
@[simp] theorem writeInput_resets (bits : List Bit) (s : State) : (writeInput bits s).resets = s.resets := rfl

@[simp] theorem setLastLevel_params (v : Int) (s : State) : (setLastLevel v s).params = s.params := rfl
@[simp] theorem setLastLevel_cmd (v : Int) (s : State) : (setLastLevel v s).cmd = s.cmd := rfl
@[simp] theorem setLastLevel_inLen (v : Int) (s : State) : (setLastLevel v s).inLen = s.inLen := rfl
@[simp] theorem setLastLevel_status (v : Int) (s : State) : (setLastLevel v s).status = s.status := rfl
@[simp] theorem setLastLevel_outLen (v : Int) (s : State) : (setLastLevel v s).outLen = s.outLen := rfl
@[simp] theorem setLastLevel_cur (v : Int) (s : State) : (setLastLevel v s).cur = s.cur := rfl
@[simp] theorem setLastLevel_olen (v : Int) (s : State) : (setLastLevel v s).olen = s.olen := rfl
@[simp] theorem setLastLevel_len (v : Int) (s : State) : (setLastLevel v s).len = s.len := rfl
@[simp] theorem setLastLevel_lastLevel (v : Int) (s : State) : (setLastLevel v s).lastLevel = BitVec.ofInt 2 v := rfl
@[simp] theorem setLastLevel_zeroRunLength (v : Int) (s : State) : (setLastLevel v s).zeroRunLength = s.zeroRunLength := rfl
@[simp] theorem setLastLevel_level (v : Int) (s : State) : (setLastLevel v s).level = s.level := rfl
@[simp] theorem setLastLevel_growing (v : Int) (s : State) : (setLastLevel v s).growing = s.growing := rfl
@[simp] theorem setLastLevel_mem (v : Int) (s : State) : (setLastLevel v s).mem = s.mem := rfl
@[simp] theorem setLastLevel_host (v : Int) (s : State) : (setLastLevel v s).host = s.host := rfl
@[simp] theorem setLastLevel_got (v : Int) (s : State) : (setLastLevel v s).got = s.got := rfl
@[simp] theorem setLastLevel_draws (v : Int) (s : State) : (setLastLevel v s).draws = s.draws := rfl
@[simp] theorem setLastLevel_resets (v : Int) (s : State) : (setLastLevel v s).resets = s.resets := rfl

@[simp] theorem setZeroRunLength_params (v : Nat) (s : State) : (setZeroRunLength v s).params = s.params := rfl
@[simp] theorem setZeroRunLength_cmd (v : Nat) (s : State) : (setZeroRunLength v s).cmd = s.cmd := rfl
@[simp] theorem setZeroRunLength_inLen (v : Nat) (s : State) : (setZeroRunLength v s).inLen = s.inLen := rfl
@[simp] theorem setZeroRunLength_status (v : Nat) (s : State) : (setZeroRunLength v s).status = s.status := rfl
@[simp] theorem setZeroRunLength_outLen (v : Nat) (s : State) : (setZeroRunLength v s).outLen = s.outLen := rfl
@[simp] theorem setZeroRunLength_cur (v : Nat) (s : State) : (setZeroRunLength v s).cur = s.cur := rfl
@[simp] theorem setZeroRunLength_olen (v : Nat) (s : State) : (setZeroRunLength v s).olen = s.olen := rfl
@[simp] theorem setZeroRunLength_len (v : Nat) (s : State) : (setZeroRunLength v s).len = s.len := rfl
@[simp] theorem setZeroRunLength_lastLevel (v : Nat) (s : State) : (setZeroRunLength v s).lastLevel = s.lastLevel := rfl
@[simp] theorem setZeroRunLength_zeroRunLength (v : Nat) (s : State) : (setZeroRunLength v s).zeroRunLength = v := rfl
@[simp] theorem setZeroRunLength_level (v : Nat) (s : State) : (setZeroRunLength v s).level = s.level := rfl
@[simp] theorem setZeroRunLength_growing (v : Nat) (s : State) : (setZeroRunLength v s).growing = s.growing := rfl
@[simp] theorem setZeroRunLength_mem (v : Nat) (s : State) : (setZeroRunLength v s).mem = s.mem := rfl
@[simp] theorem setZeroRunLength_host (v : Nat) (s : State) : (setZeroRunLength v s).host = s.host := rfl
@[simp] theorem setZeroRunLength_got (v : Nat) (s : State) : (setZeroRunLength v s).got = s.got := rfl
@[simp] theorem setZeroRunLength_draws (v : Nat) (s : State) : (setZeroRunLength v s).draws = s.draws := rfl
@[simp] theorem setZeroRunLength_resets (v : Nat) (s : State) : (setZeroRunLength v s).resets = s.resets := rfl

@[simp] theorem setLevel_params (v : Int) (s : State) : (setLevel v s).params = s.params := rfl
@[simp] theorem setLevel_cmd (v : Int) (s : State) : (setLevel v s).cmd = s.cmd := rfl
@[simp] theorem setLevel_inLen (v : Int) (s : State) : (setLevel v s).inLen = s.inLen := rfl
@[simp] theorem setLevel_status (v : Int) (s : State) : (setLevel v s).status = s.status := rfl
@[simp] theorem setLevel_outLen (v : Int) (s : State) : (setLevel v s).outLen = s.outLen := rfl
@[simp] theorem setLevel_cur (v : Int) (s : State) : (setLevel v s).cur = s.cur := rfl
@[simp] theorem setLevel_olen (v : Int) (s : State) : (setLevel v s).olen = s.olen := rfl
@[simp] theorem setLevel_len (v : Int) (s : State) : (setLevel v s).len = s.len := rfl
@[simp] theorem setLevel_lastLevel (v : Int) (s : State) : (setLevel v s).lastLevel = s.lastLevel := rfl
@[simp] theorem setLevel_zeroRunLength (v : Int) (s : State) : (setLevel v s).zeroRunLength = s.zeroRunLength := rfl
@[simp] theorem setLevel_level (v : Int) (s : State) : (setLevel v s).level = BitVec.ofInt 3 v := rfl
@[simp] theorem setLevel_growing (v : Int) (s : State) : (setLevel v s).growing = s.growing := rfl
@[simp] theorem setLevel_mem (v : Int) (s : State) : (setLevel v s).mem = s.mem := rfl
@[simp] theorem setLevel_host (v : Int) (s : State) : (setLevel v s).host = s.host := rfl
@[simp] theorem setLevel_got (v : Int) (s : State) : (setLevel v s).got = s.got := rfl
@[simp] theorem setLevel_draws (v : Int) (s : State) : (setLevel v s).draws = s.draws := rfl
@[simp] theorem setLevel_resets (v : Int) (s : State) : (setLevel v s).resets = s.resets := rfl

@[simp] theorem setGrowing_params (v : Bool) (s : State) : (setGrowing v s).params = s.params := rfl
@[simp] theorem setGrowing_cmd (v : Bool) (s : State) : (setGrowing v s).cmd = s.cmd := rfl
@[simp] theorem setGrowing_inLen (v : Bool) (s : State) : (setGrowing v s).inLen = s.inLen := rfl
@[simp] theorem setGrowing_status (v : Bool) (s : State) : (setGrowing v s).status = s.status := rfl
@[simp] theorem setGrowing_outLen (v : Bool) (s : State) : (setGrowing v s).outLen = s.outLen := rfl
@[simp] theorem setGrowing_cur (v : Bool) (s : State) : (setGrowing v s).cur = s.cur := rfl
@[simp] theorem setGrowing_olen (v : Bool) (s : State) : (setGrowing v s).olen = s.olen := rfl
@[simp] theorem setGrowing_len (v : Bool) (s : State) : (setGrowing v s).len = s.len := rfl
@[simp] theorem setGrowing_lastLevel (v : Bool) (s : State) : (setGrowing v s).lastLevel = s.lastLevel := rfl
@[simp] theorem setGrowing_zeroRunLength (v : Bool) (s : State) : (setGrowing v s).zeroRunLength = s.zeroRunLength := rfl
@[simp] theorem setGrowing_level (v : Bool) (s : State) : (setGrowing v s).level = s.level := rfl
@[simp] theorem setGrowing_growing (v : Bool) (s : State) : (setGrowing v s).growing = v := rfl
@[simp] theorem setGrowing_mem (v : Bool) (s : State) : (setGrowing v s).mem = s.mem := rfl
@[simp] theorem setGrowing_host (v : Bool) (s : State) : (setGrowing v s).host = s.host := rfl
@[simp] theorem setGrowing_got (v : Bool) (s : State) : (setGrowing v s).got = s.got := rfl
@[simp] theorem setGrowing_draws (v : Bool) (s : State) : (setGrowing v s).draws = s.draws := rfl
@[simp] theorem setGrowing_resets (v : Bool) (s : State) : (setGrowing v s).resets = s.resets := rfl

@[simp] theorem releaseAmi_params (s : State) : (releaseAmi s).params = s.params := rfl
@[simp] theorem releaseAmi_cmd (s : State) : (releaseAmi s).cmd = s.cmd := rfl
@[simp] theorem releaseAmi_inLen (s : State) : (releaseAmi s).inLen = s.inLen := rfl
@[simp] theorem releaseAmi_status (s : State) : (releaseAmi s).status = s.status := rfl
@[simp] theorem releaseAmi_outLen (s : State) : (releaseAmi s).outLen = s.outLen := rfl
@[simp] theorem releaseAmi_cur (s : State) : (releaseAmi s).cur = s.cur := rfl
@[simp] theorem releaseAmi_olen (s : State) : (releaseAmi s).olen = s.olen := rfl
@[simp] theorem releaseAmi_len (s : State) : (releaseAmi s).len = s.len := rfl
@[simp] theorem releaseAmi_lastLevel (s : State) :
    (releaseAmi s).lastLevel = Config.freeLastLevel s.params.engineIndex s.draws := rfl
@[simp] theorem releaseAmi_zeroRunLength (s : State) :
    (releaseAmi s).zeroRunLength = Config.freeZeroRunLength s.params.engineIndex s.draws := rfl
@[simp] theorem releaseAmi_level (s : State) : (releaseAmi s).level = s.level := rfl
@[simp] theorem releaseAmi_growing (s : State) : (releaseAmi s).growing = s.growing := rfl
@[simp] theorem releaseAmi_mem (s : State) : (releaseAmi s).mem = s.mem := rfl
@[simp] theorem releaseAmi_host (s : State) : (releaseAmi s).host = s.host := rfl
@[simp] theorem releaseAmi_got (s : State) : (releaseAmi s).got = s.got := rfl
@[simp] theorem releaseAmi_draws (s : State) : (releaseAmi s).draws = s.draws := rfl
@[simp] theorem releaseAmi_resets (s : State) : (releaseAmi s).resets = s.resets := rfl

@[simp] theorem releaseLevel_params (s : State) : (releaseLevel s).params = s.params := rfl
@[simp] theorem releaseLevel_cmd (s : State) : (releaseLevel s).cmd = s.cmd := rfl
@[simp] theorem releaseLevel_inLen (s : State) : (releaseLevel s).inLen = s.inLen := rfl
@[simp] theorem releaseLevel_status (s : State) : (releaseLevel s).status = s.status := rfl
@[simp] theorem releaseLevel_outLen (s : State) : (releaseLevel s).outLen = s.outLen := rfl
@[simp] theorem releaseLevel_cur (s : State) : (releaseLevel s).cur = s.cur := rfl
@[simp] theorem releaseLevel_olen (s : State) : (releaseLevel s).olen = s.olen := rfl
@[simp] theorem releaseLevel_len (s : State) : (releaseLevel s).len = s.len := rfl
@[simp] theorem releaseLevel_lastLevel (s : State) : (releaseLevel s).lastLevel = s.lastLevel := rfl
@[simp] theorem releaseLevel_zeroRunLength (s : State) : (releaseLevel s).zeroRunLength = s.zeroRunLength := rfl
@[simp] theorem releaseLevel_level (s : State) : (releaseLevel s).level = Config.freeLevel s.params.engineIndex s.draws := rfl
@[simp] theorem releaseLevel_growing (s : State) : (releaseLevel s).growing = s.growing := rfl
@[simp] theorem releaseLevel_mem (s : State) : (releaseLevel s).mem = s.mem := rfl
@[simp] theorem releaseLevel_host (s : State) : (releaseLevel s).host = s.host := rfl
@[simp] theorem releaseLevel_got (s : State) : (releaseLevel s).got = s.got := rfl
@[simp] theorem releaseLevel_draws (s : State) : (releaseLevel s).draws = s.draws := rfl
@[simp] theorem releaseLevel_resets (s : State) : (releaseLevel s).resets = s.resets := rfl

@[simp] theorem releaseMlt3_params (s : State) : (releaseMlt3 s).params = s.params := rfl
@[simp] theorem releaseMlt3_cmd (s : State) : (releaseMlt3 s).cmd = s.cmd := rfl
@[simp] theorem releaseMlt3_inLen (s : State) : (releaseMlt3 s).inLen = s.inLen := rfl
@[simp] theorem releaseMlt3_status (s : State) : (releaseMlt3 s).status = s.status := rfl
@[simp] theorem releaseMlt3_outLen (s : State) : (releaseMlt3 s).outLen = s.outLen := rfl
@[simp] theorem releaseMlt3_cur (s : State) : (releaseMlt3 s).cur = s.cur := rfl
@[simp] theorem releaseMlt3_olen (s : State) : (releaseMlt3 s).olen = s.olen := rfl
@[simp] theorem releaseMlt3_len (s : State) : (releaseMlt3 s).len = s.len := rfl
@[simp] theorem releaseMlt3_lastLevel (s : State) : (releaseMlt3 s).lastLevel = s.lastLevel := rfl
@[simp] theorem releaseMlt3_zeroRunLength (s : State) : (releaseMlt3 s).zeroRunLength = s.zeroRunLength := rfl
@[simp] theorem releaseMlt3_level (s : State) : (releaseMlt3 s).level = Config.freeLevel s.params.engineIndex s.draws := rfl
@[simp] theorem releaseMlt3_growing (s : State) :
    (releaseMlt3 s).growing = Config.freeGrowing s.params.engineIndex s.draws := rfl
@[simp] theorem releaseMlt3_mem (s : State) : (releaseMlt3 s).mem = s.mem := rfl
@[simp] theorem releaseMlt3_host (s : State) : (releaseMlt3 s).host = s.host := rfl
@[simp] theorem releaseMlt3_got (s : State) : (releaseMlt3 s).got = s.got := rfl
@[simp] theorem releaseMlt3_draws (s : State) : (releaseMlt3 s).draws = s.draws := rfl
@[simp] theorem releaseMlt3_resets (s : State) : (releaseMlt3 s).resets = s.resets := rfl

@[simp] theorem latchCommand_params (w : Command) (s : State) : (latchCommand w s).params = s.params := rfl
@[simp] theorem latchCommand_cmd (w : Command) (s : State) : (latchCommand w s).cmd = w := rfl
@[simp] theorem latchCommand_inLen (w : Command) (s : State) : (latchCommand w s).inLen = s.inLen := rfl
@[simp] theorem latchCommand_status (w : Command) (s : State) : (latchCommand w s).status = s.status := rfl
@[simp] theorem latchCommand_outLen (w : Command) (s : State) : (latchCommand w s).outLen = s.outLen := rfl
@[simp] theorem latchCommand_cur (w : Command) (s : State) : (latchCommand w s).cur = s.cur := rfl
@[simp] theorem latchCommand_olen (w : Command) (s : State) : (latchCommand w s).olen = s.olen := rfl
@[simp] theorem latchCommand_len (w : Command) (s : State) : (latchCommand w s).len = s.len := rfl
@[simp] theorem latchCommand_lastLevel (w : Command) (s : State) : (latchCommand w s).lastLevel = s.lastLevel := rfl
@[simp] theorem latchCommand_zeroRunLength (w : Command) (s : State) : (latchCommand w s).zeroRunLength = s.zeroRunLength := rfl
@[simp] theorem latchCommand_level (w : Command) (s : State) : (latchCommand w s).level = s.level := rfl
@[simp] theorem latchCommand_growing (w : Command) (s : State) : (latchCommand w s).growing = s.growing := rfl
@[simp] theorem latchCommand_mem (w : Command) (s : State) : (latchCommand w s).mem = s.mem := rfl
@[simp] theorem latchCommand_host (w : Command) (s : State) : (latchCommand w s).host = s.host := rfl
@[simp] theorem latchCommand_got (w : Command) (s : State) : (latchCommand w s).got = s.got := rfl
@[simp] theorem latchCommand_draws (w : Command) (s : State) : (latchCommand w s).draws = s.draws := rfl
@[simp] theorem latchCommand_resets (w : Command) (s : State) : (latchCommand w s).resets = s.resets := rfl

@[simp] theorem enterCall_params (s : State) : (enterCall s).params = s.params := rfl
@[simp] theorem enterCall_cmd (s : State) : (enterCall s).cmd = s.cmd := rfl
@[simp] theorem enterCall_inLen (s : State) : (enterCall s).inLen = s.inLen := rfl
@[simp] theorem enterCall_status (s : State) : (enterCall s).status = statusWord stBusy errNone := rfl
@[simp] theorem enterCall_outLen (s : State) : (enterCall s).outLen = s.outLen := rfl
@[simp] theorem enterCall_cur (s : State) : (enterCall s).cur = s.cur := rfl
@[simp] theorem enterCall_olen (s : State) : (enterCall s).olen = s.olen := rfl
@[simp] theorem enterCall_len (s : State) : (enterCall s).len = s.inLen := rfl
@[simp] theorem enterCall_lastLevel (s : State) : (enterCall s).lastLevel = s.lastLevel := rfl
@[simp] theorem enterCall_zeroRunLength (s : State) : (enterCall s).zeroRunLength = s.zeroRunLength := rfl
@[simp] theorem enterCall_level (s : State) : (enterCall s).level = s.level := rfl
@[simp] theorem enterCall_growing (s : State) : (enterCall s).growing = s.growing := rfl
@[simp] theorem enterCall_mem (s : State) : (enterCall s).mem = s.mem := rfl
@[simp] theorem enterCall_host (s : State) : (enterCall s).host = s.host := rfl
@[simp] theorem enterCall_got (s : State) : (enterCall s).got = s.got := rfl
@[simp] theorem enterCall_draws (s : State) : (enterCall s).draws = s.draws + 1 := rfl
@[simp] theorem enterCall_resets (s : State) : (enterCall s).resets = s.resets := rfl

@[simp] theorem openCall_params (s : State) : (openCall s).params = s.params := rfl
@[simp] theorem openCall_cmd (s : State) : (openCall s).cmd = s.cmd := rfl
@[simp] theorem openCall_inLen (s : State) : (openCall s).inLen = s.inLen := rfl
@[simp] theorem openCall_status (s : State) : (openCall s).status = statusWord stBusy errNone := rfl
@[simp] theorem openCall_outLen (s : State) : (openCall s).outLen = s.outLen := rfl
@[simp] theorem openCall_cur (s : State) : (openCall s).cur = 0 := rfl
@[simp] theorem openCall_olen (s : State) : (openCall s).olen = 0 := rfl
@[simp] theorem openCall_len (s : State) : (openCall s).len = s.inLen := rfl
@[simp] theorem openCall_lastLevel (s : State) : (openCall s).lastLevel = s.lastLevel := rfl
@[simp] theorem openCall_zeroRunLength (s : State) : (openCall s).zeroRunLength = s.zeroRunLength := rfl
@[simp] theorem openCall_level (s : State) : (openCall s).level = s.level := rfl
@[simp] theorem openCall_growing (s : State) : (openCall s).growing = s.growing := rfl
@[simp] theorem openCall_mem (s : State) : (openCall s).mem = { s.mem with outSyms := [] } := rfl
@[simp] theorem openCall_host (s : State) : (openCall s).host = s.host := rfl
@[simp] theorem openCall_got (s : State) : (openCall s).got = s.got := rfl
@[simp] theorem openCall_draws (s : State) : (openCall s).draws = s.draws + 1 := rfl
@[simp] theorem openCall_resets (s : State) : (openCall s).resets = s.resets := rfl

@[simp] theorem raiseUnknownScheme_params (s : State) : (raiseUnknownScheme s).params = s.params := rfl
@[simp] theorem raiseUnknownScheme_cmd (s : State) : (raiseUnknownScheme s).cmd = s.cmd := rfl
@[simp] theorem raiseUnknownScheme_inLen (s : State) : (raiseUnknownScheme s).inLen = s.inLen := rfl
@[simp] theorem raiseUnknownScheme_status (s : State) : (raiseUnknownScheme s).status = statusWord stError errUnknownScheme := rfl
@[simp] theorem raiseUnknownScheme_outLen (s : State) : (raiseUnknownScheme s).outLen = 0 := rfl
@[simp] theorem raiseUnknownScheme_cur (s : State) : (raiseUnknownScheme s).cur = s.cur := rfl
@[simp] theorem raiseUnknownScheme_olen (s : State) : (raiseUnknownScheme s).olen = s.olen := rfl
@[simp] theorem raiseUnknownScheme_len (s : State) : (raiseUnknownScheme s).len = s.len := rfl
@[simp] theorem raiseUnknownScheme_lastLevel (s : State) : (raiseUnknownScheme s).lastLevel = s.lastLevel := rfl
@[simp] theorem raiseUnknownScheme_zeroRunLength (s : State) : (raiseUnknownScheme s).zeroRunLength = s.zeroRunLength := rfl
@[simp] theorem raiseUnknownScheme_level (s : State) : (raiseUnknownScheme s).level = s.level := rfl
@[simp] theorem raiseUnknownScheme_growing (s : State) : (raiseUnknownScheme s).growing = s.growing := rfl
@[simp] theorem raiseUnknownScheme_mem (s : State) : (raiseUnknownScheme s).mem = s.mem := rfl
@[simp] theorem raiseUnknownScheme_host (s : State) : (raiseUnknownScheme s).host = s.host := rfl
@[simp] theorem raiseUnknownScheme_got (s : State) : (raiseUnknownScheme s).got = s.got := rfl
@[simp] theorem raiseUnknownScheme_draws (s : State) : (raiseUnknownScheme s).draws = s.draws + 1 := rfl
@[simp] theorem raiseUnknownScheme_resets (s : State) : (raiseUnknownScheme s).resets = s.resets := rfl

@[simp] theorem endCall_params (r : State → State) (s : State) : (endCall r s).params = (r s).params := rfl
@[simp] theorem endCall_cmd (r : State → State) (s : State) : (endCall r s).cmd = (r s).cmd := rfl
@[simp] theorem endCall_inLen (r : State → State) (s : State) : (endCall r s).inLen = (r s).inLen := rfl
@[simp] theorem endCall_status (r : State → State) (s : State) : (endCall r s).status = statusWord stDone errNone := rfl
@[simp] theorem endCall_outLen (r : State → State) (s : State) : (endCall r s).outLen = (r s).olen := rfl
@[simp] theorem endCall_cur (r : State → State) (s : State) : (endCall r s).cur = (r s).cur := rfl
@[simp] theorem endCall_olen (r : State → State) (s : State) : (endCall r s).olen = (r s).olen := rfl
@[simp] theorem endCall_len (r : State → State) (s : State) : (endCall r s).len = (r s).len := rfl
@[simp] theorem endCall_lastLevel (r : State → State) (s : State) : (endCall r s).lastLevel = (r s).lastLevel := rfl
@[simp] theorem endCall_zeroRunLength (r : State → State) (s : State) : (endCall r s).zeroRunLength = (r s).zeroRunLength := rfl
@[simp] theorem endCall_level (r : State → State) (s : State) : (endCall r s).level = (r s).level := rfl
@[simp] theorem endCall_growing (r : State → State) (s : State) : (endCall r s).growing = (r s).growing := rfl
@[simp] theorem endCall_mem (r : State → State) (s : State) : (endCall r s).mem = (r s).mem := rfl
@[simp] theorem endCall_host (r : State → State) (s : State) : (endCall r s).host = (r s).host := rfl
@[simp] theorem endCall_got (r : State → State) (s : State) : (endCall r s).got = (r s).got := rfl
@[simp] theorem endCall_draws (r : State → State) (s : State) : (endCall r s).draws = (r s).draws + 1 := rfl
@[simp] theorem endCall_resets (r : State → State) (s : State) : (endCall r s).resets = (r s).resets := rfl

@[simp] theorem hostGets_params (r : HostRead) (s : State) : (hostGets r s).params = s.params := rfl
@[simp] theorem hostGets_cmd (r : HostRead) (s : State) : (hostGets r s).cmd = s.cmd := rfl
@[simp] theorem hostGets_inLen (r : HostRead) (s : State) : (hostGets r s).inLen = s.inLen := rfl
@[simp] theorem hostGets_status (r : HostRead) (s : State) : (hostGets r s).status = s.status := rfl
@[simp] theorem hostGets_outLen (r : HostRead) (s : State) : (hostGets r s).outLen = s.outLen := rfl
@[simp] theorem hostGets_cur (r : HostRead) (s : State) : (hostGets r s).cur = s.cur := rfl
@[simp] theorem hostGets_olen (r : HostRead) (s : State) : (hostGets r s).olen = s.olen := rfl
@[simp] theorem hostGets_len (r : HostRead) (s : State) : (hostGets r s).len = s.len := rfl
@[simp] theorem hostGets_lastLevel (r : HostRead) (s : State) : (hostGets r s).lastLevel = s.lastLevel := rfl
@[simp] theorem hostGets_zeroRunLength (r : HostRead) (s : State) : (hostGets r s).zeroRunLength = s.zeroRunLength := rfl
@[simp] theorem hostGets_level (r : HostRead) (s : State) : (hostGets r s).level = s.level := rfl
@[simp] theorem hostGets_growing (r : HostRead) (s : State) : (hostGets r s).growing = s.growing := rfl
@[simp] theorem hostGets_mem (r : HostRead) (s : State) : (hostGets r s).mem = s.mem := rfl
@[simp] theorem hostGets_host (r : HostRead) (s : State) : (hostGets r s).host = s.host := rfl
@[simp] theorem hostGets_got (r : HostRead) (s : State) : (hostGets r s).got = r :: s.got := rfl
@[simp] theorem hostGets_draws (r : HostRead) (s : State) : (hostGets r s).draws = s.draws := rfl
@[simp] theorem hostGets_resets (r : HostRead) (s : State) : (hostGets r s).resets = s.resets := rfl

@[simp] theorem hostDraws_params (r : HostRead) (s : State) : (hostDraws r s).params = s.params := rfl
@[simp] theorem hostDraws_cmd (r : HostRead) (s : State) : (hostDraws r s).cmd = s.cmd := rfl
@[simp] theorem hostDraws_inLen (r : HostRead) (s : State) : (hostDraws r s).inLen = s.inLen := rfl
@[simp] theorem hostDraws_status (r : HostRead) (s : State) : (hostDraws r s).status = s.status := rfl
@[simp] theorem hostDraws_outLen (r : HostRead) (s : State) : (hostDraws r s).outLen = s.outLen := rfl
@[simp] theorem hostDraws_cur (r : HostRead) (s : State) : (hostDraws r s).cur = s.cur := rfl
@[simp] theorem hostDraws_olen (r : HostRead) (s : State) : (hostDraws r s).olen = s.olen := rfl
@[simp] theorem hostDraws_len (r : HostRead) (s : State) : (hostDraws r s).len = s.len := rfl
@[simp] theorem hostDraws_lastLevel (r : HostRead) (s : State) : (hostDraws r s).lastLevel = s.lastLevel := rfl
@[simp] theorem hostDraws_zeroRunLength (r : HostRead) (s : State) : (hostDraws r s).zeroRunLength = s.zeroRunLength := rfl
@[simp] theorem hostDraws_level (r : HostRead) (s : State) : (hostDraws r s).level = s.level := rfl
@[simp] theorem hostDraws_growing (r : HostRead) (s : State) : (hostDraws r s).growing = s.growing := rfl
@[simp] theorem hostDraws_mem (r : HostRead) (s : State) : (hostDraws r s).mem = s.mem := rfl
@[simp] theorem hostDraws_host (r : HostRead) (s : State) : (hostDraws r s).host = s.host := rfl
@[simp] theorem hostDraws_got (r : HostRead) (s : State) : (hostDraws r s).got = r :: s.got := rfl
@[simp] theorem hostDraws_draws (r : HostRead) (s : State) : (hostDraws r s).draws = s.draws + 1 := rfl
@[simp] theorem hostDraws_resets (r : HostRead) (s : State) : (hostDraws r s).resets = s.resets := rfl

@[simp] theorem groupStep_params (t : Transform) (s : State) : (groupStep t s).params = (t.step s).params := rfl
@[simp] theorem groupStep_cmd (t : Transform) (s : State) : (groupStep t s).cmd = (t.step s).cmd := rfl
@[simp] theorem groupStep_inLen (t : Transform) (s : State) : (groupStep t s).inLen = (t.step s).inLen := rfl
@[simp] theorem groupStep_status (t : Transform) (s : State) : (groupStep t s).status = (t.step s).status := rfl
@[simp] theorem groupStep_outLen (t : Transform) (s : State) : (groupStep t s).outLen = (t.step s).outLen := rfl
@[simp] theorem groupStep_cur (t : Transform) (s : State) : (groupStep t s).cur = (t.step s).cur + t.group := rfl
@[simp] theorem groupStep_olen (t : Transform) (s : State) : (groupStep t s).olen = (t.step s).olen := rfl
@[simp] theorem groupStep_len (t : Transform) (s : State) : (groupStep t s).len = (t.step s).len := rfl
@[simp] theorem groupStep_lastLevel (t : Transform) (s : State) : (groupStep t s).lastLevel = (t.step s).lastLevel := rfl
@[simp] theorem groupStep_zeroRunLength (t : Transform) (s : State) : (groupStep t s).zeroRunLength = (t.step s).zeroRunLength := rfl
@[simp] theorem groupStep_level (t : Transform) (s : State) : (groupStep t s).level = (t.step s).level := rfl
@[simp] theorem groupStep_growing (t : Transform) (s : State) : (groupStep t s).growing = (t.step s).growing := rfl
@[simp] theorem groupStep_mem (t : Transform) (s : State) : (groupStep t s).mem = (t.step s).mem := rfl
@[simp] theorem groupStep_host (t : Transform) (s : State) : (groupStep t s).host = (t.step s).host := rfl
@[simp] theorem groupStep_got (t : Transform) (s : State) : (groupStep t s).got = (t.step s).got := rfl
@[simp] theorem groupStep_draws (t : Transform) (s : State) : (groupStep t s).draws = (t.step s).draws := rfl
@[simp] theorem groupStep_resets (t : Transform) (s : State) : (groupStep t s).resets = (t.step s).resets := rfl

@[simp] theorem hostReset_params (s : State) : (hostReset s).params = s.params := rfl
@[simp] theorem hostReset_cmd (s : State) : (hostReset s).cmd = 0 := rfl
@[simp] theorem hostReset_inLen (s : State) : (hostReset s).inLen = 0 := rfl
@[simp] theorem hostReset_status (s : State) : (hostReset s).status = 0 := rfl
@[simp] theorem hostReset_outLen (s : State) : (hostReset s).outLen = 0 := rfl
@[simp] theorem hostReset_cur (s : State) : (hostReset s).cur = 0 := rfl
@[simp] theorem hostReset_olen (s : State) : (hostReset s).olen = 0 := rfl
@[simp] theorem hostReset_len (s : State) : (hostReset s).len = 0 := rfl
@[simp] theorem hostReset_lastLevel (s : State) : (hostReset s).lastLevel = -1 := rfl
@[simp] theorem hostReset_zeroRunLength (s : State) : (hostReset s).zeroRunLength = 0 := rfl
@[simp] theorem hostReset_level (s : State) : (hostReset s).level = 0 := rfl
@[simp] theorem hostReset_growing (s : State) : (hostReset s).growing = false := rfl
@[simp] theorem hostReset_mem (s : State) : (hostReset s).mem = { inBits := [], outSyms := [] } := rfl
@[simp] theorem hostReset_host (s : State) : (hostReset s).host = s.host := rfl
@[simp] theorem hostReset_got (s : State) : (hostReset s).got = s.got := rfl
@[simp] theorem hostReset_draws (s : State) : (hostReset s).draws = s.draws + 1 := rfl
@[simp] theorem hostReset_resets (s : State) : (hostReset s).resets = s.resets + 1 := rfl

end Sys2Proof.Machine
end

