-- ==== Sys2Proof/Laws/Cells.lean ====
section
/-! SUPPORT. The laws of cells and buffers: a read after a write, and every memory operation keeps the canonical form. -/

namespace Sys2Proof.Machine

/-- Cells above a bound hold nothing at or below it. -/
theorem cellsRead_of_le {α : Type} :
    ∀ {cs : List (Nat × α)} {m k : Nat}, cellsWfAbove m cs = true → k ≤ m → cellsRead cs k = none
  | [], _, _, _, _ => rfl
  | c :: cs, m, k, h, hk => by
    simp only [cellsWfAbove, Bool.and_eq_true, decide_eq_true_eq] at h
    simp only [cellsRead]
    rw [if_neg (by omega)]
    exact cellsRead_of_le h.2 (by omega)

/-- The rest of canonical cells is canonical. -/
theorem cellsWf_tail {α : Type} {c : Nat × α} : ∀ {cs : List (Nat × α)}, cellsWf (c :: cs) = true → cellsWf cs = true
  | [], _ => rfl
  | _ :: _, h => by simp only [cellsWf, cellsWfAbove, Bool.and_eq_true] at h; exact h.2

/-- A read after a write gives the value written at that index and what was there at every other. -/
theorem cellsRead_cellsWrite {α : Type} (a b : Nat) (v : α) :
    ∀ cs : List (Nat × α), cellsRead (cellsWrite a v cs) b = if b = a then some v else cellsRead cs b := by
  intro cs
  induction cs with
  | nil => simp [cellsWrite, cellsRead]
  | cons c cs ih =>
    obtain ⟨d, w⟩ := c
    simp only [cellsWrite]
    split
    · simp [cellsRead]
    · split
      · next _ hd => subst hd; simp only [cellsRead]; split <;> rfl
      · simp only [cellsRead, ih]
        split
        · next _ hne hb => subst hb; rw [if_neg (fun h' => hne h'.symm)]
        · rfl

/-- A write above a bound stays above it. -/
theorem cellsWfAbove_cellsWrite {α : Type} (a : Nat) (v : α) :
    ∀ (cs : List (Nat × α)) (m : Nat), m < a → cellsWfAbove m cs = true → cellsWfAbove m (cellsWrite a v cs) = true := by
  intro cs
  induction cs with
  | nil => intro m h _; simp [cellsWrite, cellsWfAbove, h]
  | cons c cs ih =>
    obtain ⟨d, w⟩ := c
    intro m h hw
    simp only [cellsWfAbove, Bool.and_eq_true, decide_eq_true_eq] at hw
    simp only [cellsWrite]
    split
    · next hlt => simp [cellsWfAbove, h, hlt, hw.2]
    · split
      · next _ he => subst he; simp [cellsWfAbove, h, hw.2]
      · next h1 h2 => simp [cellsWfAbove, hw.1, ih d (by omega) hw.2]

/-- A write keeps the canonical form. -/
theorem cellsWf_cellsWrite {α : Type} (a : Nat) (v : α) (cs : List (Nat × α)) (h : cellsWf cs = true) :
    cellsWf (cellsWrite a v cs) = true := by
  cases cs with
  | nil => rfl
  | cons c cs =>
    obtain ⟨d, w⟩ := c
    simp only [cellsWf] at h
    simp only [cellsWrite]
    split
    · next hlt => simp [cellsWf, cellsWfAbove, hlt, h]
    · split
      · next _ he => subst he; simpa [cellsWf] using h
      · next h1 h2 => simpa [cellsWf] using cellsWfAbove_cellsWrite a v cs d (by omega) h

/-- Writing a list keeps the canonical form. -/
theorem cellsWf_cellsWriteList {α : Type} :
    ∀ (vs : List α) (a : Nat) (cs : List (Nat × α)), cellsWf cs = true → cellsWf (cellsWriteList a vs cs) = true
  | [], _, _, h => h
  | v :: vs, a, cs, h => cellsWf_cellsWriteList vs (a + 1) _ (cellsWf_cellsWrite a v cs h)

/-- A read after a list was written from index `a` on: the list's element, or what was there. -/
theorem cellsRead_cellsWriteList {α : Type} :
    ∀ (vs : List α) (a b : Nat) (cs : List (Nat × α)),
      cellsRead (cellsWriteList a vs cs) b = if a ≤ b ∧ b < a + vs.length then vs[b - a]? else cellsRead cs b
  | [], a, b, cs => by
    simp only [cellsWriteList, List.length_nil]
    rw [if_neg (by omega)]
  | v :: vs, a, b, cs => by
    simp only [cellsWriteList, List.length_cons]
    rw [cellsRead_cellsWriteList vs (a + 1) b _, cellsRead_cellsWrite a b v cs]
    by_cases hb : b = a
    · subst hb
      rw [if_neg (by omega), if_pos rfl, if_pos (by omega), Nat.sub_self]
      rfl
    · rw [if_neg hb]
      by_cases hc : a + 1 ≤ b ∧ b < a + 1 + vs.length
      · rw [if_pos hc, if_pos (by omega)]
        have : b - a = (b - (a + 1)) + 1 := by omega
        rw [this, List.getElem?_cons_succ]
      · rw [if_neg hc, if_neg (by omega)]

/-- Equal reads make equal cells: the canonical form is canonical. -/
theorem cells_ext {α : Type} :
    ∀ (cs ds : List (Nat × α)), cellsWf cs = true → cellsWf ds = true →
      (∀ a, cellsRead cs a = cellsRead ds a) → cs = ds := by
  intro cs
  induction cs with
  | nil =>
    intro ds _ _ h
    cases ds with
    | nil => rfl
    | cons d ds => have := h d.1; simp [cellsRead] at this
  | cons c cs ih =>
    intro ds hc hd h
    cases ds with
    | nil => have := h c.1; simp [cellsRead] at this
    | cons d ds =>
      have ha : cellsWfAbove c.1 cs = true := hc
      have hb : cellsWfAbove d.1 ds = true := hd
      have key : c.1 = d.1 := by
        rcases Nat.lt_trichotomy c.1 d.1 with hlt | heq | hgt
        · have := h c.1
          rw [show cellsRead (d :: ds) c.1 = none by
            simp only [cellsRead]; rw [if_neg (by omega)]; exact cellsRead_of_le hb (by omega)] at this
          simp [cellsRead] at this
        · exact heq
        · have := h d.1
          rw [show cellsRead (c :: cs) d.1 = none by
            simp only [cellsRead]; rw [if_neg (by omega)]; exact cellsRead_of_le ha (by omega)] at this
          simp [cellsRead] at this
      have hv : c.2 = d.2 := by
        have := h c.1
        simpa [cellsRead, key] using this
      have rest : cs = ds := by
        refine ih ds (cellsWf_tail hc) (cellsWf_tail hd) fun a => ?_
        have hh := h a
        simp only [cellsRead] at hh
        by_cases hac : a = c.1
        · rw [cellsRead_of_le ha (by omega), cellsRead_of_le hb (by omega)]
        · rwa [if_neg hac, if_neg (by omega)] at hh
      rw [rest, show c = d from Prod.ext key hv]

/-- Every memory operation keeps the canonical form. -/
theorem memWriteOut_wf (j : Nat) (v : Int) (s : State) (h : s.mem.wf = true) : (memWriteOut j v s).mem.wf = true := by
  simp only [Memory.wf, Bool.and_eq_true] at h
  simp [Memory.wf, h.1, cellsWf_cellsWrite _ _ _ h.2]

theorem emit_wf (v : Int) (s : State) (h : s.mem.wf = true) : (emit v s).mem.wf = true := memWriteOut_wf _ _ _ h

theorem writeInput_wf (bits : List Bit) (s : State) (h : s.mem.wf = true) : (writeInput bits s).mem.wf = true := by
  simp only [Memory.wf, Bool.and_eq_true] at h
  simp [Memory.wf, h.2, cellsWf_cellsWriteList _ _ _ h.1]

theorem openCall_wf (s : State) (h : s.mem.wf = true) : (openCall s).mem.wf = true := by
  simp only [Memory.wf, Bool.and_eq_true] at h ⊢
  exact ⟨h.1, rfl⟩

/-- The state after reset has its memory in canonical form. -/
theorem resetWith_mem_wf (p : Config.Params) : (State.resetWith p).mem.wf = true := rfl

/-- What OUT[k] holds after a write to OUT[j]. -/
theorem cellsRead_memWriteOut (j k : Nat) (v : Int) (s : State) :
    cellsRead (memWriteOut j v s).mem.outSyms k =
      if k = j then some (symOfLevel v) else cellsRead s.mem.outSyms k :=
  cellsRead_cellsWrite _ _ _ _

/-- What OUT[k] holds after one symbol was appended. -/
theorem cellsRead_emit (k : Nat) (v : Int) (s : State) :
    cellsRead (emit v s).mem.outSyms k = if k = s.olen then some (symOfLevel v) else cellsRead s.mem.outSyms k :=
  cellsRead_memWriteOut _ _ _ _

/-- Reading IN depends on IN, the reset count and the instance only. -/
theorem memReadIn_congr {s t : State} (hm : t.mem.inBits = s.mem.inBits) (hr : t.resets = s.resets)
    (hp : t.params = s.params) (a : Nat) : memReadIn t a = memReadIn s a := by simp only [memReadIn, hm, hr, hp]

/-- Writing OUT leaves every bit of IN alone. -/
@[simp] theorem memReadIn_memWriteOut (j : Nat) (v : Int) (s : State) (a : Nat) :
    memReadIn (memWriteOut j v s) a = memReadIn s a := rfl

@[simp] theorem memReadIn_emit (v : Int) (s : State) (a : Nat) : memReadIn (emit v s) a = memReadIn s a := rfl

end Sys2Proof.Machine
end

