-- ==== Sys2Proof/Laws/Schemes.lean ====
section
/-! SUPPORT. Small laws of the tables and of the schemes' own steps. -/

namespace Sys2Proof.Machine

/-! ### The tables, command by command -/

@[simp] theorem groupSizeOf_ami (ic : BitVec 2) : groupSizeOf (.ami ic) = 1 := rfl
@[simp] theorem groupSizeOf_b8zs (ic : BitVec 2) : groupSizeOf (.b8zs ic) = 1 := rfl
@[simp] theorem groupSizeOf_pstern (ic : BitVec 2) : groupSizeOf (.pstern ic) = 1 := rfl
@[simp] theorem groupSizeOf_man (ic : BitVec 2) : groupSizeOf (.man ic) = 1 := rfl
@[simp] theorem groupSizeOf_dman (ic : BitVec 2) : groupSizeOf (.dman ic) = 1 := rfl
@[simp] theorem groupSizeOf_nrzu (ic : BitVec 2) : groupSizeOf (.nrzu ic) = 1 := rfl
@[simp] theorem groupSizeOf_nrzl (ic : BitVec 2) : groupSizeOf (.nrzl ic) = 1 := rfl
@[simp] theorem groupSizeOf_nrzi (ic : BitVec 2) : groupSizeOf (.nrzi ic) = 1 := rfl
@[simp] theorem groupSizeOf_rz (ic : BitVec 2) : groupSizeOf (.rz ic) = 1 := rfl
@[simp] theorem groupSizeOf_twoB1Q (ic : BitVec 2) : groupSizeOf (.twoB1Q ic) = 2 := rfl
@[simp] theorem groupSizeOf_mlt3 (ic : BitVec 2) : groupSizeOf (.mlt3 ic) = 1 := rfl
@[simp] theorem groupSizeOf_fourB5B (ic : BitVec 2) : groupSizeOf (.fourB5B ic) = 4 := rfl

@[simp] theorem outPerGroupOf_ami (ic : BitVec 2) : outPerGroupOf (.ami ic) = 1 := rfl
@[simp] theorem outPerGroupOf_b8zs (ic : BitVec 2) : outPerGroupOf (.b8zs ic) = 1 := rfl
@[simp] theorem outPerGroupOf_pstern (ic : BitVec 2) : outPerGroupOf (.pstern ic) = 1 := rfl
@[simp] theorem outPerGroupOf_man (ic : BitVec 2) : outPerGroupOf (.man ic) = 2 := rfl
@[simp] theorem outPerGroupOf_dman (ic : BitVec 2) : outPerGroupOf (.dman ic) = 2 := rfl
@[simp] theorem outPerGroupOf_nrzu (ic : BitVec 2) : outPerGroupOf (.nrzu ic) = 1 := rfl
@[simp] theorem outPerGroupOf_nrzl (ic : BitVec 2) : outPerGroupOf (.nrzl ic) = 1 := rfl
@[simp] theorem outPerGroupOf_nrzi (ic : BitVec 2) : outPerGroupOf (.nrzi ic) = 1 := rfl
@[simp] theorem outPerGroupOf_rz (ic : BitVec 2) : outPerGroupOf (.rz ic) = 2 := rfl
@[simp] theorem outPerGroupOf_twoB1Q (ic : BitVec 2) : outPerGroupOf (.twoB1Q ic) = 1 := rfl
@[simp] theorem outPerGroupOf_mlt3 (ic : BitVec 2) : outPerGroupOf (.mlt3 ic) = 1 := rfl
@[simp] theorem outPerGroupOf_fourB5B (ic : BitVec 2) : outPerGroupOf (.fourB5B ic) = 5 := rfl

/-! ### The AMI family's step -/

/-- On a mark bit the shared machine flips the polarity and emits it (R111). -/
theorem amiFamilyStep_mark {a b : Bool} {s : State} (h : groupBit 0 s = !b) : amiFamilyStep a b s = amiMark s := by
  have hc : (if b = true then !groupBit 0 s else groupBit 0 s) = true := by rw [h]; cases b <;> rfl
  have hz : (amiMark s).zeroRunLength = 0 := rfl
  simp only [amiFamilyStep, hc, if_true, hz]
  cases a <;> rfl

/-- On any other bit it emits 0, unless that completes a run of eight under substitution (R111). -/
theorem amiFamilyStep_space {a b : Bool} {s : State} (h : groupBit 0 s = b) (hr : a = false ∨ s.zeroRunLength ≠ 7) :
    amiFamilyStep a b s = amiSpace s := by
  have hc : (if b = true then !groupBit 0 s else groupBit 0 s) = false := by rw [h]; cases b <;> rfl
  have hz : (amiSpace s).zeroRunLength = s.zeroRunLength + 1 := rfl
  simp only [amiFamilyStep, hc, Bool.false_eq_true, if_false, hz]
  rcases hr with rfl | hr
  · rfl
  · rw [if_neg (by simp [hr])]

/-- The eighth zero under substitution is emitted and then the run is overwritten (R111, R112). -/
theorem amiFamilyStep_substitute {b : Bool} {s : State} (h : groupBit 0 s = b) (hr : s.zeroRunLength = 7) :
    amiFamilyStep true b s = substitute (amiSpace s) := by
  have hc : (if b = true then !groupBit 0 s else groupBit 0 s) = false := by rw [h]; cases b <;> rfl
  have hz : (amiSpace s).zeroRunLength = 8 := by simp [amiSpace, hr]
  simp only [amiFamilyStep, hc, Bool.false_eq_true, if_false, hz]
  rfl

@[simp] theorem amiMark_params (s : State) : (amiMark s).params = s.params := rfl
@[simp] theorem amiMark_cmd (s : State) : (amiMark s).cmd = s.cmd := rfl
@[simp] theorem amiMark_inLen (s : State) : (amiMark s).inLen = s.inLen := rfl
@[simp] theorem amiMark_status (s : State) : (amiMark s).status = s.status := rfl
@[simp] theorem amiMark_outLen (s : State) : (amiMark s).outLen = s.outLen := rfl
@[simp] theorem amiMark_cur (s : State) : (amiMark s).cur = s.cur := rfl
@[simp] theorem amiMark_olen (s : State) : (amiMark s).olen = s.olen + 1 := rfl
@[simp] theorem amiMark_len (s : State) : (amiMark s).len = s.len := rfl
@[simp] theorem amiMark_lastLevel (s : State) : (amiMark s).lastLevel = BitVec.ofInt 2 (-s.lastLevel.toInt) := rfl
@[simp] theorem amiMark_zeroRunLength (s : State) : (amiMark s).zeroRunLength = 0 := rfl
@[simp] theorem amiMark_level (s : State) : (amiMark s).level = s.level := rfl
@[simp] theorem amiMark_growing (s : State) : (amiMark s).growing = s.growing := rfl
@[simp] theorem amiMark_host (s : State) : (amiMark s).host = s.host := rfl
@[simp] theorem amiMark_got (s : State) : (amiMark s).got = s.got := rfl
@[simp] theorem amiMark_draws (s : State) : (amiMark s).draws = s.draws := rfl
@[simp] theorem amiMark_resets (s : State) : (amiMark s).resets = s.resets := rfl
@[simp] theorem amiMark_inBits (s : State) : (amiMark s).mem.inBits = s.mem.inBits := rfl

@[simp] theorem amiSpace_params (s : State) : (amiSpace s).params = s.params := rfl
@[simp] theorem amiSpace_cmd (s : State) : (amiSpace s).cmd = s.cmd := rfl
@[simp] theorem amiSpace_inLen (s : State) : (amiSpace s).inLen = s.inLen := rfl
@[simp] theorem amiSpace_status (s : State) : (amiSpace s).status = s.status := rfl
@[simp] theorem amiSpace_outLen (s : State) : (amiSpace s).outLen = s.outLen := rfl
@[simp] theorem amiSpace_cur (s : State) : (amiSpace s).cur = s.cur := rfl
@[simp] theorem amiSpace_olen (s : State) : (amiSpace s).olen = s.olen + 1 := rfl
@[simp] theorem amiSpace_len (s : State) : (amiSpace s).len = s.len := rfl
@[simp] theorem amiSpace_lastLevel (s : State) : (amiSpace s).lastLevel = s.lastLevel := rfl
@[simp] theorem amiSpace_zeroRunLength (s : State) : (amiSpace s).zeroRunLength = s.zeroRunLength + 1 := rfl
@[simp] theorem amiSpace_level (s : State) : (amiSpace s).level = s.level := rfl
@[simp] theorem amiSpace_growing (s : State) : (amiSpace s).growing = s.growing := rfl
@[simp] theorem amiSpace_host (s : State) : (amiSpace s).host = s.host := rfl
@[simp] theorem amiSpace_got (s : State) : (amiSpace s).got = s.got := rfl
@[simp] theorem amiSpace_draws (s : State) : (amiSpace s).draws = s.draws := rfl
@[simp] theorem amiSpace_resets (s : State) : (amiSpace s).resets = s.resets := rfl
@[simp] theorem amiSpace_inBits (s : State) : (amiSpace s).mem.inBits = s.mem.inBits := rfl

@[simp] theorem substitute_params (s : State) : (substitute s).params = s.params := rfl
@[simp] theorem substitute_cmd (s : State) : (substitute s).cmd = s.cmd := rfl
@[simp] theorem substitute_inLen (s : State) : (substitute s).inLen = s.inLen := rfl
@[simp] theorem substitute_status (s : State) : (substitute s).status = s.status := rfl
@[simp] theorem substitute_outLen (s : State) : (substitute s).outLen = s.outLen := rfl
@[simp] theorem substitute_cur (s : State) : (substitute s).cur = s.cur := rfl
@[simp] theorem substitute_olen (s : State) : (substitute s).olen = s.olen := rfl
@[simp] theorem substitute_len (s : State) : (substitute s).len = s.len := rfl
@[simp] theorem substitute_lastLevel (s : State) : (substitute s).lastLevel = s.lastLevel := rfl
@[simp] theorem substitute_zeroRunLength (s : State) : (substitute s).zeroRunLength = 0 := rfl
@[simp] theorem substitute_level (s : State) : (substitute s).level = s.level := rfl
@[simp] theorem substitute_growing (s : State) : (substitute s).growing = s.growing := rfl
@[simp] theorem substitute_host (s : State) : (substitute s).host = s.host := rfl
@[simp] theorem substitute_got (s : State) : (substitute s).got = s.got := rfl
@[simp] theorem substitute_draws (s : State) : (substitute s).draws = s.draws := rfl
@[simp] theorem substitute_resets (s : State) : (substitute s).resets = s.resets := rfl
@[simp] theorem substitute_inBits (s : State) : (substitute s).mem.inBits = s.mem.inBits := rfl

/-! ### The level schemes' steps -/

/-- What the flip of R132 does to `level`, and that it does nothing else. -/
theorem dmanFlip_eq (s : State) :
    dmanFlip s = { s with level := if groupBit 0 s then s.level else BitVec.ofInt 3 (1 - s.level.toInt) } := by
  simp only [dmanFlip]; split <;> rfl

/-- What the flip of R142 does to `level`, and that it does nothing else. -/
theorem nrziFlip_eq (s : State) :
    nrziFlip s = { s with level := if groupBit 0 s then s.level else BitVec.ofInt 3 (1 - s.level.toInt) } := by
  simp only [nrziFlip]; split <;> rfl

/-- MLT-3's move writes `level` and `growing` and nothing else (R166). -/
theorem mlt3Move_eq (s : State) :
    mlt3Move s = { s with level := (mlt3Move s).level, growing := (mlt3Move s).growing } := by
  simp only [mlt3Move]
  generalize s.level.toInt + _ = v
  split <;> rfl

/-! ### Which fields each scheme's step leaves alone, and what it does to `olen` -/

@[simp] theorem manStep_params (s : State) : (manStep s).params = s.params := by
  simp only [manStep, emit_params]
@[simp] theorem manStep_cmd (s : State) : (manStep s).cmd = s.cmd := by
  simp only [manStep, emit_cmd]
@[simp] theorem manStep_inLen (s : State) : (manStep s).inLen = s.inLen := by
  simp only [manStep, emit_inLen]
@[simp] theorem manStep_status (s : State) : (manStep s).status = s.status := by
  simp only [manStep, emit_status]
@[simp] theorem manStep_outLen (s : State) : (manStep s).outLen = s.outLen := by
  simp only [manStep, emit_outLen]
@[simp] theorem manStep_cur (s : State) : (manStep s).cur = s.cur := by
  simp only [manStep, emit_cur]
@[simp] theorem manStep_len (s : State) : (manStep s).len = s.len := by
  simp only [manStep, emit_len]
@[simp] theorem manStep_lastLevel (s : State) : (manStep s).lastLevel = s.lastLevel := by
  simp only [manStep, emit_lastLevel]
@[simp] theorem manStep_zeroRunLength (s : State) : (manStep s).zeroRunLength = s.zeroRunLength := by
  simp only [manStep, emit_zeroRunLength]
@[simp] theorem manStep_level (s : State) : (manStep s).level = s.level := by
  simp only [manStep, emit_level]
@[simp] theorem manStep_growing (s : State) : (manStep s).growing = s.growing := by
  simp only [manStep, emit_growing]
@[simp] theorem manStep_host (s : State) : (manStep s).host = s.host := by
  simp only [manStep, emit_host]
@[simp] theorem manStep_got (s : State) : (manStep s).got = s.got := by
  simp only [manStep, emit_got]
@[simp] theorem manStep_draws (s : State) : (manStep s).draws = s.draws := by
  simp only [manStep, emit_draws]
@[simp] theorem manStep_resets (s : State) : (manStep s).resets = s.resets := by
  simp only [manStep, emit_resets]
@[simp] theorem manStep_olen (s : State) : (manStep s).olen = s.olen + 2 := by
  simp only [manStep, emit_olen]

@[simp] theorem dmanStep_params (s : State) : (dmanStep s).params = s.params := by
  simp only [dmanStep, emit_params, dmanFlip_eq]
@[simp] theorem dmanStep_cmd (s : State) : (dmanStep s).cmd = s.cmd := by
  simp only [dmanStep, emit_cmd, dmanFlip_eq]
@[simp] theorem dmanStep_inLen (s : State) : (dmanStep s).inLen = s.inLen := by
  simp only [dmanStep, emit_inLen, dmanFlip_eq]
@[simp] theorem dmanStep_status (s : State) : (dmanStep s).status = s.status := by
  simp only [dmanStep, emit_status, dmanFlip_eq]
@[simp] theorem dmanStep_outLen (s : State) : (dmanStep s).outLen = s.outLen := by
  simp only [dmanStep, emit_outLen, dmanFlip_eq]
@[simp] theorem dmanStep_cur (s : State) : (dmanStep s).cur = s.cur := by
  simp only [dmanStep, emit_cur, dmanFlip_eq]
@[simp] theorem dmanStep_len (s : State) : (dmanStep s).len = s.len := by
  simp only [dmanStep, emit_len, dmanFlip_eq]
@[simp] theorem dmanStep_lastLevel (s : State) : (dmanStep s).lastLevel = s.lastLevel := by
  simp only [dmanStep, emit_lastLevel, dmanFlip_eq]
@[simp] theorem dmanStep_zeroRunLength (s : State) : (dmanStep s).zeroRunLength = s.zeroRunLength := by
  simp only [dmanStep, emit_zeroRunLength, dmanFlip_eq]
@[simp] theorem dmanStep_growing (s : State) : (dmanStep s).growing = s.growing := by
  simp only [dmanStep, emit_growing, dmanFlip_eq]
@[simp] theorem dmanStep_host (s : State) : (dmanStep s).host = s.host := by
  simp only [dmanStep, emit_host, dmanFlip_eq]
@[simp] theorem dmanStep_got (s : State) : (dmanStep s).got = s.got := by
  simp only [dmanStep, emit_got, dmanFlip_eq]
@[simp] theorem dmanStep_draws (s : State) : (dmanStep s).draws = s.draws := by
  simp only [dmanStep, emit_draws, dmanFlip_eq]
@[simp] theorem dmanStep_resets (s : State) : (dmanStep s).resets = s.resets := by
  simp only [dmanStep, emit_resets, dmanFlip_eq]
@[simp] theorem dmanStep_olen (s : State) : (dmanStep s).olen = s.olen + 2 := by
  simp only [dmanStep, emit_olen, dmanFlip_eq]

@[simp] theorem nrzuStep_params (s : State) : (nrzuStep s).params = s.params := by
  simp only [nrzuStep, emit_params]
@[simp] theorem nrzuStep_cmd (s : State) : (nrzuStep s).cmd = s.cmd := by
  simp only [nrzuStep, emit_cmd]
@[simp] theorem nrzuStep_inLen (s : State) : (nrzuStep s).inLen = s.inLen := by
  simp only [nrzuStep, emit_inLen]
@[simp] theorem nrzuStep_status (s : State) : (nrzuStep s).status = s.status := by
  simp only [nrzuStep, emit_status]
@[simp] theorem nrzuStep_outLen (s : State) : (nrzuStep s).outLen = s.outLen := by
  simp only [nrzuStep, emit_outLen]
@[simp] theorem nrzuStep_cur (s : State) : (nrzuStep s).cur = s.cur := by
  simp only [nrzuStep, emit_cur]
@[simp] theorem nrzuStep_len (s : State) : (nrzuStep s).len = s.len := by
  simp only [nrzuStep, emit_len]
@[simp] theorem nrzuStep_lastLevel (s : State) : (nrzuStep s).lastLevel = s.lastLevel := by
  simp only [nrzuStep, emit_lastLevel]
@[simp] theorem nrzuStep_zeroRunLength (s : State) : (nrzuStep s).zeroRunLength = s.zeroRunLength := by
  simp only [nrzuStep, emit_zeroRunLength]
@[simp] theorem nrzuStep_level (s : State) : (nrzuStep s).level = s.level := by
  simp only [nrzuStep, emit_level]
@[simp] theorem nrzuStep_growing (s : State) : (nrzuStep s).growing = s.growing := by
  simp only [nrzuStep, emit_growing]
@[simp] theorem nrzuStep_host (s : State) : (nrzuStep s).host = s.host := by
  simp only [nrzuStep, emit_host]
@[simp] theorem nrzuStep_got (s : State) : (nrzuStep s).got = s.got := by
  simp only [nrzuStep, emit_got]
@[simp] theorem nrzuStep_draws (s : State) : (nrzuStep s).draws = s.draws := by
  simp only [nrzuStep, emit_draws]
@[simp] theorem nrzuStep_resets (s : State) : (nrzuStep s).resets = s.resets := by
  simp only [nrzuStep, emit_resets]
@[simp] theorem nrzuStep_olen (s : State) : (nrzuStep s).olen = s.olen + 1 := by
  simp only [nrzuStep, emit_olen]

@[simp] theorem nrzlStep_params (s : State) : (nrzlStep s).params = s.params := by
  simp only [nrzlStep, emit_params]
@[simp] theorem nrzlStep_cmd (s : State) : (nrzlStep s).cmd = s.cmd := by
  simp only [nrzlStep, emit_cmd]
@[simp] theorem nrzlStep_inLen (s : State) : (nrzlStep s).inLen = s.inLen := by
  simp only [nrzlStep, emit_inLen]
@[simp] theorem nrzlStep_status (s : State) : (nrzlStep s).status = s.status := by
  simp only [nrzlStep, emit_status]
@[simp] theorem nrzlStep_outLen (s : State) : (nrzlStep s).outLen = s.outLen := by
  simp only [nrzlStep, emit_outLen]
@[simp] theorem nrzlStep_cur (s : State) : (nrzlStep s).cur = s.cur := by
  simp only [nrzlStep, emit_cur]
@[simp] theorem nrzlStep_len (s : State) : (nrzlStep s).len = s.len := by
  simp only [nrzlStep, emit_len]
@[simp] theorem nrzlStep_lastLevel (s : State) : (nrzlStep s).lastLevel = s.lastLevel := by
  simp only [nrzlStep, emit_lastLevel]
@[simp] theorem nrzlStep_zeroRunLength (s : State) : (nrzlStep s).zeroRunLength = s.zeroRunLength := by
  simp only [nrzlStep, emit_zeroRunLength]
@[simp] theorem nrzlStep_level (s : State) : (nrzlStep s).level = s.level := by
  simp only [nrzlStep, emit_level]
@[simp] theorem nrzlStep_growing (s : State) : (nrzlStep s).growing = s.growing := by
  simp only [nrzlStep, emit_growing]
@[simp] theorem nrzlStep_host (s : State) : (nrzlStep s).host = s.host := by
  simp only [nrzlStep, emit_host]
@[simp] theorem nrzlStep_got (s : State) : (nrzlStep s).got = s.got := by
  simp only [nrzlStep, emit_got]
@[simp] theorem nrzlStep_draws (s : State) : (nrzlStep s).draws = s.draws := by
  simp only [nrzlStep, emit_draws]
@[simp] theorem nrzlStep_resets (s : State) : (nrzlStep s).resets = s.resets := by
  simp only [nrzlStep, emit_resets]
@[simp] theorem nrzlStep_olen (s : State) : (nrzlStep s).olen = s.olen + 1 := by
  simp only [nrzlStep, emit_olen]

@[simp] theorem nrziStep_params (s : State) : (nrziStep s).params = s.params := by
  simp only [nrziStep, emit_params, nrziFlip_eq]
@[simp] theorem nrziStep_cmd (s : State) : (nrziStep s).cmd = s.cmd := by
  simp only [nrziStep, emit_cmd, nrziFlip_eq]
@[simp] theorem nrziStep_inLen (s : State) : (nrziStep s).inLen = s.inLen := by
  simp only [nrziStep, emit_inLen, nrziFlip_eq]
@[simp] theorem nrziStep_status (s : State) : (nrziStep s).status = s.status := by
  simp only [nrziStep, emit_status, nrziFlip_eq]
@[simp] theorem nrziStep_outLen (s : State) : (nrziStep s).outLen = s.outLen := by
  simp only [nrziStep, emit_outLen, nrziFlip_eq]
@[simp] theorem nrziStep_cur (s : State) : (nrziStep s).cur = s.cur := by
  simp only [nrziStep, emit_cur, nrziFlip_eq]
@[simp] theorem nrziStep_len (s : State) : (nrziStep s).len = s.len := by
  simp only [nrziStep, emit_len, nrziFlip_eq]
@[simp] theorem nrziStep_lastLevel (s : State) : (nrziStep s).lastLevel = s.lastLevel := by
  simp only [nrziStep, emit_lastLevel, nrziFlip_eq]
@[simp] theorem nrziStep_zeroRunLength (s : State) : (nrziStep s).zeroRunLength = s.zeroRunLength := by
  simp only [nrziStep, emit_zeroRunLength, nrziFlip_eq]
@[simp] theorem nrziStep_growing (s : State) : (nrziStep s).growing = s.growing := by
  simp only [nrziStep, emit_growing, nrziFlip_eq]
@[simp] theorem nrziStep_host (s : State) : (nrziStep s).host = s.host := by
  simp only [nrziStep, emit_host, nrziFlip_eq]
@[simp] theorem nrziStep_got (s : State) : (nrziStep s).got = s.got := by
  simp only [nrziStep, emit_got, nrziFlip_eq]
@[simp] theorem nrziStep_draws (s : State) : (nrziStep s).draws = s.draws := by
  simp only [nrziStep, emit_draws, nrziFlip_eq]
@[simp] theorem nrziStep_resets (s : State) : (nrziStep s).resets = s.resets := by
  simp only [nrziStep, emit_resets, nrziFlip_eq]
@[simp] theorem nrziStep_olen (s : State) : (nrziStep s).olen = s.olen + 1 := by
  simp only [nrziStep, emit_olen, nrziFlip_eq]

@[simp] theorem rzStep_params (s : State) : (rzStep s).params = s.params := by
  simp only [rzStep, emit_params]
@[simp] theorem rzStep_cmd (s : State) : (rzStep s).cmd = s.cmd := by
  simp only [rzStep, emit_cmd]
@[simp] theorem rzStep_inLen (s : State) : (rzStep s).inLen = s.inLen := by
  simp only [rzStep, emit_inLen]
@[simp] theorem rzStep_status (s : State) : (rzStep s).status = s.status := by
  simp only [rzStep, emit_status]
@[simp] theorem rzStep_outLen (s : State) : (rzStep s).outLen = s.outLen := by
  simp only [rzStep, emit_outLen]
@[simp] theorem rzStep_cur (s : State) : (rzStep s).cur = s.cur := by
  simp only [rzStep, emit_cur]
@[simp] theorem rzStep_len (s : State) : (rzStep s).len = s.len := by
  simp only [rzStep, emit_len]
@[simp] theorem rzStep_lastLevel (s : State) : (rzStep s).lastLevel = s.lastLevel := by
  simp only [rzStep, emit_lastLevel]
@[simp] theorem rzStep_zeroRunLength (s : State) : (rzStep s).zeroRunLength = s.zeroRunLength := by
  simp only [rzStep, emit_zeroRunLength]
@[simp] theorem rzStep_level (s : State) : (rzStep s).level = s.level := by
  simp only [rzStep, emit_level]
@[simp] theorem rzStep_growing (s : State) : (rzStep s).growing = s.growing := by
  simp only [rzStep, emit_growing]
@[simp] theorem rzStep_host (s : State) : (rzStep s).host = s.host := by
  simp only [rzStep, emit_host]
@[simp] theorem rzStep_got (s : State) : (rzStep s).got = s.got := by
  simp only [rzStep, emit_got]
@[simp] theorem rzStep_draws (s : State) : (rzStep s).draws = s.draws := by
  simp only [rzStep, emit_draws]
@[simp] theorem rzStep_resets (s : State) : (rzStep s).resets = s.resets := by
  simp only [rzStep, emit_resets]
@[simp] theorem rzStep_olen (s : State) : (rzStep s).olen = s.olen + 2 := by
  simp only [rzStep, emit_olen]

@[simp] theorem twoB1QStep_params (s : State) : (twoB1QStep s).params = s.params := by
  simp only [twoB1QStep, emit_params]
@[simp] theorem twoB1QStep_cmd (s : State) : (twoB1QStep s).cmd = s.cmd := by
  simp only [twoB1QStep, emit_cmd]
@[simp] theorem twoB1QStep_inLen (s : State) : (twoB1QStep s).inLen = s.inLen := by
  simp only [twoB1QStep, emit_inLen]
@[simp] theorem twoB1QStep_status (s : State) : (twoB1QStep s).status = s.status := by
  simp only [twoB1QStep, emit_status]
@[simp] theorem twoB1QStep_outLen (s : State) : (twoB1QStep s).outLen = s.outLen := by
  simp only [twoB1QStep, emit_outLen]
@[simp] theorem twoB1QStep_cur (s : State) : (twoB1QStep s).cur = s.cur := by
  simp only [twoB1QStep, emit_cur]
@[simp] theorem twoB1QStep_len (s : State) : (twoB1QStep s).len = s.len := by
  simp only [twoB1QStep, emit_len]
@[simp] theorem twoB1QStep_lastLevel (s : State) : (twoB1QStep s).lastLevel = s.lastLevel := by
  simp only [twoB1QStep, emit_lastLevel]
@[simp] theorem twoB1QStep_zeroRunLength (s : State) : (twoB1QStep s).zeroRunLength = s.zeroRunLength := by
  simp only [twoB1QStep, emit_zeroRunLength]
@[simp] theorem twoB1QStep_level (s : State) : (twoB1QStep s).level = s.level := by
  simp only [twoB1QStep, emit_level]
@[simp] theorem twoB1QStep_growing (s : State) : (twoB1QStep s).growing = s.growing := by
  simp only [twoB1QStep, emit_growing]
@[simp] theorem twoB1QStep_host (s : State) : (twoB1QStep s).host = s.host := by
  simp only [twoB1QStep, emit_host]
@[simp] theorem twoB1QStep_got (s : State) : (twoB1QStep s).got = s.got := by
  simp only [twoB1QStep, emit_got]
@[simp] theorem twoB1QStep_draws (s : State) : (twoB1QStep s).draws = s.draws := by
  simp only [twoB1QStep, emit_draws]
@[simp] theorem twoB1QStep_resets (s : State) : (twoB1QStep s).resets = s.resets := by
  simp only [twoB1QStep, emit_resets]
@[simp] theorem twoB1QStep_olen (s : State) : (twoB1QStep s).olen = s.olen + 1 := by
  simp only [twoB1QStep, emit_olen]

@[simp] theorem mlt3Step_params (s : State) : (mlt3Step s).params = s.params := by
  simp only [mlt3Step, emit_params]; split <;> [rw [mlt3Move_eq]; rfl]
@[simp] theorem mlt3Step_cmd (s : State) : (mlt3Step s).cmd = s.cmd := by
  simp only [mlt3Step, emit_cmd]; split <;> [rw [mlt3Move_eq]; rfl]
@[simp] theorem mlt3Step_inLen (s : State) : (mlt3Step s).inLen = s.inLen := by
  simp only [mlt3Step, emit_inLen]; split <;> [rw [mlt3Move_eq]; rfl]
@[simp] theorem mlt3Step_status (s : State) : (mlt3Step s).status = s.status := by
  simp only [mlt3Step, emit_status]; split <;> [rw [mlt3Move_eq]; rfl]
@[simp] theorem mlt3Step_outLen (s : State) : (mlt3Step s).outLen = s.outLen := by
  simp only [mlt3Step, emit_outLen]; split <;> [rw [mlt3Move_eq]; rfl]
@[simp] theorem mlt3Step_cur (s : State) : (mlt3Step s).cur = s.cur := by
  simp only [mlt3Step, emit_cur]; split <;> [rw [mlt3Move_eq]; rfl]
@[simp] theorem mlt3Step_len (s : State) : (mlt3Step s).len = s.len := by
  simp only [mlt3Step, emit_len]; split <;> [rw [mlt3Move_eq]; rfl]
@[simp] theorem mlt3Step_lastLevel (s : State) : (mlt3Step s).lastLevel = s.lastLevel := by
  simp only [mlt3Step, emit_lastLevel]; split <;> [rw [mlt3Move_eq]; rfl]
@[simp] theorem mlt3Step_zeroRunLength (s : State) : (mlt3Step s).zeroRunLength = s.zeroRunLength := by
  simp only [mlt3Step, emit_zeroRunLength]; split <;> [rw [mlt3Move_eq]; rfl]
@[simp] theorem mlt3Step_host (s : State) : (mlt3Step s).host = s.host := by
  simp only [mlt3Step, emit_host]; split <;> [rw [mlt3Move_eq]; rfl]
@[simp] theorem mlt3Step_got (s : State) : (mlt3Step s).got = s.got := by
  simp only [mlt3Step, emit_got]; split <;> [rw [mlt3Move_eq]; rfl]
@[simp] theorem mlt3Step_draws (s : State) : (mlt3Step s).draws = s.draws := by
  simp only [mlt3Step, emit_draws]; split <;> [rw [mlt3Move_eq]; rfl]
@[simp] theorem mlt3Step_resets (s : State) : (mlt3Step s).resets = s.resets := by
  simp only [mlt3Step, emit_resets]; split <;> [rw [mlt3Move_eq]; rfl]
@[simp] theorem mlt3Step_olen (s : State) : (mlt3Step s).olen = s.olen + 1 := by
  simp only [mlt3Step, emit_olen]; split <;> [rw [mlt3Move_eq]; rfl]

@[simp] theorem fourB5BStep_params (s : State) : (fourB5BStep s).params = s.params := by
  simp only [fourB5BStep, emit_params]
@[simp] theorem fourB5BStep_cmd (s : State) : (fourB5BStep s).cmd = s.cmd := by
  simp only [fourB5BStep, emit_cmd]
@[simp] theorem fourB5BStep_inLen (s : State) : (fourB5BStep s).inLen = s.inLen := by
  simp only [fourB5BStep, emit_inLen]
@[simp] theorem fourB5BStep_status (s : State) : (fourB5BStep s).status = s.status := by
  simp only [fourB5BStep, emit_status]
@[simp] theorem fourB5BStep_outLen (s : State) : (fourB5BStep s).outLen = s.outLen := by
  simp only [fourB5BStep, emit_outLen]
@[simp] theorem fourB5BStep_cur (s : State) : (fourB5BStep s).cur = s.cur := by
  simp only [fourB5BStep, emit_cur]
@[simp] theorem fourB5BStep_len (s : State) : (fourB5BStep s).len = s.len := by
  simp only [fourB5BStep, emit_len]
@[simp] theorem fourB5BStep_lastLevel (s : State) : (fourB5BStep s).lastLevel = s.lastLevel := by
  simp only [fourB5BStep, emit_lastLevel]
@[simp] theorem fourB5BStep_zeroRunLength (s : State) : (fourB5BStep s).zeroRunLength = s.zeroRunLength := by
  simp only [fourB5BStep, emit_zeroRunLength]
@[simp] theorem fourB5BStep_level (s : State) : (fourB5BStep s).level = s.level := by
  simp only [fourB5BStep, emit_level]
@[simp] theorem fourB5BStep_growing (s : State) : (fourB5BStep s).growing = s.growing := by
  simp only [fourB5BStep, emit_growing]
@[simp] theorem fourB5BStep_host (s : State) : (fourB5BStep s).host = s.host := by
  simp only [fourB5BStep, emit_host]
@[simp] theorem fourB5BStep_got (s : State) : (fourB5BStep s).got = s.got := by
  simp only [fourB5BStep, emit_got]
@[simp] theorem fourB5BStep_draws (s : State) : (fourB5BStep s).draws = s.draws := by
  simp only [fourB5BStep, emit_draws]
@[simp] theorem fourB5BStep_resets (s : State) : (fourB5BStep s).resets = s.resets := by
  simp only [fourB5BStep, emit_resets]
@[simp] theorem fourB5BStep_olen (s : State) : (fourB5BStep s).olen = s.olen + 5 := by
  simp only [fourB5BStep, emit_olen]

theorem dmanStep_level (s : State) :
    (dmanStep s).level = if groupBit 0 s then s.level else BitVec.ofInt 3 (1 - s.level.toInt) := by
  simp only [dmanStep, emit_level, dmanFlip_eq]

theorem nrziStep_level (s : State) :
    (nrziStep s).level = if groupBit 0 s then s.level else BitVec.ofInt 3 (1 - s.level.toInt) := by
  simp only [nrziStep, emit_level, nrziFlip_eq]

theorem mlt3Step_level (s : State) : (mlt3Step s).level = if groupBit 0 s then (mlt3Move s).level else s.level := by
  simp only [mlt3Step, emit_level]; split <;> rfl

theorem mlt3Step_growing (s : State) :
    (mlt3Step s).growing = if groupBit 0 s then (mlt3Move s).growing else s.growing := by
  simp only [mlt3Step, emit_growing]; split <;> rfl

end Sys2Proof.Machine
end

