-- ==== Sys2Proof/Laws/Call.lean ====
section
/-! SUPPORT. What the shared operations of a call can do: the start, one group's step, the loop and the end. -/

namespace Sys2Proof.Machine

/-! ### Levels and the output so far -/

/-- A level of -4..+3 is read back as it was stored (R41, R77). -/
theorem levelOfSym_symOfLevel {v : Int} (h : -4 ≤ v ∧ v ≤ 3) : levelOfSym (symOfLevel v) = v := by
  simp only [levelOfSym, symOfLevel, BitVec.toInt_ofInt]
  simp only [Int.bmod]
  omega

/-- OUT holds the levels `ls` at 0, 1, … and nothing else, in canonical form, and `olen` counts them. -/
def outHolds (ls : List Int) (s : State) : Prop :=
  cellsWf s.mem.outSyms = true ∧ s.olen = ls.length ∧ (∀ j, cellsRead s.mem.outSyms j = ls[j]?.map symOfLevel) ∧
    ∀ v ∈ ls, -4 ≤ v ∧ v ≤ 3

theorem outHolds_openCall (s : State) : outHolds [] (openCall s) := by
  refine ⟨rfl, rfl, fun j => ?_, by simp⟩
  simp [cellsRead]

/-- `outHolds` looks at OUT and `olen` only. -/
theorem outHolds_congr {ls : List Int} {s t : State} (h : outHolds ls s) (hm : t.mem.outSyms = s.mem.outSyms)
    (ho : t.olen = s.olen) : outHolds ls t := by
  obtain ⟨a, b, c, d⟩ := h
  exact ⟨by rw [hm]; exact a, by rw [ho]; exact b, fun j => by rw [hm]; exact c j, d⟩

/-- `emit` appends. -/
theorem outHolds_emit {ls : List Int} {s : State} {v : Int} (h : outHolds ls s) (hv : -4 ≤ v ∧ v ≤ 3) :
    outHolds (ls ++ [v]) (emit v s) := by
  obtain ⟨a, b, c, d⟩ := h
  refine ⟨cellsWf_cellsWrite _ _ _ a, by simp [b], fun j => ?_, ?_⟩
  · rw [cellsRead_emit, b]
    split
    · next hj => subst hj; simp
    · next hj =>
      rw [c j]
      rcases Nat.lt_or_ge j ls.length with hlt | hge
      · rw [List.getElem?_append_left hlt]
      · rw [List.getElem?_eq_none hge, List.getElem?_eq_none (by simp; omega)]
  · intro w hw
    rcases List.mem_append.mp hw with hw | hw
    · exact d w hw
    · rw [List.mem_singleton.mp hw]; exact hv

/-- `MemWrite` at a position that holds a symbol replaces it. -/
theorem outHolds_memWriteOut {ls : List Int} {s : State} {j : Nat} {v : Int} (h : outHolds ls s) (hj : j < ls.length)
    (hv : -4 ≤ v ∧ v ≤ 3) : outHolds (ls.set j v) (memWriteOut j v s) := by
  obtain ⟨a, b, c, d⟩ := h
  refine ⟨cellsWf_cellsWrite _ _ _ a, by simp [b], fun k => ?_, ?_⟩
  · rw [cellsRead_memWriteOut, List.getElem?_set]
    by_cases hk : j = k
    · subst hk; simp [hj]
    · rw [if_neg (fun e => hk e.symm), if_neg hk]; exact c k
  · intro w hw
    rcases List.mem_or_eq_of_mem_set hw with hw | hw
    · exact d w hw
    · rw [hw]; exact hv

/-- The indices OUT holds symbols at. -/
theorem outHolds_filled {ls : List Int} {s : State} (h : outHolds ls s) : outFilled ls.length s := by
  intro j
  rw [h.2.2.1 j]
  rcases Nat.lt_or_ge j ls.length with hlt | hge
  · simp [hlt]
  · simp [List.getElem?_eq_none hge]; omega

/-- What the host reads of the output so far. -/
theorem outHolds_read {ls : List Int} {s : State} (h : outHolds ls s) {j : Nat} (hj : j < ls.length) :
    outLevel s j = ls[j] := by
  have hr : cellsRead s.mem.outSyms j = some (symOfLevel ls[j]) := by rw [h.2.2.1 j]; simp [hj]
  simp only [outLevel, memReadOut, hr, Option.getD_some]
  exact levelOfSym_symOfLevel (h.2.2.2 _ (List.getElem_mem hj))

/-- The levels of a call that has ended. -/
theorem outHolds_outLevels {ls : List Int} {s : State} (h : outHolds ls s) (ho : s.outLen = ls.length) :
    outLevels s = ls := by
  apply List.ext_getElem
  · simp [outLevels, ho]
  · intro j h1 h2
    simp only [outLevels, List.getElem_map, List.getElem_range]
    exact outHolds_read h h2

/-! ### What a scheme's own functions leave alone -/

/-- Everything but OUT, `olen` and the scheme state registers is the same (R38). -/
def schemeFrame (s t : State) : Prop :=
  t.params = s.params ∧ t.cmd = s.cmd ∧ t.inLen = s.inLen ∧ t.status = s.status ∧ t.outLen = s.outLen ∧ t.cur = s.cur ∧
    t.len = s.len ∧ t.mem.inBits = s.mem.inBits ∧ t.host = s.host ∧ t.got = s.got ∧ t.draws = s.draws ∧
    t.resets = s.resets

theorem schemeFrame_refl (s : State) : schemeFrame s s := ⟨rfl, rfl, rfl, rfl, rfl, rfl, rfl, rfl, rfl, rfl, rfl, rfl⟩

theorem schemeFrame_memWriteOut {s t : State} (j : Nat) (v : Int) (h : schemeFrame s t) :
    schemeFrame s (memWriteOut j v t) := h

theorem schemeFrame_emit {s t : State} (v : Int) (h : schemeFrame s t) : schemeFrame s (emit v t) := h

theorem schemeFrame_setLastLevel {s t : State} (v : Int) (h : schemeFrame s t) : schemeFrame s (setLastLevel v t) := h

theorem schemeFrame_setZeroRunLength {s t : State} (v : Nat) (h : schemeFrame s t) :
    schemeFrame s (setZeroRunLength v t) := h

theorem schemeFrame_setLevel {s t : State} (v : Int) (h : schemeFrame s t) : schemeFrame s (setLevel v t) := h

theorem schemeFrame_setGrowing {s t : State} (v : Bool) (h : schemeFrame s t) : schemeFrame s (setGrowing v t) := h

theorem schemeFrame_substitute {s t : State} (h : schemeFrame s t) : schemeFrame s (substitute t) :=
  schemeFrame_setZeroRunLength _ (schemeFrame_memWriteOut _ _ (schemeFrame_memWriteOut _ _
    (schemeFrame_memWriteOut _ _ (schemeFrame_memWriteOut _ _ h))))

/-- The shared AMI machine's step writes only OUT, `olen` and its two registers. -/
theorem schemeFrame_amiFamilyStep (a b : Bool) (s : State) : schemeFrame s (amiFamilyStep a b s) := by
  have hm : schemeFrame s (amiMark s) :=
    schemeFrame_emit _ (schemeFrame_setLastLevel _ (schemeFrame_setZeroRunLength _ (schemeFrame_refl s)))
  have hs : schemeFrame s (amiSpace s) := schemeFrame_emit _ (schemeFrame_setZeroRunLength _ (schemeFrame_refl s))
  by_cases h : groupBit 0 s = b
  · by_cases hr : a = false ∨ s.zeroRunLength ≠ 7
    · rw [amiFamilyStep_space h hr]; exact hs
    · have ha : a = true := by cases a <;> simp_all
      subst ha
      rw [amiFamilyStep_substitute h (by simpa using hr)]
      exact schemeFrame_substitute hs
  · rw [amiFamilyStep_mark (by cases b <;> simp_all)]; exact hm

/-- A scheme's step writes only OUT, `olen` and its registers (R38, R56). -/
theorem transform_step_frame (i : Instr) (s : State) : schemeFrame s ((transformOf i).step s) := by
  cases i with
  | ami => exact schemeFrame_amiFamilyStep _ _ _
  | b8zs => exact schemeFrame_amiFamilyStep _ _ _
  | pstern => exact schemeFrame_amiFamilyStep _ _ _
  | man => exact schemeFrame_emit _ (schemeFrame_emit _ (schemeFrame_refl s))
  | dman =>
    refine schemeFrame_emit _ (schemeFrame_emit _ ?_)
    simp only [dmanFlip]; split <;> exact schemeFrame_refl s
  | nrzu => exact schemeFrame_emit _ (schemeFrame_refl s)
  | nrzl => exact schemeFrame_emit _ (schemeFrame_refl s)
  | nrzi =>
    refine schemeFrame_emit _ ?_
    simp only [nrziFlip]; split <;> exact schemeFrame_refl s
  | rz => exact schemeFrame_emit _ (schemeFrame_emit _ (schemeFrame_refl s))
  | twoB1Q => exact schemeFrame_emit _ (schemeFrame_refl s)
  | mlt3 =>
    refine schemeFrame_emit _ ?_
    split
    · rw [mlt3Move_eq]; exact schemeFrame_refl s
    · exact schemeFrame_refl s
  | fourB5B =>
    exact schemeFrame_emit _ (schemeFrame_emit _ (schemeFrame_emit _ (schemeFrame_emit _
      (schemeFrame_emit _ (schemeFrame_refl s)))))

/-- A scheme's initialisation writes only its registers. -/
theorem transform_init_frame (i : Instr) (s : State) :
    schemeFrame s ((transformOf i).init s) ∧ ((transformOf i).init s).olen = s.olen ∧
      ((transformOf i).init s).mem = s.mem := by
  cases i <;> exact ⟨schemeFrame_refl s, rfl, rfl⟩

/-- Giving up a scheme's registers writes only them. -/
theorem transform_release_frame (i : Instr) (s : State) :
    schemeFrame s ((transformOf i).release s) ∧ ((transformOf i).release s).olen = s.olen ∧
      ((transformOf i).release s).mem = s.mem := by
  cases i <;> exact ⟨schemeFrame_refl s, rfl, rfl⟩

/-- The group size of a transform is DESC's (R104). -/
theorem transform_group (i : Instr) : (transformOf i).group = groupSizeOf i := by cases i <;> rfl

/-- Every scheme consumes at least one bit a step. -/
theorem groupSizeOf_pos (i : Instr) : 0 < groupSizeOf i := by
  cases i <;> simp

/-- Every command's meaning is the call of R104 with its scheme's transform. -/
theorem exec_eq_runCall (i : Instr) (s : State) : exec i s = runCall (transformOf i) s := by cases i <;> rfl

/-! ### The start, the loop and the end -/

/-- The start of a call: what it needs, and the state it answers. -/
theorem startCall_next {t : Transform} {s u : State} :
    startCall t s = .next u ↔ t.check s = none ∧ s.inLen ≤ s.params.maxInLen ∧ u = t.init (openCall s) := by
  simp only [startCall]
  split
  · next h => simp [h]
  · next h =>
    split
    · next hlt => simp only [reduceCtorEq, false_iff]; omega
    · next hge => simp only [Host.Outcome.next.injEq, h, true_and]; exact ⟨fun e => ⟨by omega, e.symm⟩, fun e => e.2.symm⟩

/-- The end of a call: what it needs, and the state it answers. -/
theorem closeCall_next {t : Transform} {s u : State} :
    closeCall t s = .next u ↔ (s.cur < s.len → t.remainder = none) ∧ u = endCall t.release s := by
  simp only [closeCall]
  split
  · next h =>
    cases hr : t.remainder with
    | none => simp [h, eq_comm]
    | some r => simp [h]
  · next h => simp [h, eq_comm]

/-- A call never faults. -/
theorem runCall_not_fault (t : Transform) (s : State) (r : Fault) : runCall t s ≠ .fault r := by
  simp only [runCall, startCall]
  split
  · simp only [closeCall]; split <;> [(split <;> simp); simp]
  · next h => revert h; split <;> [simp; (split <;> simp)]
  · simp

/-- The state in which a call's loop starts. -/
theorem init_openCall_frame (i : Instr) (s : State) :
    let u := (transformOf i).init (openCall s)
    u.len = s.inLen ∧ u.cur = 0 ∧ u.olen = 0 ∧ u.inLen = s.inLen ∧ u.params = s.params ∧ u.cmd = s.cmd ∧
      u.mem.inBits = s.mem.inBits ∧ u.mem.outSyms = [] ∧ u.host = s.host ∧ u.got = s.got ∧ u.draws = s.draws + 1 ∧
      u.resets = s.resets ∧ u.outLen = s.outLen ∧ u.status = statusWord stBusy errNone := by
  cases i <;> exact ⟨rfl, rfl, rfl, rfl, rfl, rfl, rfl, rfl, rfl, rfl, rfl, rfl, rfl, rfl⟩

/-- A DONE call: what it needs, and the state it answers. -/
theorem runCall_next {i : Instr} {s u : State} :
    runCall (transformOf i) s = .next u ↔
      (transformOf i).check s = none ∧ s.inLen ≤ s.params.maxInLen ∧
        ((groupLoop (transformOf i) s.inLen ((transformOf i).init (openCall s))).cur <
            (groupLoop (transformOf i) s.inLen ((transformOf i).init (openCall s))).len →
          (transformOf i).remainder = none) ∧
        u = endCall (transformOf i).release
          (groupLoop (transformOf i) s.inLen ((transformOf i).init (openCall s))) := by
  have hl := (init_openCall_frame i s).1
  simp only [runCall]
  split
  · next v hv =>
    obtain ⟨h1, h2, rfl⟩ := startCall_next.mp hv
    rw [hl, closeCall_next]
    simp [h1, h2]
  all_goals
    next r hr =>
    have hn : ∀ v, startCall (transformOf i) s ≠ .next v := by intro v e; rw [hr] at e; cases e
    constructor
    · intro e; cases e
    · rintro ⟨a, b, -⟩; exact absurd (startCall_next.mpr ⟨a, b, rfl⟩) (hn _)

/-- A group's step moves the cursor by the group size and leaves the rest of `schemeFrame` alone (R28, R38). -/
theorem groupStep_frame (i : Instr) (s : State) :
    (groupStep (transformOf i) s).cur = s.cur + groupSizeOf i ∧ (groupStep (transformOf i) s).len = s.len ∧
      (groupStep (transformOf i) s).mem.inBits = s.mem.inBits ∧
      schemeFrame { s with cur := s.cur + groupSizeOf i } (groupStep (transformOf i) s) := by
  obtain ⟨h1, h2, h3, h4, h5, h6, h7, h8, h9, h10, h11, h12⟩ := transform_step_frame i s
  have hg := transform_group i
  refine ⟨by simp [h6, hg], by simp [h7], by simp [h8], ?_⟩
  exact ⟨h1, h2, h3, h4, h5, by simp [h6, hg], h7, h8, h9, h10, h11, h12⟩

/-- What the loop's passes keep, the loop keeps. -/
theorem groupLoop_induct {t : Transform} {P : State → Prop}
    (h : ∀ s, P s → groupReady t s = true → P (groupStep t s)) : ∀ k s, P s → P (groupLoop t k s)
  | 0, _, hs => hs
  | k + 1, s, hs => by
    simp only [groupLoop]
    split
    · next hr => exact groupLoop_induct h k _ (h s hs hr)
    · exact hs

/-- With at least as many passes as bits are left, the loop ends because no full group is left (R105). -/
theorem groupLoop_ends (i : Instr) :
    ∀ k s, s.len ≤ s.cur + k → groupReady (transformOf i) (groupLoop (transformOf i) k s) = false
  | 0, s, h => by
    have hp := groupSizeOf_pos i
    simp only [groupLoop, groupReady, transform_group, decide_eq_false_iff_not]
    omega
  | k + 1, s, h => by
    simp only [groupLoop]
    split
    · have hp := groupSizeOf_pos i
      obtain ⟨hc, hl, -⟩ := groupStep_frame i s
      exact groupLoop_ends i k _ (by rw [hc, hl]; omega)
    · next hr => simpa using hr

/-- The state after `m` passes. -/
theorem iterate_frame (i : Instr) :
    ∀ m s, ((groupStep (transformOf i))^[m] s).cur = s.cur + m * groupSizeOf i ∧
      ((groupStep (transformOf i))^[m] s).len = s.len
  | 0, s => by simp
  | m + 1, s => by
    obtain ⟨hc, hl, -⟩ := groupStep_frame i s
    obtain ⟨ih1, ih2⟩ := iterate_frame i m (groupStep (transformOf i) s)
    refine ⟨?_, by rw [Function.iterate_succ_apply, ih2, hl]⟩
    rw [Function.iterate_succ_apply, ih1, hc, Nat.add_mul]
    omega

/-- The loop is one pass for every full group that is left (R105). -/
theorem groupLoop_eq_iterate (i : Instr) :
    ∀ k s, s.cur ≤ s.len → s.len ≤ s.cur + k →
      groupLoop (transformOf i) k s = (groupStep (transformOf i))^[(s.len - s.cur) / groupSizeOf i] s
  | 0, s, h1, h2 => by
    have : s.len - s.cur = 0 := by omega
    simp [groupLoop, this]
  | k + 1, s, h1, h2 => by
    have hp := groupSizeOf_pos i
    simp only [groupLoop, groupReady, transform_group, decide_eq_true_eq]
    split
    · next hr =>
      obtain ⟨hc, hl, -⟩ := groupStep_frame i s
      rw [groupLoop_eq_iterate i k _ (by rw [hc, hl]; omega) (by rw [hc, hl]; omega), hc, hl,
        ← Function.iterate_succ_apply]
      congr 1
      have : s.len - s.cur = (s.len - (s.cur + groupSizeOf i)) + groupSizeOf i := by omega
      rw [this, Nat.add_div_right _ hp]
    · next hr =>
      rw [Nat.div_eq_of_lt (by omega)]
      rfl

end Sys2Proof.Machine
end

