-- ==== Sys2Proof/Laws/PerInstr.lean ====
section
/-! SUPPORT. The statement families over every constructor of `Instr`. -/

namespace Sys2Proof.Laws.Encoding

/-- The match value of a command's row in the opcode table (30_encoding.md R72). -/
def tableMatch : Instr → Command
  | .ami _ => 0x00
  | .b8zs _ => 0x01
  | .pstern _ => 0x02
  | .man _ => 0x03
  | .dman _ => 0x04
  | .nrzu _ => 0x05
  | .nrzl _ => 0x06
  | .nrzi _ => 0x07
  | .rz _ => 0x08
  | .twoB1Q _ => 0x09
  | .mlt3 _ => 0x0A
  | .fourB5B _ => 0x0B

/-- The command's word agrees with its row of the opcode table: mask 0xCF gives the row's match value, and the IC field
holds the index (R70, R72). -/
def Statement (i : Instr) : Prop :=
  i.wellFormed = true ∧ encode i &&& 0xCF = tableMatch i ∧ icField (encode i) = i.ic

theorem ami (ic : BitVec 2) : Statement (.ami ic) := by
  simp only [Statement]; revert ic; decide

theorem b8zs (ic : BitVec 2) : Statement (.b8zs ic) := by
  simp only [Statement]; revert ic; decide

theorem pstern (ic : BitVec 2) : Statement (.pstern ic) := by
  simp only [Statement]; revert ic; decide

theorem man (ic : BitVec 2) : Statement (.man ic) := by
  simp only [Statement]; revert ic; decide

theorem dman (ic : BitVec 2) : Statement (.dman ic) := by
  simp only [Statement]; revert ic; decide

theorem nrzu (ic : BitVec 2) : Statement (.nrzu ic) := by
  simp only [Statement]; revert ic; decide

theorem nrzl (ic : BitVec 2) : Statement (.nrzl ic) := by
  simp only [Statement]; revert ic; decide

theorem nrzi (ic : BitVec 2) : Statement (.nrzi ic) := by
  simp only [Statement]; revert ic; decide

theorem rz (ic : BitVec 2) : Statement (.rz ic) := by
  simp only [Statement]; revert ic; decide

theorem twoB1Q (ic : BitVec 2) : Statement (.twoB1Q ic) := by
  simp only [Statement]; revert ic; decide

theorem mlt3 (ic : BitVec 2) : Statement (.mlt3 ic) := by
  simp only [Statement]; revert ic; decide

theorem fourB5B (ic : BitVec 2) : Statement (.fourB5B ic) := by
  simp only [Statement]; revert ic; decide

end Sys2Proof.Laws.Encoding
end

