-- ==== Sys2Proof/Laws/Platform.lean ====
section
/-! SUPPORT. What the operations of a platform do to its list of instances. -/

namespace Sys2Proof.Machine

/-- Putting an instance into a state sets that entry of the list. -/
@[simp] theorem engines_withEngine (k : Nat) (t : State) (pl : Platform) :
    (pl.withEngine k t).engines = pl.engines.set k t := by
  cases k <;> rfl

/-- A platform has at least one instance. -/
theorem engines_ne_nil (pl : Platform) : pl.engines ≠ [] := by simp [Platform.engines]

/-- N_ENGINES instances after power-on. -/
theorem nEngines_reset (n : Config.NEngines) (p : Nat → Config.Params) : (Platform.reset n p).nEngines = n := by
  obtain ⟨n, hn⟩ := n
  apply Subtype.ext
  simp [Platform.nEngines, Platform.engines, Platform.reset]
  omega

/-- The instances right after power-on. -/
theorem engines_reset (n : Config.NEngines) (p : Nat → Config.Params) (k : Nat) :
    (Platform.reset n p).engines[k]? = if k < n.val then some (State.resetWith { p k with engineIndex := k }) else none := by
  obtain ⟨n, hn⟩ := n
  cases k with
  | zero => simp [Platform.engines, Platform.reset]; omega
  | succ k =>
    simp only [Platform.engines, Platform.reset, List.getElem?_cons_succ, List.getElem?_map]
    by_cases h : k + 1 < n
    · rw [if_pos h, List.getElem?_range (by omega)]; rfl
    · rw [if_neg h, List.getElem?_eq_none (by simp; omega)]; rfl

/-- A power-on reset resets every instance. -/
theorem engines_powerOnReset (pl : Platform) : (platformPowerOnReset pl).engines = pl.engines.map hostReset := rfl

/-- What a platform's step does: one step of one instance. -/
theorem platformStep_next {k : Nat} {pl ql : Platform} :
    platformStep k pl = some (.next ql) ↔
      ∃ s t, pl.engines[k]? = some s ∧ step s = .next t ∧ ql = pl.withEngine k t := by
  simp only [platformStep]
  cases h : pl.engines[k]? with
  | none => simp
  | some s => cases hs : step s <;> simp [hs, eq_comm]

end Sys2Proof.Machine
end

