-- ==== Sys2Proof/Laws/Step.lean ====
section
/-! SUPPORT. What each shared operation of the step can do: if it answers a next state, then which one. -/

namespace Sys2Proof.Machine

/-! ### The two kinds of step -/

/-- With no host statement left, the engine moves. -/
theorem step_of_host_nil {s : State} (h : s.host = []) : step s = engineStep s := by
  simp only [step, hostStep, h]

/-- A host statement is taken off the queue and executed. -/
theorem step_of_host_cons {s : State} {op : HostOp} {rest : List HostOp} (h : s.host = op :: rest) :
    step s = hostDo op { s with host := rest } := by
  simp only [step, hostStep, h]

/-- A run of one more step. -/
theorem runSteps_succ {k : Nat} {s t : State} (h : step s = .next t) : runSteps (k + 1) s = runSteps k t := by
  simp only [runSteps, h]

/-- A run that begins with a refusal. -/
theorem runSteps_succ_refused {k : Nat} {s : State} {r : Refusal} (h : step s = .refused r) :
    runSteps (k + 1) s = .refused r := by
  simp only [runSteps, h]

/-- Runs join. -/
theorem runSteps_add {j : Nat} : ∀ {k : Nat} {s t : State}, runSteps k s = .next t → runSteps (k + j) s = runSteps j t
  | 0, s, t, h => by simp only [runSteps, Host.Outcome.next.injEq] at h; rw [h, Nat.zero_add]
  | k + 1, s, t, h => by
    rw [Nat.succ_add]
    simp only [runSteps] at h ⊢
    split at h
    · exact runSteps_add h
    · cases h
    · cases h

/-! ### STATUS -/

@[simp] theorem stateField_statusWord (a e : BitVec 2) : stateField (statusWord a e) = a := by
  revert a e; decide

@[simp] theorem errField_statusWord (a e : BitVec 2) : errField (statusWord a e) = e := by
  revert a e; decide

/-- Only a STATE of 1 is BUSY. -/
theorem isBusy_eq {s : State} : isBusy s = true ↔ stateField s.status = stBusy := by simp [isBusy]

/-! ### The engine's move -/

/-- One step of a call: a group, or the call's end. -/
theorem callStep_next {t : Transform} {s u : State} :
    callStep t s = .next u ↔
      (groupReady t s = true ∧ u = groupStep t s) ∨ (groupReady t s = false ∧ closeCall t s = .next u) := by
  simp only [callStep]
  split
  · next h => simp [h, eq_comm]
  · next h => simp [h]

/-- All the engine can do: nothing while not BUSY; while BUSY a step of the call of the command in CMD. -/
theorem engineStep_next {s u : State} :
    engineStep s = .next u ↔
      (isBusy s = false ∧ u = s) ∨
        (isBusy s = true ∧ ∃ i, decode s.cmd = .ok i ∧ callStep (transformOf i) s = .next u) ∨
          (isBusy s = true ∧ ∃ e, decode s.cmd = .error e ∧ u = raiseUnknownScheme s) := by
  simp only [engineStep]
  split
  · next h =>
    split
    · next i hd => simp [h, hd]
    · next e hd => simp [h, hd, eq_comm]
  · next h => simp [h, eq_comm]

/-- A BUSY engine with a known command does that command's step. -/
theorem engineStep_busy {s : State} {i : Instr} (h : isBusy s = true) (hd : decode s.cmd = .ok i) :
    engineStep s = callStep (transformOf i) s := by
  simp only [engineStep, h, if_true, hd]

/-- The engine never faults. -/
theorem engineStep_not_fault (s : State) (r : Fault) : engineStep s ≠ .fault r := by
  simp only [engineStep]
  split
  · split
    · simp only [callStep, closeCall]
      split
      · simp
      · split
        · split <;> simp
        · simp
    · simp
  · simp

/-! ### The host's moves -/

/-- A write goes through only while not BUSY. -/
theorem writeUnlessBusy_next {s u : State} {k : Host.Outcome State Fault Refusal} :
    writeUnlessBusy s k = .next u ↔ isBusy s = false ∧ k = .next u := by
  simp only [writeUnlessBusy]
  split
  · next h => simp [h]
  · next h => simp [h]

theorem hostWriteInput_next {bits : List Bit} {s u : State} :
    hostWriteInput bits s = .next u ↔ bits.length ≤ s.params.maxInLen ∧ u = writeInput bits s := by
  simp only [hostWriteInput]
  split
  · next h => simp [h, eq_comm]
  · next h => simp [h]

theorem hostWriteInBit_next {i : Nat} {b : Bit} {s u : State} :
    hostWriteInBit i b s = .next u ↔
      i < s.params.maxInLen ∧ u = { s with mem := { s.mem with inBits := cellsWrite i b s.mem.inBits } } := by
  simp only [hostWriteInBit, isInIndex, decide_eq_true_eq]
  split
  · next h => simp [h, eq_comm]
  · next h => simp [h]

theorem hostWriteInLen_next {n : Nat} {s u : State} :
    hostWriteInLen n s = .next u ↔ inLenFits s.params n = true ∧ u = { s with inLen := n } := by
  simp only [hostWriteInLen]
  split
  · next h => simp [h, eq_comm]
  · next h => simp [h]

theorem hostCommand_next {w : Command} {s u : State} :
    hostCommand w s = .next u ↔
      (∃ i, decode w = .ok i ∧ exec i (latchCommand w s) = .next u) ∨
        (∃ e, decode w = .error e ∧ u = raiseUnknownScheme (enterCall (latchCommand w s))) := by
  simp only [hostCommand]
  split
  · next i hd => simp [hd]
  · next e hd => simp [hd, eq_comm]

theorem hostWriteCmd_next {w : Command} {s u : State} :
    hostWriteCmd w s = .next u ↔
      (∃ i, decode w = .ok i ∧ startCall (transformOf i) (latchCommand w s) = .next u) ∨
        (∃ e, decode w = .error e ∧ u = enterCall (latchCommand w s)) := by
  simp only [hostWriteCmd]
  split
  · next i hd => simp [hd]
  · next e hd => simp [hd, eq_comm]

theorem hostReadIn_next {i : Nat} {s u : State} :
    hostReadIn i s = .next u ↔ i < s.params.maxInLen ∧ u = hostGets (.inBit i (memReadIn s i)) s := by
  simp only [hostReadIn, isInIndex, decide_eq_true_eq]
  split
  · next h => simp [h, eq_comm]
  · next h => simp [h]

theorem hostReadOut_next {j : Nat} {s u : State} :
    hostReadOut j s = .next u ↔
      j < maxOut s.params ∧ u = if isBusy s then busySym j s else hostGets (.sym j (settledSym j s)) s := by
  simp only [hostReadOut, isOutIndex, decide_eq_true_eq]
  by_cases h : j < maxOut s.params
  · simp only [h, if_true, Host.Outcome.next.injEq, true_and]; exact eq_comm
  · simp [h]

/-- Reads change only what the host has got and, where the value is open, the draw. -/
theorem busySym_eq (j : Nat) (s : State) :
    ∃ r d, busySym j s = { s with got := r :: s.got, draws := s.draws + d } := by
  simp only [busySym]
  split
  · exact ⟨_, 0, rfl⟩
  · exact ⟨_, 1, rfl⟩

/-- What `settledSym` reads looks at OUT, OUT_LEN, the draw and the parameters only, so it stays the same while they do
(R58). -/
theorem settledSym_congr {s t : State} (hm : t.mem.outSyms = s.mem.outSyms) (ho : t.outLen = s.outLen)
    (hd : t.draws = s.draws) (hp : t.params = s.params) (j : Nat) : settledSym j t = settledSym j s := by
  simp only [settledSym, memReadOut, hm, ho, hd, hp]

/-- Only a call of ENC.4B5B in progress, on a length that is no multiple of 4, will be refused (R183, R202). -/
theorem willBeRefused_iff {s : State} :
    willBeRefused s = true ↔ isBusy s = true ∧ ∃ ic, decode s.cmd = .ok (.fourB5B ic) ∧ s.len % 4 ≠ 0 := by
  simp only [willBeRefused, Bool.and_eq_true]
  cases hd : decode s.cmd with
  | error e => simp
  | ok i =>
    simp only [Bool.and_eq_true, decide_eq_true_eq, transform_group]
    cases i <;> simp [transformOf, amiTransform, b8zsTransform, psternTransform, manTransform, dmanTransform,
      nrzuTransform, nrzlTransform, nrziTransform, rzTransform, twoB1QTransform, mlt3Transform, fourB5BTransform]

/-- An engine that is not BUSY has no call that could be refused. -/
theorem willBeRefused_idle {s : State} (h : isBusy s = false) : willBeRefused s = false := by
  simp only [willBeRefused, h, Bool.false_and]

/-- The symbols of a known command's call are all readable, unless it will be refused. -/
theorem readableSoFar_known {s : State} {i : Instr} (hd : decode s.cmd = .ok i) (h : willBeRefused s = false) :
    readableSoFar s = s.olen := by
  simp [readableSoFar, hd, h]

/-- A call that will be refused has no symbol that may be named (R183). -/
theorem readableSoFar_refused {s : State} (h : willBeRefused s = true) : readableSoFar s = 0 := by
  simp only [readableSoFar, h, if_true]
  split <;> rfl

/-- No more symbols are readable than were emitted. -/
theorem readableSoFar_le (s : State) : readableSoFar s ≤ s.olen := by
  simp only [readableSoFar]
  split
  · split <;> omega
  · omega

/-- A read of STATUS changes only what the host has got and, where the value is open, the draw. -/
theorem hostReadStatus_eq (s : State) :
    ∃ r d, hostReadStatus s = { s with got := r :: s.got, draws := s.draws + d } := by
  simp only [hostReadStatus]
  split
  · exact ⟨_, 1, rfl⟩
  · exact ⟨_, 0, rfl⟩

theorem hostReadOutLen_eq (s : State) :
    ∃ r d, hostReadOutLen s = { s with got := r :: s.got, draws := s.draws + d } := by
  simp only [hostReadOutLen]
  split
  · exact ⟨_, 1, rfl⟩
  · exact ⟨_, 0, rfl⟩

/-- Writing one element of IN keeps the memory canonical. -/
theorem hostWriteInBit_wf {i : Nat} {b : Bit} {s u : State} (h : s.mem.wf = true)
    (hu : hostWriteInBit i b s = .next u) : u.mem.wf = true := by
  obtain ⟨-, rfl⟩ := hostWriteInBit_next.mp hu
  simp only [Memory.wf, Bool.and_eq_true] at h ⊢
  exact ⟨cellsWf_cellsWrite _ _ _ h.1, h.2⟩

/-- Writing IN keeps the memory canonical. -/
theorem hostWriteInput_wf {bits : List Bit} {s u : State} (h : s.mem.wf = true)
    (hu : hostWriteInput bits s = .next u) : u.mem.wf = true := by
  obtain ⟨-, rfl⟩ := hostWriteInput_next.mp hu
  exact writeInput_wf _ _ h

/-- A substitution keeps the memory canonical. -/
theorem substitute_wf (s : State) (h : s.mem.wf = true) : (substitute s).mem.wf = true := by
  rw [substitute, setZeroRunLength_mem]
  exact memWriteOut_wf _ _ _ (memWriteOut_wf _ _ _ (memWriteOut_wf _ _ _ (memWriteOut_wf _ _ _ h)))

/-- A reset leaves the memory canonical. -/
theorem hostReset_wf (s : State) : (hostReset s).mem.wf = true := rfl

/-- Waiting is the engine's move with the wait still to be done, while it is BUSY. -/
theorem hostDo_waitEnd_busy {s : State} (h : isBusy s = true) :
    hostDo .waitEnd s = engineStep { s with host := .waitEnd :: s.host } := by
  simp only [hostDo, h, if_true]

theorem hostDo_waitEnd_idle {s : State} (h : isBusy s = false) : hostDo .waitEnd s = .next s := by
  simp [hostDo, h]

/-- `withFetchWord` leaves an engine that is not BUSY as it is, with the word queued for it. -/
theorem withFetchWord_of_not_busy {s : State} {nbits w : Nat} (h : isBusy s = false) :
    s.withFetchWord nbits w = { s with host := .command (BitVec.ofNat 8 (w % 2 ^ nbits)) :: s.host } := by
  have hb : isBusy { s with host := .command (BitVec.ofNat 8 (w % 2 ^ nbits)) :: s.host } = false := h
  simp [State.withFetchWord, placeCommand, hb]

end Sys2Proof.Machine
end

