-- ==== Sys2Proof/Machine/Assembler.lean ====
section
/-! DEFINITION. The textual form of a program (30_encoding.md R79, R80): one host statement a line, `;` starts a comment.
Details of spelling that R79 leaves open are in log 30. -/

namespace Sys2Proof.Machine

/-- The mnemonic suffix `<M>` of each scheme (R72). -/
def schemeSuffixes : List (List Char) :=
  ["AMI".toList, "B8ZS".toList, "PSTERN".toList, "MAN".toList, "DMAN".toList, "NRZU".toList, "NRZL".toList,
    "NRZI".toList, "RZ".toList, "2B1Q".toList, "MLT3".toList, "4B5B".toList]

/-- Split at every character that `sep` holds of. -/
def splitAtChar (sep : Char → Bool) : List Char → List (List Char)
  | [] => [[]]
  | c :: cs =>
    match splitAtChar sep cs with
    | [] => [[c]]
    | w :: ws => if sep c then [] :: w :: ws else (c :: w) :: ws

/-- A line up to its comment. -/
def dropComment (line : List Char) : List Char := line.takeWhile fun c => c != ';'

/-- The words of a line, separated by blanks. -/
def wordsOf (line : List Char) : List (List Char) :=
  (splitAtChar (fun c => c == ' ' || c == '\t' || c == '\r') (dropComment line)).filter fun w => !w.isEmpty

/-- What follows a prefix. -/
def afterPrefix : List Char → List Char → Option (List Char)
  | [], cs => some cs
  | p :: ps, c :: cs => if p = c then afterPrefix ps cs else none
  | _ :: _, [] => none

/-- The scheme code of a mnemonic suffix. -/
def parseScheme (m : List Char) : Option (BitVec 4) :=
  let k := schemeSuffixes.findIdx (fun w => w == m)
  if k < schemeSuffixes.length then some (BitVec.ofNat 4 k) else none

/-- A character as a decimal digit. -/
def digitOf (c : Char) : Option Nat := if '0' ≤ c ∧ c ≤ '9' then some (c.toNat - '0'.toNat) else none

/-- A character as a hexadecimal digit. -/
def hexDigitOf (c : Char) : Option Nat :=
  match digitOf c with
  | some d => some d
  | none =>
    if 'a' ≤ c ∧ c ≤ 'f' then some (c.toNat - 'a'.toNat + 10)
    else if 'A' ≤ c ∧ c ≤ 'F' then some (c.toNat - 'A'.toNat + 10)
    else none

/-- A string of hexadecimal digits as a number. -/
def parseHexDigits : Nat → List Char → Option Nat
  | acc, [] => some acc
  | acc, c :: cs =>
    match hexDigitOf c with
    | some d => parseHexDigits (16 * acc + d) cs
    | none => none

/-- `<hex>` of `CMD <hex>`: hexadecimal digits, with or without `0x`, for an 8-bit word. -/
def parseCommandWord (w : List Char) : Option Command :=
  let digits := (afterPrefix "0x".toList w).getD w
  if digits.isEmpty then none
  else
    match parseHexDigits 0 digits with
    | some n => if n < 256 then some (BitVec.ofNat 8 n) else none
    | none => none

/-- `<bits>` of `IN <bits>`: characters 0 and 1, the first one `IN[0]`; `-` is the empty string. -/
def parseBits (w : List Char) : Option (List Bit) :=
  if w == ['-'] then some []
  else if w.all fun c => c == '0' || c == '1' then some (w.map fun c => c == '1')
  else none

/-- `[ic]` of `ENC.<M> [ic]`: a decimal 0..3, 0 when absent. -/
def parseIc : List (List Char) → Option (BitVec 2)
  | [] => some 0
  | [[c]] =>
    match digitOf c with
    | some d => if icFits d then some (BitVec.ofNat 2 d) else none
    | none => none
  | _ => none

/-- The command of a mnemonic suffix and an optional index. -/
def parseInstr (m : List Char) (rest : List (List Char)) : Option Instr :=
  match parseScheme m, parseIc rest with
  | some s, some ic => instrOfScheme s ic
  | _, _ => none

/-- The host operations of one statement (R79, R80), given its words. -/
def parseStatement : List (List Char) → Option (List HostOp)
  | [] => some []
  | w :: rest =>
    match afterPrefix "ENC.".toList w, afterPrefix "ENCP.".toList w, afterPrefix "DESCRIBE.".toList w with
    | some m, _, _ => (parseInstr m rest).map fun i => [encStatement i]
    | none, some m, _ => (parseInstr m rest).map encpStatement
    | none, none, some m => if rest.isEmpty then (parseScheme m).map fun s => [.describe s] else none
    | none, none, none =>
      match rest with
      | [x] =>
        if w == "IN".toList then (parseBits x).map fun bits => [.writeIn bits]
        else if w == "CMD".toList then (parseCommandWord x).map fun c => [.command c]
        else none
      | _ => none

/-- The host operations of a list of lines, or nothing if one of them is no statement. -/
def assembleLines : List (List Char) → Option (List HostOp)
  | [] => some []
  | l :: ls =>
    match parseStatement (wordsOf l), assembleLines ls with
    | some a, some b => some (a ++ b)
    | _, _ => none

/-- A program in the text form of R79 as the host operations it stands for. -/
def assemble (text : List Char) : Option (List HostOp) := assembleLines (splitAtChar (fun c => c == '\n') text)

/-- The state in which the host is about to run `program`. -/
def loadProgram (program : List HostOp) (s : State) : State := { s with host := program }

end Sys2Proof.Machine
end

