-- ==== Sys2Proof/Tests/Slice0.lean ====
section
/-! SUPPORT. Tests: words written out bit by bit from the spec's encodings, what the well-formedness checks refuse, one call
or two for each command, and for each obligation with hypotheses a state that meets them. Expected values are the spec's
own test vectors (95_test_vectors.md, by their ids) unless a comment says otherwise. -/

namespace Sys2Proof.Tests

open Sys2Proof.Machine

/-! ### Small states -/

/-- A small machine with the spec's default parameters and room for `m` bits. -/
def small (m : Nat) : Config.Params := { Config.defaultParams with maxInLen := m }

/-- The bits of a string of characters 0 and 1. -/
def bits (text : String) : List Bit := text.toList.map (· == '1')

/-- Right after reset, with `b` written into IN. -/
def loaded (p : Config.Params) (b : List Bit) : State := writeInput b (State.resetWith p)

/-- The state after a step that goes on. -/
def after (o : Host.Outcome State Fault Refusal) : State :=
  match o with
  | .next t => t
  | .fault _ => State.reset
  | .refused _ => State.reset

/-- STATUS and the output of a call, if it ends. -/
def resultOf (o : Host.Outcome State Fault Refusal) : Option (BitVec 4 × List Int) :=
  match o with
  | .next t => some (t.status, outLevels t)
  | .fault _ => none
  | .refused _ => none

/-- Why a call was refused, if it was. -/
def refusalOf (o : Host.Outcome State Fault Refusal) : Option Refusal :=
  match o with
  | .next _ => none
  | .fault _ => none
  | .refused r => some r

/-- The result of a command on an input. -/
def call (i : Instr) (text : String) : Option (BitVec 4 × List Int) :=
  resultOf (exec i (loaded Config.defaultParams (bits text)))

/-! ### Decoding: the words of 30_encoding.md R72, RSVD then IC then SCHEME -/

theorem test_decode_ami : decode 0b00000000#8 = .ok (.ami 0) := by decide
theorem test_decode_b8zs : decode 0b00010001#8 = .ok (.b8zs 1) := by decide
theorem test_decode_pstern : decode 0b00100010#8 = .ok (.pstern 2) := by decide
theorem test_decode_man : decode 0b00110011#8 = .ok (.man 3) := by decide
theorem test_decode_dman : decode 0b00010100#8 = .ok (.dman 1) := by decide
theorem test_decode_nrzu : decode 0b00100101#8 = .ok (.nrzu 2) := by decide
theorem test_decode_nrzl : decode 0b00000110#8 = .ok (.nrzl 0) := by decide
theorem test_decode_nrzi : decode 0b00010111#8 = .ok (.nrzi 1) := by decide
theorem test_decode_rz : decode 0b00101000#8 = .ok (.rz 2) := by decide
theorem test_decode_twoB1Q : decode 0b00001001#8 = .ok (.twoB1Q 0) := by decide
theorem test_decode_mlt3 : decode 0b00111010#8 = .ok (.mlt3 3) := by decide
theorem test_decode_fourB5B : decode 0b00001011#8 = .ok (.fourB5B 0) := by decide
/-- V10.5 to V10.8. -/
theorem test_decode_refuses :
    decode 0x0F = .error .unassignedScheme ∧ decode 0x49 = .error .reservedBits ∧ decode 0x4C = .error .reservedBits ∧
      decode 0xFF = .error .reservedBits := by decide
/-- V10.14. -/
theorem test_decode_count :
    ((List.range 256).filter fun k => match decode (BitVec.ofNat 8 k) with | .ok _ => true | .error _ => false).length = 48 := by
  decide
theorem test_decode_table_word : decodeTableWord 8 0x3A = some (.mlt3 3) ∧ decodeTableWord 8 0x0C = none := by decide

/-! ### What the well-formedness checks refuse -/

theorem test_wf_index_4 : icFits 3 = true ∧ icFits 4 = false := by decide
theorem test_wf_input_too_long :
    hostOpWellFormed (small 2) (.writeIn [true, false]) = true ∧
      hostOpWellFormed (small 2) (.writeIn [true, false, true]) = false := by decide
theorem test_wf_in_index :
    hostOpWellFormed (small 2) (.writeInBit 1 true) = true ∧ hostOpWellFormed (small 2) (.writeInBit 2 true) = false ∧
      hostOpWellFormed (small 2) (.readIn 1) = true ∧ hostOpWellFormed (small 2) (.readIn 2) = false := by decide
theorem test_wf_in_len :
    hostOpWellFormed (small 4) (.writeInLen 7) = true ∧ hostOpWellFormed (small 4) (.writeInLen 8) = false := by
  decide
theorem test_wf_out_index :
    hostOpWellFormed (small 2) (.readOut 3) = true ∧ hostOpWellFormed (small 2) (.readOut 4) = false := by decide
theorem test_wf_instr : (Instr.mlt3 3).wellFormed = true := by decide

/-! ### One call or two for each command -/

/-- V1.1, V2.2. -/
theorem test_ami : call (.ami 0) "1011001" = some (0x2, [1, 0, -1, 1, 0, 0, -1]) ∧ call (.ami 1) "111" = some (0x2, [-1, 1, -1]) := by
  decide
/-- V2.6. -/
theorem test_b8zs_between_marks : call (.b8zs 0) "1000000001" = some (0x2, [1, 0, 0, 0, 1, -1, 0, -1, 1, -1]) := by
  decide
/-- V2.8, V2.9. -/
theorem test_b8zs_runs : call (.b8zs 1) "0000000" = some (0x2, [0, 0, 0, 0, 0, 0, 0]) ∧
    call (.b8zs 1) "0000000000000000" = some (0x2, [0, 0, 0, 1, -1, 0, -1, 1, 0, 0, 0, 1, -1, 0, -1, 1]) := by decide
/-- V2.3. -/
theorem test_pstern : call (.pstern 0) "1011001" = some (0x2, [0, 1, 0, 0, -1, 1, 0]) := by decide
/-- V3.4. -/
theorem test_man : call (.man 0) "110" = some (0x2, [0, 1, 0, 1, 1, 0]) := by decide
/-- V4.1, V4.7. -/
theorem test_dman : call (.dman 0) "1001" = some (0x2, [0, 1, 1, 0, 0, 1, 0, 1]) ∧
    refusalOf (exec (.dman 2) (loaded Config.defaultParams (bits "01"))) = some .icOutOfDomain := by decide
/-- V4.9. -/
theorem test_dman_literal :
    resultOf (exec (.dman 3) (loaded { small 8 with icOorPolicy := .literal } (bits "01"))) = some (0x2, [-2, 3, -2, 3]) := by
  decide
/-- V5.1. -/
theorem test_nrzu : call (.nrzu 0) "1011" = some (0x2, [1, 0, 1, 1]) := by decide
/-- V1.3. -/
theorem test_nrzl : call (.nrzl 0) "101" = some (0x2, [-1, 1, -1]) := by decide
/-- V5.5. -/
theorem test_nrzi : call (.nrzi 0) "0100" = some (0x2, [1, 1, 0, 1]) := by decide
/-- V5.10. -/
theorem test_nrzi_literal :
    resultOf (exec (.nrzi 2) (loaded { small 8 with icOorPolicy := .literal } (bits "001"))) = some (0x2, [-1, 2, 2]) := by
  decide
/-- V6.1. -/
theorem test_rz : call (.rz 0) "10" = some (0x2, [1, 0, -1, 0]) := by decide
/-- V7.9, V7.7. -/
theorem test_twoB1Q : call (.twoB1Q 3) "00011011" = some (0x2, [-3, -1, 3, 1]) ∧ call (.twoB1Q 0) "110" = some (0x2, [1]) := by
  decide
/-- V1.6, V8.8. -/
theorem test_mlt3 : call (.mlt3 0) "1111" = some (0x2, [0, -1, 0, 1]) ∧ call (.mlt3 3) "0110" = some (0x2, [-1, 0, 1, 1]) := by
  decide
/-- V9.2, V9.6. -/
theorem test_fourB5B : call (.fourB5B 0) "11110001" = some (0x2, [1, 1, 1, 0, 1, 0, 1, 0, 0, 1]) ∧
    refusalOf (exec (.fourB5B 0) (loaded Config.defaultParams (bits "110"))) = some .invalidInputLength := by decide

/-! ### The host and whole steps -/

/-- V10.9 to V10.13. -/
theorem test_registry : descRom 9 = ⟨true, 2, 0, 1⟩ ∧ descRom 11 = ⟨true, 4, 0, 5⟩ ∧ descRom 10 = ⟨true, 1, 4, 1⟩ ∧
    descRom 13 = ⟨false, 0, 0, 0⟩ ∧ schemeCodes = [0, 1, 2, 3, 4, 5, 6, 7, 8, 9, 10, 11] := by decide
/-- V10.4: one step on the unassigned word 0x0C. -/
theorem test_unknown_scheme :
    let t := after (step { loaded (small 4) (bits "0110") with host := [.command 0x0C] })
    t.status = 0x7 ∧ t.outLen = 0 ∧ t.cmd = 0x0C ∧ t.inLen = 4 := by decide
/-- R207 on the unassigned word 0x0C without waiting: BUSY with `n` sampled, and ERROR after the engine's move. -/
theorem test_unknown_scheme_entered :
    let t := after (step { loaded (small 4) (bits "0110") with host := [.writeCmd 0x0C] })
    t.status = 0x1 ∧ t.len = 4 ∧ (after (step t)).status = 0x7 ∧ (after (step t)).len = 4 := by decide
/-- The step right after reset runs the word that `withFetchWord` places. -/
theorem test_fetch : step (State.reset.withFetchWord 8 0x1A) = exec (.mlt3 1) { State.reset with cmd := 0x1A } := rfl
/-- P2 of 95_test_vectors.md, as text. -/
theorem test_assemble :
    assemble "IN 0110 ; four bits\nCMD 0x0C\n\nENC.2B1Q\nENCP.4B5B 1\nDESCRIBE.MLT3".toList =
      some [.writeIn (bits "0110"), .command 0x0C, .command 0x09, .pad (.fourB5B 1), .command 0x1B, .describe 10] := by
  decide
theorem test_assemble_refuses :
    assemble "ENC.AMI 4".toList = none ∧ assemble "IN 012".toList = none ∧ assemble "ENC.XYZ".toList = none := by
  decide
/-- V7.8: the host's pad. -/
theorem test_pad :
    inputBits (after (step { loaded (small 4) (bits "110") with host := [.pad (.twoB1Q 0)] })) 4 = bits "0110" := by
  decide

/-! ### States that meet the hypotheses of the obligations -/

/-- Whether a step goes on. -/
def goesOn (o : Host.Outcome State Fault Refusal) : Bool :=
  match o with
  | .next _ => true
  | .fault _ => false
  | .refused _ => false

theorem next_after {o : Host.Outcome State Fault Refusal} (h : goesOn o = true) : o = .next (after o) := by
  cases o with
  | next t => rfl
  | fault r => cases h
  | refused r => cases h

/-- The spec's defaults but for a capacity of 4 bits, as text of four bits leaves it. -/
def four : State := loaded (small 4) (bits "0110")

/-- The same with the literal policy. -/
def fourLiteral : State := loaded { small 4 with icOorPolicy := .literal } (bits "0110")

/-- More bits than the capacity, which the host may not do. -/
def tooLong : State := { loaded (small 4) (bits "0110") with inLen := 5 }

/-- `s` with one host statement to come. -/
def asks (op : HostOp) (s : State) : State := { s with host := [op] }

theorem witness_DecodeAndEncodeAgree : (Instr.fourB5B 3).wellFormed = true ∧ decode 0x3B = .ok (.fourB5B 3) := by decide

/-- Both kinds of illegal word, each at the two ends of its range, from an engine that is not BUSY. -/
theorem witness_IllegalWordsRaiseUnknownScheme (w : Command) (hw : w = 0x40 ∨ w = 0xFF ∨ w = 0x0C ∨ w = 0x3F) :
    (asks (.command w) four).host = .command w :: [] ∧ isBusy (asks (.command w) four) = false ∧
      (rsvdField w ≠ 0#2 ∨ 12 ≤ (schemeField w).toNat) := by
  rcases hw with rfl | rfl | rfl | rfl <;> exact ⟨rfl, by decide, by decide⟩

/-- The greatest code that is found, and the host statement. -/
theorem witness_LookupFindsTheTwelveSchemes :
    (descLookup 11).isSome = true ∧ (asks .listSchemes four).host = [.listSchemes] := by decide

/-- The first and the last scheme. -/
theorem witness_StepRunsTheDecodedCommand :
    (asks (.command 0x00) four).host = [.command 0x00] ∧ isBusy (asks (.command 0x00) four) = false ∧
      decode 0x00 = .ok (.ami 0) ∧ isBusy four = false ∧ decodeTableWord 8 0x3B = some (.fourB5B 3) := by decide

/-- By either way of writing CMD. -/
theorem witness_UnknownWordEndsInError :
    (asks (.command 0x0C) four).host = [.command 0x0C] ∧ (asks (.writeCmd 0xC0) four).host = [.writeCmd 0xC0] ∧
      isBusy four = false ∧ decode 0x0C = .error .unassignedScheme ∧ decode 0xC0 = .error .reservedBits := by decide

/-- A whole group for 4B5B, and an index that only the literal policy admits. -/
theorem witness_ContractedCallEndsDone :
    contractMet (.fourB5B 0) four ∧ contractMet (.dman 1) four ∧ contractMet (.nrzi 3) fourLiteral :=
  ⟨⟨Nat.le_refl 4, trivial, rfl⟩, ⟨Nat.le_refl 4, Or.inl rfl, trivial⟩, ⟨Nat.le_refl 4, Or.inr rfl, trivial⟩⟩

theorem witness_CallRunsOneStepPerGroup :
    startCall (transformOf (.twoB1Q 0)) four = .next (after (startCall (transformOf (.twoB1Q 0)) four)) :=
  next_after (by decide)

/-- Four bits, and none. -/
theorem witness_OutputLengthIsTheColumn :
    exec (.fourB5B 0) four = .next (after (exec (.fourB5B 0) four)) ∧ (State.resetWith (small 4)).inLen = 0 ∧
      icAdmitted (.nrzi 1) (State.resetWith (small 4)) :=
  ⟨next_after (by decide), rfl, Or.inl rfl⟩

/-- Two states with the same input that a call has made different, of two instances: fresh, and after an ENC.MLT3. -/
theorem witness_CallIsDeterminedByCommandAndInput :
    let v := after (exec (.mlt3 0) four)
    let u : State := { v with params := { v.params with streamOut := true, regMap := { v.params.regMap with engine := 1 } } }
    four.params.icOorPolicy = u.params.icOorPolicy ∧ four.params.maxInLen = u.params.maxInLen ∧ four.inLen = u.inLen ∧ (∀ a, a < four.inLen → memReadIn four a = memReadIn u a) ∧
      four.mem ≠ u.mem := by decide

theorem witness_StepwiseCallEqualsWholeCall : isBusy four = false ∧ decode 0x01 = .ok (.b8zs 0) := by decide

/-- The input of each call statement: full capacity, and none at all. -/
theorem witness_calls : inputFits four ∧ inputFits (State.resetWith (small 0)) ∧ four.inLen % 4 = 0 ∧
    icAdmitted (.dman 0) four ∧ icAdmitted (.dman 1) four ∧ icAdmitted (.dman 2) fourLiteral ∧
    icAdmitted (.dman 3) fourLiteral ∧ icAdmitted (.nrzi 0) four ∧ icAdmitted (.nrzi 3) fourLiteral :=
  ⟨Nat.le_refl 4, Nat.le_refl 0, rfl, Or.inl rfl, Or.inl rfl, Or.inr rfl, Or.inr rfl, Or.inl rfl, Or.inr rfl⟩

/-- One bit over for 2B1Q; one, two and three bits over for 4B5B. -/
theorem witness_PartialGroupDroppedOrRefused :
    groupSizeOf (.ami 0) = 1 ∧ inputFits (loaded (small 4) (bits "011")) ∧
      (loaded (small 4) (bits "011")).inLen % groupSizeOf (.twoB1Q 0) ≠ 0 ∧
      (loaded (small 4) (bits "0")).inLen % groupSizeOf (.fourB5B 0) ≠ 0 ∧
      (loaded (small 4) (bits "01")).inLen % groupSizeOf (.fourB5B 0) ≠ 0 ∧
      (loaded (small 4) (bits "011")).inLen % groupSizeOf (.fourB5B 0) ≠ 0 := by
  refine ⟨by decide, Nat.le_succ 3, by decide, by decide, by decide, by decide⟩

/-- Both indices outside the domain, under each policy. -/
theorem witness_IndexOutOfDomainFollowsThePolicy :
    2 ≤ (2#2).toNat ∧ 2 ≤ (3#2).toNat ∧ four.params.icOorPolicy = .refuse ∧
      fourLiteral.params.icOorPolicy = .literal ∧ fourLiteral.inLen ≤ fourLiteral.params.maxInLen := by decide

theorem witness_TooLongInputIsRefused :
    icAdmitted (.dman 1) tooLong ∧ icAdmitted (.ami 3) tooLong ∧ tooLong.params.maxInLen < tooLong.inLen :=
  ⟨Or.inl rfl, trivial, Nat.lt_succ_self 4⟩

/-- The calls whose output the property statements are about, on four bits; the indices 0 and 3 are the ends of their
range. -/
theorem witness_output_properties :
    exec (.man 0) four = .next (after (exec (.man 0) four)) ∧ exec (.dman 1) four = .next (after (exec (.dman 1) four)) ∧
      exec (.nrzu 0) four = .next (after (exec (.nrzu 0) four)) ∧
      exec (.nrzl 3) four = .next (after (exec (.nrzl 3) four)) ∧
      exec (.nrzi 0) four = .next (after (exec (.nrzi 0) four)) ∧ exec (.rz 0) four = .next (after (exec (.rz 0) four)) ∧
      exec (.twoB1Q 0) four = .next (after (exec (.twoB1Q 0) four)) ∧
      exec (.mlt3 2) four = .next (after (exec (.mlt3 2) four)) ∧
      exec (.fourB5B 0) four = .next (after (exec (.fourB5B 0) four)) ∧ 0 < four.inLen ∧ (1 : BitVec 2).toNat ≤ 1 :=
  ⟨next_after (by decide), next_after (by decide), next_after (by decide), next_after (by decide), next_after (by decide),
    next_after (by decide), next_after (by decide), next_after (by decide), next_after (by decide), by decide, by decide⟩

/-- A state at each row of MLT-3's table, about to read a 1 bit, and one about to read a 0 bit. -/
theorem witness_Mlt3StepFollowsItsTable (l : BitVec 3) (g : Bool) :
    groupBit 0 { four with cur := 1, level := l, growing := g } = true ∧
      groupBit 0 { four with cur := 0, level := l, growing := g } = false ∧ (1#3).toInt = 1 ∧ (0#3).toInt = 0 ∧
      (7#3).toInt = -1 := by
  exact ⟨by decide +revert, by decide +revert, by decide, by decide, by decide⟩

/-- Four 1 bits, and a level of each sign. -/
theorem witness_Mlt3OutputProperties :
    let s := loaded (small 4) (bits "1111")
    exec (.mlt3 3) s = .next (after (exec (.mlt3 3) s)) ∧ s.inLen = 4 ∧ (∀ i, i < 4 → memReadIn s i = true) ∧
      groupBit 0 { s with level := 1 } = true ∧ (1#3).toInt = 1 ∧ (7#3).toInt = -1 :=
  ⟨next_after (by decide), by decide, by decide, by decide, by decide, by decide⟩

/-- Two different states whose calls emit the same symbols. -/
theorem witness_FourB5BIsInjective :
    let s' := loaded (small 9) (bits "0110")
    exec (.fourB5B 0) four = .next (after (exec (.fourB5B 0) four)) ∧
      exec (.fourB5B 3) s' = .next (after (exec (.fourB5B 3) s')) ∧
      outLevels (after (exec (.fourB5B 0) four)) = outLevels (after (exec (.fourB5B 3) s')) :=
  ⟨next_after (by decide), next_after (by decide), by decide⟩

/-- Each of the two commands, on an input with two marks. -/
theorem witness_AmiAndPsternMarksAlternate :
    exec (.ami 1) four = .next (after (exec (.ami 1) four)) ∧ exec (.pstern 0) four = .next (after (exec (.pstern 0) four)) ∧
      (outLevels (after (exec (.ami 1) four))).filter (· ≠ 0) = [] ++ -1 :: 1 :: [] :=
  ⟨next_after (by decide), next_after (by decide), by decide⟩

theorem witness_PsternIsAmiOfTheComplement :
    let u := loaded (small 4) (bits "1001")
    four.inLen = u.inLen ∧ (∀ a, a < four.inLen → memReadIn four a = !memReadIn u a) ∧
      exec (.pstern 2) four = .next (after (exec (.pstern 2) four)) ∧ exec (.ami 2) u = .next (after (exec (.ami 2) u)) :=
  ⟨by decide, by decide, next_after (by decide), next_after (by decide)⟩

/-- An input with eight zeros in a row. -/
theorem witness_B8zsNeverLeavesEightZeros :
    let s := loaded (small 9) (bits "000000001")
    exec (.b8zs 0) s = .next (after (exec (.b8zs 0) s)) ∧ (after (exec (.b8zs 0) s)).outLen = 9 :=
  ⟨next_after (by decide), by decide⟩

/-- Both polarities, with exactly eight symbols out. -/
theorem witness_SubstitutionWritesFourSymbols :
    8 ≤ ({ four with olen := 8, lastLevel := 1 } : State).olen ∧ (1#2).toInt = 1 ∧ (3#2).toInt = -1 := by decide

/-! The trace of 95_test_vectors.md section 11: B8ZS on `100000000`, streaming, after some of its steps. -/

/-- The state after the step that leaves the cursor at `c` and the run at `z`, with no host statement to come. -/
def trace (c z : Nat) : State :=
  { loaded { small 9 with streamOut := true } (bits "100000000") with
    cmd := 0x01
    status := statusWord stBusy errNone
    len := 9
    cur := c
    olen := c
    zeroRunLength := z
    lastLevel := 1
    mem :=
      { inBits := (loaded (small 9) (bits "100000000")).mem.inBits
        outSyms := cellsWriteList 0 ((1 : Sym) :: List.replicate (c - 1) 0) [] } }

/-- What OUT holds in a state of the trace. -/
theorem trace_out (c z j : Nat) (hc : 0 < c) :
    cellsRead (trace c z).mem.outSyms j = if j = 0 then some 1 else if j < c then some 0 else none := by
  have h := cellsRead_cellsWriteList ((1 : Sym) :: List.replicate (c - 1) 0) 0 j []
  refine h.trans ?_
  rcases j with _ | j
  · simp
  · simp only [List.length_cons, List.length_replicate, Nat.zero_le, true_and, Nat.zero_add, Nat.sub_zero,
      List.getElem?_cons_succ, List.getElem?_replicate, cellsRead]
    by_cases hj : j < c - 1
    · rw [if_pos (by omega), if_pos hj, if_neg (by omega), if_pos (by omega)]
    · rw [if_neg (by omega), if_neg (by omega), if_neg (by omega)]

/-- Every state of the trace has the shape. -/
theorem trace_inv (c z : Nat) (hc : c = z + 1) (hz : z ≤ 7) : Inv (trace c z) := by
  have hout := fun j => trace_out c z j (by omega)
  have hst : (trace c z).status = statusWord stBusy errNone := rfl
  refine ⟨?_, ?_, ⟨?_, ?_⟩, ?_, ?_⟩
  · have h := cellsWf_cellsWriteList ((1 : Sym) :: List.replicate (c - 1) 0) 0 [] rfl
    simp only [Memory.wf, Bool.and_eq_true]
    exact ⟨(by decide : cellsWf (loaded (small 9) (bits "100000000")).mem.inBits = true), h⟩
  · simp only [statusLegal, hst]; decide
  · rw [hst]; intro h; exact absurd h (by decide)
  · rw [hst]; intro h; exact absurd h (by decide)
  · intro j v hv
    rw [hout] at hv
    split_ifs at hv <;> (cases hv; decide)
  · intro _
    refine ⟨rfl, fun i hi => ?_⟩
    have hd : decode (trace c z).cmd = .ok (.b8zs 0) := (by decide : decode 0x01 = .ok (.b8zs 0))
    obtain rfl : i = .b8zs 0 := by rw [hd] at hi; cases hi; rfl
    refine ⟨?_, ?_, ?_, ?_, ?_, ?_⟩
    · show 9 ≤ 9; omega
    · show c ≤ 9; omega
    · show c % groupSizeOf (.b8zs 0) = 0; simp; omega
    · show c = c / groupSizeOf (.b8zs 0) * outPerGroupOf (.b8zs 0); simp
    · intro j
      rw [hout]
      show _ = decide (j < c)
      split_ifs <;> simp <;> omega
    · refine ⟨Or.inl rfl, hz, ?_, ?_⟩
      · show z ≤ c; omega
      · intro j h1 h2
        rw [hout]
        have h1' : c - z ≤ j := h1
        have h2' : j < c := h2
        rw [if_neg (by omega), if_pos h2']
        rfl

/-- A symbol before the run, and the run's positions 1, 2, 3 and 6 (R228 (b), (c)). -/
theorem witness_FinalSymbolsStayFixed :
    Inv (trace 8 7) ∧ isBusy (trace 8 7) = true ∧ (trace 8 7).host = [] ∧ isFinal (trace 8 7) 0 = true ∧
      isFinal (trace 8 7) 1 = true ∧ isFinal (trace 8 7) 2 = true ∧ isFinal (trace 8 7) 3 = true ∧
      isFinal (trace 8 7) 6 = true ∧ step (trace 8 7) = .next (after (step (trace 8 7))) :=
  ⟨trace_inv 8 7 rfl (by omega), by decide, by decide, by decide, by decide, by decide, by decide, by decide,
    next_after (by decide)⟩

/-- The three positions that are pending after step 7, and the zero bits still to come. -/
theorem witness_PendingSymbolsCanStillChange :
    Inv (trace 8 7) ∧ isBusy (trace 8 7) = true ∧ (trace 8 7).host = [] ∧ decode (trace 8 7).cmd = .ok (.b8zs 0) ∧
      4 < (trace 8 7).olen ∧ 7 < (trace 8 7).olen ∧ isFinal (trace 8 7) 4 = false ∧ isFinal (trace 8 7) 5 = false ∧
      isFinal (trace 8 7) 7 = false ∧ (trace 8 7).cur + (8 - (trace 8 7).zeroRunLength) ≤ (trace 8 7).len ∧
      ∀ k, k < 8 - (trace 8 7).zeroRunLength → memReadIn (trace 8 7) ((trace 8 7).cur + k) = false :=
  ⟨trace_inv 8 7 rfl (by omega), by decide, by decide, by decide, by decide, by decide, by decide, by decide, by decide,
    by decide, by decide⟩

/-- A symbol that is not 0, and one five behind the cursor: position 3 at a cursor of 8. -/
theorem witness_NonzeroOrFiveBehindIsFinal :
    Inv (trace 8 7) ∧ isBusy (trace 8 7) = true ∧ outLevel (trace 8 7) 0 ≠ 0 ∧ 3 < readableSoFar (trace 8 7) ∧
      3 + 5 ≤ (trace 8 7).cur :=
  ⟨trace_inv 8 7 rfl (by omega), by decide, by decide, by decide, by decide⟩

/-- A BUSY engine, and each of the six statements that write CMD, IN_LEN or IN. -/
theorem witness_WriteWhileBusyHasNoMove (op : HostOp) :
    isBusy (asks op (trace 5 4)) = true ∧ (asks op (trace 5 4)).host = op :: [] := ⟨rfl, rfl⟩

theorem witness_IdleEngineKeepsEverything : isBusy four = false ∧ four.host = [] := by decide

/-- After a DONE call, the statement IN. -/
theorem witness_OnlyACommandMakesTheEngineAct :
    let s := asks (.writeIn [true]) (after (exec (.ami 0) four))
    isBusy s = false ∧ (∀ rest, s.host ≠ .reset :: rest) ∧ (∀ w rest, s.host ≠ .command w :: rest) ∧
      (∀ w rest, s.host ≠ .writeCmd w :: rest) ∧ step s = .next (after (step s)) :=
  ⟨by decide, by simp [asks], by simp [asks], by simp [asks], next_after (by decide)⟩

/-- The last element of IN, a call that is not one to be refused, and of a DONE call the last symbol and the first index above OUT_LEN. -/
theorem witness_SettledReadsReturnAndChangeNothing (op : HostOp) :
    let s := asks op (after (exec (.nrzu 0) four))
    isBusy s = false ∧ s.host = op :: [] ∧ willBeRefused s = false ∧ willBeRefused (trace 5 4) = false ∧
      3 < s.params.maxInLen ∧ 3 < s.outLen ∧ s.outLen ≤ 4 ∧
      4 < 2 * s.params.maxInLen :=
  ⟨rfl, rfl, rfl, by decide, (by decide : 3 < 4), (by decide : 3 < (after (exec (.nrzu 0) four)).outLen),
    (by decide : (after (exec (.nrzu 0) four)).outLen ≤ 4), (by decide : 4 < 2 * 4)⟩

/-- A known code and an unknown one, and BUSY too. -/
theorem witness_DescribeReturnsTheRomEntry :
    (asks (.describe 11) (trace 5 4)).host = [.describe 11] ∧ (asks (.describe 12) four).host = [.describe 12] ∧
      12 ≤ (12#4).toNat := by decide

/-- A full IN. -/
theorem witness_WrittenInputIsRead :
    isBusy four = false ∧ (asks (.writeIn (bits "1111")) four).host = [.writeIn (bits "1111")] ∧
      (bits "1111").length ≤ four.params.maxInLen := by decide

/-- The last element, and the greatest length. -/
theorem witness_SingleWritesStoreOneThing :
    isBusy four = false ∧ (asks (.writeInBit 3 true) four).host = [.writeInBit 3 true] ∧ 3 < four.params.maxInLen ∧
      (asks (.writeInLen 4) four).host = [.writeInLen 4] ∧ 4 ≤ four.params.maxInLen := by decide

/-- A length that needs a pad, and one that needs none. -/
theorem witness_PadMakesWholeGroups :
    let s := loaded (small 4) (bits "110")
    isBusy s = false ∧ (paddedInput (groupSizeOf (.fourB5B 0)) (inputBits s s.inLen)).length ≤ s.params.maxInLen ∧
      (paddedInput (groupSizeOf (.fourB5B 0)) (inputBits four four.inLen)).length ≤ four.params.maxInLen := by decide

/-- A 4B5B call on five bits, streaming, after its one whole group. -/
def partialGroup : State :=
  let s := loaded { small 8 with streamOut := true } (bits "11110")
  after (step (after (step { s with host := [.writeCmd 0x0B, .tick] })))

/-- Under each value of STREAM_OUT; 4 is the last symbol out, 5 the first index above it and 17 the last element of OUT. The
last conjuncts are a call on a partial group, with symbols out, and an unknown word not decoded yet. -/
theorem witness_OpenReadsAreDraws :
    let s := trace 5 4
    let u : State := { s with params := { s.params with streamOut := false } }
    let v := after (step { s with status := 0x2, host := [.writeCmd 0x0C] })
    isBusy s = true ∧ s.params.streamOut = true ∧ 4 < s.olen ∧ s.olen ≤ 5 ∧ 17 < 2 * s.params.maxInLen ∧
      decode s.cmd = .ok (.b8zs 0) ∧ isBusy u = true ∧ u.params.streamOut = false ∧
      isBusy partialGroup = true ∧ partialGroup.params.streamOut = true ∧ decode partialGroup.cmd = .ok (.fourB5B 0) ∧
      partialGroup.len % 4 = 1 ∧ partialGroup.olen = 5 ∧ isBusy v = true ∧ decode v.cmd = .error .unassignedScheme := by decide

/-- The second of three instances right after power-on, and a running instance that a power-on reset reaches. -/
theorem witness_ResetLeavesEveryInstanceIdle :
    (Platform.reset ⟨3, by decide⟩ small).engines[1]? = some (State.resetWith { small 1 with engineIndex := 1 }) ∧
      hostReset (trace 5 4) ∈ (platformPowerOnReset ⟨four, [trace 5 4]⟩).engines :=
  ⟨rfl, List.mem_cons_of_mem _ (List.mem_cons_self ..)⟩

/-- While BUSY, and while not. -/
theorem witness_ResetAbandonsTheCall :
    (asks .reset (trace 5 4)).host = [.reset] ∧ isBusy (trace 5 4) = true ∧ (asks .reset four).host = [.reset] := by decide

/-- A step of the engine in a call. The trace's states have the shape, so the step's hypotheses are met. -/
theorem witness_StepKeepsTheShape :
    Inv (trace 5 4) ∧ Inv (trace 8 7) ∧ step (trace 5 4) = .next (after (step (trace 5 4))) ∧
      step (trace 8 7) = .next (after (step (trace 8 7))) :=
  ⟨trace_inv 5 4 rfl (by omega), trace_inv 8 7 rfl (by omega), next_after (by decide), next_after (by decide)⟩

theorem witness_StepKeepsMemoryCanonical :
    let s := asks (.writeInBit 2 false) four
    s.mem.wf = true ∧ step s = .next (after (step s)) := ⟨by decide, next_after (by decide)⟩

/-- From DONE and from ERROR, on the next command. -/
theorem witness_StepKeepsStatusLegal :
    let s := asks (.command 0x0C) (after (exec (.ami 0) four))
    let u := asks (.command 0x00) (after (step s))
    statusLegal s ∧ step s = .next (after (step s)) ∧ statusLegal u ∧ step u = .next (after (step u)) :=
  ⟨rfl, next_after (by decide), rfl, next_after (by decide)⟩

theorem witness_ParametersAndInputAreKept :
    let s := asks (.command 0x11) four
    step s = .next (after (step s)) ∧ (∀ rest, s.host ≠ .reset :: rest) ∧
      (∀ bits rest, s.host ≠ .writeIn bits :: rest) ∧ (∀ i b rest, s.host ≠ .writeInBit i b :: rest) ∧
      (∀ n rest, s.host ≠ .writeInLen n :: rest) ∧ ∀ i rest, s.host ≠ .pad i :: rest :=
  ⟨next_after (by decide), by simp [asks], by simp [asks], by simp [asks], by simp [asks], by simp [asks]⟩

/-- Two instances, the second about to run a command. -/
theorem witness_InstancesAreIndependent :
    let s := asks (.command 0x11) four
    let pl : Platform := ⟨four, [s]⟩
    let ql : Platform := ⟨State.reset, [s]⟩
    platformStep 1 pl = some (.next ⟨four, [after (step s)]⟩) ∧ pl.engines[1]? = ql.engines[1]? := ⟨rfl, rfl⟩

end Sys2Proof.Tests
end

section
/-! The registry (40_registry.md R100 to R103): the lookup, `listSchemes` and `describe`. -/

namespace Sys2Proof.Machine

/-- A scheme code names a command exactly when the lookup finds it: R72's table and DESC list the same codes. -/
theorem instrOfScheme_isSome (c : BitVec 4) (ic : BitVec 2) :
    (instrOfScheme c ic).isSome = (descLookup c).isSome := by
  revert c ic; decide

/-- The lookup finds the codes 0..11 (R100, R101). -/
theorem descLookup_isSome_iff (c : BitVec 4) : (descLookup c).isSome = true ↔ c.toNat ≤ 11 := by
  revert c; decide

/-- What the lookup finds is DESC's entry (R101). -/
theorem descLookup_of_isSome {c : BitVec 4} (h : (descLookup c).isSome = true) : descLookup c = some (descRom c) := by
  simp only [descLookup] at h ⊢
  split at h
  · next hv => rw [if_pos hv]
  · cases h

/-- A word is known exactly when RSVD is 0 and the lookup of its SCHEME succeeds (R73, R101). -/
theorem decode_isOk_iff (w : Command) :
    (∃ i, decode w = .ok i) ↔ rsvdField w = 0#2 ∧ (descLookup (schemeField w)).isSome = true := by
  rw [← instrOfScheme_isSome _ (icField w), Option.isSome_iff_exists]
  simp only [decode]
  by_cases hr : rsvdField w = 0#2
  · cases hi : instrOfScheme (schemeField w) (icField w) <;> simp [hr]
  · simp [hr]

/-- Every command's scheme is in DESC (R100). -/
theorem descRom_scheme_valid (i : Instr) : (descRom i.scheme).valid = true := by cases i <;> rfl

/-- A code that names no scheme has the entry of R100's last row. -/
theorem descRom_of_ge {c : BitVec 4} (h : 12 ≤ c.toNat) : descRom c = descInvalid :=
  List.getD_eq_default _ _ h

/-- Settles O4: the tables agree code by code, and `listSchemes` is a read. -/
theorem lookupFindsTheTwelveSchemes : Obligations.LookupFindsTheTwelveSchemes := by
  refine ⟨descLookup_isSome_iff, fun _ => descLookup_of_isSome, by decide, fun s rest h => ?_, decode_isOk_iff⟩
  exact step_of_host_cons h

/-- Settles O48: `describe` is a read, and the entries are R100's rows. -/
theorem describeReturnsTheRomEntry : Obligations.DescribeReturnsTheRomEntry := by
  refine ⟨fun s c rest h => ?_, descRom_scheme_valid, by decide, by decide, by decide, fun _ => descRom_of_ge⟩
  exact step_of_host_cons h

end Sys2Proof.Machine
end

section
/-! The run of a call (40_registry.md R104, R105): one pass for every full group, and then its end. -/

namespace Sys2Proof.Machine

/-- A call's end is DONE or a refusal (R104). -/
theorem closeCall_done_or_refused (t : Transform) (s : State) :
    (∃ u, closeCall t s = .next u ∧ statusDone u) ∨ ∃ r, closeCall t s = .refused r := by
  simp only [closeCall]
  split
  · cases t.remainder with
    | none => exact .inl ⟨_, rfl, rfl⟩
    | some r => exact .inr ⟨r, rfl⟩
  · exact .inl ⟨_, rfl, rfl⟩

/-- From the start of a loop, after `k` passes a full group is left exactly when there is a further one in the input. -/
theorem groupReady_iterate (i : Instr) {u : State} (h : u.cur = 0) (k : Nat) :
    groupReady (transformOf i) ((groupStep (transformOf i))^[k] u) = true ↔ k < u.len / groupSizeOf i := by
  obtain ⟨hcur, hlen⟩ := iterate_frame i k u
  rw [groupReady, decide_eq_true_eq, hcur, hlen, transform_group, h, ← Nat.succ_le_iff,
    Nat.le_div_iff_mul_le (groupSizeOf_pos i), Nat.succ_mul, Nat.zero_add]

/-- A call that has started is one pass for every full group of the input, and its end (R104, R105). -/
theorem exec_of_startCall {i : Instr} {s u : State} (h : startCall (transformOf i) s = .next u) :
    exec i s = closeCall (transformOf i) ((groupStep (transformOf i))^[s.inLen / groupSizeOf i] u) := by
  obtain ⟨-, -, rfl⟩ := startCall_next.mp h
  obtain ⟨hlen, hcur, -⟩ := init_openCall_frame i s
  rw [exec_eq_runCall]
  simp only [runCall, h]
  rw [groupLoop_eq_iterate i _ _ (by omega) (by omega), hlen, hcur, Nat.sub_zero]

/-- Settles O8: the cursor counts the passes, and the end follows the last one. -/
theorem callRunsOneStepPerGroup : Obligations.CallRunsOneStepPerGroup := by
  intro i s u h
  have hexec := exec_of_startCall h
  obtain ⟨-, -, rfl⟩ := startCall_next.mp h
  obtain ⟨hlen, hcur, -⟩ := init_openCall_frame i s
  have hready := groupReady_iterate i hcur
  rw [hlen] at hready
  refine ⟨fun k hk => (hready k).mpr hk, ?_, hexec, ?_⟩
  · exact Bool.eq_false_iff.mpr fun hr => lt_irrefl _ ((hready _).mp hr)
  · rw [hexec]; exact closeCall_done_or_refused _ _

end Sys2Proof.Machine
end

section
/-! The result of a call depends on the command and the input only (40_registry.md R107). Two calls are followed side by
side: what the scheme's step reads, `CallsAgree`, is the same in both after every pass, and OUT holds no open element. -/

namespace Sys2Proof.Machine

/-- OUT and the number of its symbols are the same. -/
def outAgrees (s u : State) : Prop := u.olen = s.olen ∧ u.mem.outSyms = s.mem.outSyms

/-- The registers the command's scheme uses are the same (R34). -/
def registersAgree (i : Instr) (s u : State) : Prop :=
  match i with
  | .ami _ | .b8zs _ | .pstern _ => amiRegsKept s u
  | .dman _ | .nrzi _ => levelKept s u
  | .mlt3 _ => levelKept s u ∧ growingKept s u
  | .man _ | .nrzu _ | .nrzl _ | .rz _ | .twoB1Q _ | .fourB5B _ => True

/-- Two calls of the command `i` have come to the same point: the same cursor, sampled length, output and scheme registers,
and the same input below the length. -/
structure CallsAgree (i : Instr) (s u : State) : Prop where
  cur : u.cur = s.cur
  len : u.len = s.len
  out : outAgrees s u
  regs : registersAgree i s u
  input : ∀ a, a < s.len → memReadIn s a = memReadIn u a

/-! ### Writing OUT -/

/-- The same symbol appended. -/
theorem outAgrees_emit {s u : State} (v : Int) (h : outAgrees s u) : outAgrees (emit v s) (emit v u) := by
  obtain ⟨hn, hm⟩ := h
  exact ⟨by rw [emit_olen, emit_olen, hn], by simp only [emit_mem, hn, hm]⟩

/-- Appending a symbol is no matter of the level. -/
theorem levelKept_emit {s u : State} (v : Int) (h : levelKept s u) : levelKept (emit v s) (emit v u) := h

/-- Nor of the direction. -/
theorem growingKept_emit {s u : State} (v : Int) (h : growingKept s u) : growingKept (emit v s) (emit v u) := h

/-- Which elements of OUT hold a symbol is no matter of the run length. -/
theorem outFilled_setZeroRunLength (k v : Nat) (s : State) : outFilled k (setZeroRunLength v s) ↔ outFilled k s := Iff.rfl

/-- Writing an element that holds a symbol leaves the same elements holding one. -/
theorem outFilled_memWriteOut {k j : Nat} {s : State} (v : Int) (h : outFilled k s) (hj : j < k) :
    outFilled k (memWriteOut j v s) := by
  intro a
  rw [cellsRead_memWriteOut]
  split
  · next ha => simp [ha, hj]
  · exact h a

/-- Appending a symbol fills one more element. -/
theorem outFilled_emit {s : State} (v : Int) (h : outFilled s.olen s) : outFilled (emit v s).olen (emit v s) := by
  intro a
  rw [cellsRead_emit, emit_olen]
  split
  · next ha => simp [ha]
  · next ha => rw [h a, decide_eq_decide]; omega

/-! ### The AMI family's step -/

/-- The four writes of R112 are the same at the same end of OUT and polarity. -/
theorem outAgrees_substitute {s u : State} (ho : outAgrees s u) (hl : u.lastLevel = s.lastLevel) :
    outAgrees (substitute s) (substitute u) := by
  obtain ⟨hn, hm⟩ := ho
  refine ⟨by rw [substitute_olen, substitute_olen, hn], ?_⟩
  simp only [substitute, setZeroRunLength_mem, memWriteOut_mem, hn, hm, hl]

/-- The four writes of R112 fall on symbols that are there. -/
theorem outFilled_substitute {k : Nat} {s : State} (h : outFilled k s) (hn : s.olen = k) (hk : 0 < k) :
    outFilled k (substitute s) := by
  have hlt : ∀ d, 0 < d → s.olen - d < k := fun d hd => by omega
  rw [substitute, outFilled_setZeroRunLength]
  exact outFilled_memWriteOut _ (outFilled_memWriteOut _ (outFilled_memWriteOut _ (outFilled_memWriteOut _ h
    (hlt 5 (by decide))) (hlt 4 (by decide))) (hlt 2 (by decide))) (hlt 1 (by decide))

/-- The shared machine does the same on the same bit, whichever branch it takes (R111). -/
theorem amiFamilyStep_agrees (a b : Bool) {s u : State} (hbit : groupBit 0 u = groupBit 0 s) (ho : outAgrees s u)
    (hr : amiRegsKept s u) :
    outAgrees (amiFamilyStep a b s) (amiFamilyStep a b u) ∧ amiRegsKept (amiFamilyStep a b s) (amiFamilyStep a b u) := by
  obtain ⟨hl, hz⟩ := hr
  have hspace : outAgrees (amiSpace s) (amiSpace u) := outAgrees_emit 0 ho
  by_cases h : groupBit 0 s = b
  · by_cases hrun : a = false ∨ s.zeroRunLength ≠ 7
    · rw [amiFamilyStep_space h hrun, amiFamilyStep_space (hbit.trans h) (by rwa [hz])]
      exact ⟨hspace, hl, congrArg (· + 1) hz⟩
    · obtain ⟨ha, h7⟩ := not_or.mp hrun
      obtain rfl : a = true := by simpa using ha
      obtain h7 : s.zeroRunLength = 7 := by omega
      rw [amiFamilyStep_substitute h h7, amiFamilyStep_substitute (hbit.trans h) (hz.trans h7)]
      exact ⟨outAgrees_substitute hspace hl, by simp [amiRegsKept, hl]⟩
  · have hm : groupBit 0 s = !b := Bool.eq_not.mpr h
    rw [amiFamilyStep_mark hm, amiFamilyStep_mark (hbit.trans hm)]
    have hmark : outAgrees (amiMark s) (amiMark u) := by
      simp only [amiMark, setLastLevel_lastLevel, hl]
      exact outAgrees_emit _ ho
    exact ⟨hmark, by simp [amiRegsKept, hl]⟩

/-- Every branch of the shared machine appends a symbol, and a substitution rewrites symbols that are there. -/
theorem amiFamilyStep_outFilled (a b : Bool) {s : State} (h : outFilled s.olen s) :
    outFilled (amiFamilyStep a b s).olen (amiFamilyStep a b s) := by
  have hspace : outFilled (amiSpace s).olen (amiSpace s) := outFilled_emit 0 h
  by_cases hb : groupBit 0 s = b
  · by_cases hrun : a = false ∨ s.zeroRunLength ≠ 7
    · rw [amiFamilyStep_space hb hrun]; exact hspace
    · obtain ⟨ha, h7⟩ := not_or.mp hrun
      obtain rfl : a = true := by simpa using ha
      rw [amiFamilyStep_substitute hb (by omega)]
      exact outFilled_substitute hspace rfl (Nat.succ_pos _)
  · rw [amiFamilyStep_mark (Bool.eq_not.mpr hb)]
    exact outFilled_emit _ h

/-! ### Every scheme's step -/

/-- MLT-3's move looks at its two registers and writes them (R166). -/
theorem mlt3Move_congr {s u : State} (hl : u.level = s.level) (hg : u.growing = s.growing) :
    (mlt3Move u).level = (mlt3Move s).level ∧ (mlt3Move u).growing = (mlt3Move s).growing := by
  simp only [mlt3Move, hl, hg]
  generalize s.level.toInt + _ = v
  split
  · exact ⟨rfl, rfl⟩
  · exact ⟨rfl, hg⟩

/-- The flips of R132 and R142 are the same. -/
theorem nrziFlip_eq_dmanFlip (s : State) : nrziFlip s = dmanFlip s := by rw [nrziFlip_eq, dmanFlip_eq]

/-- The flip leaves OUT alone and does the same to `level` on the same bit (R132). -/
theorem dmanFlip_agrees {s u : State} (hbit : groupBit 0 u = groupBit 0 s) (ho : outAgrees s u) (hl : levelKept s u) :
    outAgrees (dmanFlip s) (dmanFlip u) ∧ levelKept (dmanFlip s) (dmanFlip u) := by
  rw [levelKept] at hl
  rw [dmanFlip_eq, dmanFlip_eq, hbit, hl]
  exact ⟨ho, rfl⟩

/-- A scheme's step does the same to the output and to its registers when it reads the same group (R108). -/
theorem transform_step_agrees (i : Instr) {s u : State} (ho : outAgrees s u) (hr : registersAgree i s u)
    (hbit : ∀ k, k < groupSizeOf i → groupBit k u = groupBit k s) :
    outAgrees ((transformOf i).step s) ((transformOf i).step u) ∧
      registersAgree i ((transformOf i).step s) ((transformOf i).step u) := by
  have h0 : groupBit 0 u = groupBit 0 s := hbit 0 (groupSizeOf_pos i)
  cases i with
  | ami => exact amiFamilyStep_agrees _ _ h0 ho hr
  | b8zs => exact amiFamilyStep_agrees _ _ h0 ho hr
  | pstern => exact amiFamilyStep_agrees _ _ h0 ho hr
  | man =>
    simp only [transformOf, manTransform, manStep, h0]
    exact ⟨outAgrees_emit _ (outAgrees_emit _ ho), trivial⟩
  | dman =>
    obtain ⟨hf, hl⟩ := dmanFlip_agrees h0 ho hr
    rw [levelKept] at hl
    simp only [transformOf, dmanTransform, dmanStep, hl]
    exact ⟨outAgrees_emit _ (outAgrees_emit _ hf), levelKept_emit _ (levelKept_emit _ hl)⟩
  | nrzu =>
    simp only [transformOf, nrzuTransform, nrzuStep, h0]
    exact ⟨outAgrees_emit _ ho, trivial⟩
  | nrzl =>
    simp only [transformOf, nrzlTransform, nrzlStep, h0]
    exact ⟨outAgrees_emit _ ho, trivial⟩
  | nrzi =>
    obtain ⟨hf, hl⟩ := dmanFlip_agrees h0 ho hr
    rw [levelKept] at hl
    simp only [transformOf, nrziTransform, nrziStep, nrziFlip_eq_dmanFlip, hl]
    exact ⟨outAgrees_emit _ hf, levelKept_emit _ hl⟩
  | rz =>
    simp only [transformOf, rzTransform, rzStep, h0]
    exact ⟨outAgrees_emit _ (outAgrees_emit _ ho), trivial⟩
  | twoB1Q =>
    simp only [transformOf, twoB1QTransform, twoB1QStep, h0, hbit 1 (by simp)]
    exact ⟨outAgrees_emit _ ho, trivial⟩
  | mlt3 =>
    obtain ⟨hl, hg⟩ := hr
    obtain ⟨hml, hmg⟩ := mlt3Move_congr hl hg
    have hm : outAgrees (mlt3Move s) (mlt3Move u) := by rw [mlt3Move_eq s, mlt3Move_eq u]; exact ho
    simp only [transformOf, mlt3Transform, mlt3Step, h0]
    split
    · rw [hml]; exact ⟨outAgrees_emit _ hm, levelKept_emit _ hml, growingKept_emit _ hmg⟩
    · rw [hl]; exact ⟨outAgrees_emit _ ho, levelKept_emit _ hl, growingKept_emit _ hg⟩
  | fourB5B =>
    have hw : groupNibble u = groupNibble s := by
      simp only [groupNibble, h0, hbit 1 (by simp), hbit 2 (by simp), hbit 3 (by simp)]
    simp only [transformOf, fourB5BTransform, fourB5BStep, hw]
    exact ⟨outAgrees_emit _ (outAgrees_emit _ (outAgrees_emit _ (outAgrees_emit _ (outAgrees_emit _ ho)))), trivial⟩

/-- A scheme's step leaves no hole in OUT. -/
theorem transform_step_outFilled (i : Instr) {s : State} (h : outFilled s.olen s) :
    outFilled ((transformOf i).step s).olen ((transformOf i).step s) := by
  cases i with
  | ami => exact amiFamilyStep_outFilled _ _ h
  | b8zs => exact amiFamilyStep_outFilled _ _ h
  | pstern => exact amiFamilyStep_outFilled _ _ h
  | man => exact outFilled_emit _ (outFilled_emit _ h)
  | dman => exact outFilled_emit _ (outFilled_emit _ (by rw [dmanFlip_eq]; exact h))
  | nrzu => exact outFilled_emit _ h
  | nrzl => exact outFilled_emit _ h
  | nrzi => exact outFilled_emit _ (by rw [nrziFlip_eq]; exact h)
  | rz => exact outFilled_emit _ (outFilled_emit _ h)
  | twoB1Q => exact outFilled_emit _ h
  | mlt3 =>
    refine outFilled_emit _ ?_
    split
    · rw [mlt3Move_eq]; exact h
    · exact h
  | fourB5B => exact outFilled_emit _ (outFilled_emit _ (outFilled_emit _ (outFilled_emit _ (outFilled_emit _ h))))

/-! ### The loop -/

/-- What a pass does to the cursor, the sampled length and IN (R28, R56). -/
theorem groupStep_reads (i : Instr) (s : State) :
    (groupStep (transformOf i) s).cur = s.cur + groupSizeOf i ∧ (groupStep (transformOf i) s).len = s.len ∧
      ∀ a, memReadIn (groupStep (transformOf i) s) a = memReadIn s a := by
  obtain ⟨hcur, hlen, hin, hparams, -, -, -, -, -, -, -, -, -, -, hresets⟩ := groupStep_frame i s
  exact ⟨hcur, hlen, memReadIn_congr hin hresets hparams⟩

/-- Moving the cursor is no matter of the scheme registers. -/
theorem registersAgree_groupStep {i : Instr} {t : Transform} {s u : State} (h : registersAgree i (t.step s) (t.step u)) :
    registersAgree i (groupStep t s) (groupStep t u) := by
  cases i <;> exact h

/-- A pass on a full group keeps the two calls together. -/
theorem groupStep_agrees {i : Instr} {s u : State} (h : CallsAgree i s u) (hr : groupReady (transformOf i) s = true) :
    CallsAgree i (groupStep (transformOf i) s) (groupStep (transformOf i) u) := by
  rw [groupReady, decide_eq_true_eq, transform_group] at hr
  have hbit : ∀ k, k < groupSizeOf i → groupBit k u = groupBit k s := fun k hk => by
    rw [groupBit, groupBit, h.cur, h.input _ (by omega)]
  obtain ⟨hout, hregs⟩ := transform_step_agrees i h.out h.regs hbit
  obtain ⟨hcs, hls, hins⟩ := groupStep_reads i s
  obtain ⟨hcu, hlu, hinu⟩ := groupStep_reads i u
  refine ⟨by rw [hcs, hcu, h.cur], by rw [hls, hlu, h.len], hout, registersAgree_groupStep hregs, fun a ha => ?_⟩
  rw [hins, hinu]
  exact h.input a (hls ▸ ha)

/-- The loop keeps the two calls together. -/
theorem groupLoop_agrees {i : Instr} :
    ∀ k {s u : State}, CallsAgree i s u → CallsAgree i (groupLoop (transformOf i) k s) (groupLoop (transformOf i) k u)
  | 0, _, _, h => h
  | k + 1, s, u, h => by
    have hready : groupReady (transformOf i) u = groupReady (transformOf i) s := by
      simp only [groupReady, h.cur, h.len]
    simp only [groupLoop, hready]
    split
    · next hr => exact groupLoop_agrees k (groupStep_agrees h hr)
    · exact h

/-- The loop leaves no hole in OUT. -/
theorem groupLoop_outFilled (i : Instr) (k : Nat) {s : State} (h : outFilled s.olen s) :
    outFilled (groupLoop (transformOf i) k s).olen (groupLoop (transformOf i) k s) :=
  groupLoop_induct (P := fun v => outFilled v.olen v) (fun _ hv _ => transform_step_outFilled i hv) k s h

/-! ### The start and the end -/

/-- A scheme's domain check looks at the policy only (R204). -/
theorem transform_check_congr (i : Instr) {s u : State} (h : s.params.icOorPolicy = u.params.icOorPolicy) :
    (transformOf i).check u = (transformOf i).check s := by
  have hlevel : ∀ ic, levelDomainCheck ic u = levelDomainCheck ic s := fun ic => by simp only [levelDomainCheck, h]
  cases i with
  | dman ic => exact hlevel ic
  | nrzi ic => exact hlevel ic
  | _ => rfl

/-- A scheme's initialisation sets every register the scheme uses (R39). -/
theorem transform_init_registersAgree (i : Instr) (s u : State) :
    registersAgree i ((transformOf i).init s) ((transformOf i).init u) := by
  cases i with
  | ami | b8zs | pstern | mlt3 => exact ⟨rfl, rfl⟩
  | dman | nrzi => exact rfl
  | man | nrzu | nrzl | rz | twoB1Q | fourB5B => trivial

/-- Two calls on the same input are together when their loops start. -/
theorem init_openCall_agrees (i : Instr) {s u : State} (hn : s.inLen = u.inLen)
    (hin : ∀ a, a < s.inLen → memReadIn s a = memReadIn u a) :
    CallsAgree i ((transformOf i).init (openCall s)) ((transformOf i).init (openCall u)) := by
  obtain ⟨hls, hcs, hos, -, hps, -, his, hms, -, -, -, hrs, -, -⟩ := init_openCall_frame i s
  obtain ⟨hlu, hcu, hou, -, hpu, -, hiu, hmu, -, -, -, hru, -, -⟩ := init_openCall_frame i u
  refine ⟨hcu.trans hcs.symm, ?_, ⟨hou.trans hos.symm, hmu.trans hms.symm⟩, transform_init_registersAgree i _ _, ?_⟩
  · rw [hlu, hls, hn]
  · intro a ha
    rw [memReadIn_congr his hrs hps, memReadIn_congr hiu hru hpu]
    exact hin a (hls ▸ ha)

/-- OUT holds nothing when the loop starts. -/
theorem init_openCall_outFilled (i : Instr) (s : State) :
    outFilled ((transformOf i).init (openCall s)).olen ((transformOf i).init (openCall s)) := by
  obtain ⟨-, -, ho, -, -, -, -, hm, -⟩ := init_openCall_frame i s
  intro j
  rw [ho, hm]
  rfl

/-- The levels of a call that has ended depend on OUT only: no open element is among them. -/
theorem outLevels_congr {s u : State} (hn : u.outLen = s.outLen) (hm : u.mem.outSyms = s.mem.outSyms)
    (hf : outFilled s.outLen s) : outLevels u = outLevels s := by
  rw [outLevels, outLevels, hn]
  refine List.map_congr_left fun j hj => ?_
  obtain ⟨v, hv⟩ := Option.isSome_iff_exists.mp ((hf j).trans (decide_eq_true (List.mem_range.mp hj)))
  simp only [outLevel, memReadOut, hm, hv, Option.getD_some]

/-- The end of two calls that are together: the same result. -/
theorem endCall_result_congr {i : Instr} {s u : State} (h : CallsAgree i s u) (hf : outFilled s.olen s) :
    callResult (endCall (transformOf i).release s) = callResult (endCall (transformOf i).release u) := by
  obtain ⟨-, hos, hms⟩ := transform_release_frame i s
  obtain ⟨-, hou, hmu⟩ := transform_release_frame i u
  obtain ⟨ho, hm⟩ := h.out
  have hn : (endCall (transformOf i).release u).outLen = (endCall (transformOf i).release s).outLen := by
    rw [endCall_outLen, endCall_outLen, hos, hou, ho]
  have hlevels : outLevels (endCall (transformOf i).release u) = outLevels (endCall (transformOf i).release s) := by
    refine outLevels_congr hn ?_ ?_
    · rw [endCall_mem, endCall_mem, hms, hmu, hm]
    · intro j
      rw [endCall_outLen, endCall_mem, hos, hms]
      exact hf j
  rw [callResult, callResult, hn, hlevels, endCall_status, endCall_status]

/-- Two calls end alike: in the same result, or refused for the same reason. -/
def endAlike (o p : Host.Outcome State Fault Refusal) : Prop :=
  (∃ t v, o = .next t ∧ p = .next v ∧ callResult t = callResult v) ∨ ∃ r, o = .refused r ∧ p = .refused r

/-- What follows the loop is the same for two calls that are together: both refused for a partial group, or both DONE. -/
theorem closeCall_endAlike {i : Instr} {s u : State} (h : CallsAgree i s u) (hf : outFilled s.olen s) :
    endAlike (closeCall (transformOf i) s) (closeCall (transformOf i) u) := by
  have hdone : endAlike (.next (endCall (transformOf i).release s)) (.next (endCall (transformOf i).release u)) :=
    .inl ⟨_, _, rfl, rfl, endCall_result_congr h hf⟩
  simp only [closeCall, h.cur, h.len]
  split
  · cases (transformOf i).remainder with
    | none => exact hdone
    | some r => exact .inr ⟨r, rfl, rfl⟩
  · exact hdone

/-- Settles O10: the two calls are refused at their start alike, or they start together, pass together and end alike. -/
theorem callIsDeterminedByCommandAndInput : Obligations.CallIsDeterminedByCommandAndInput := by
  intro i s u hpolicy hcap hn hin
  change endAlike (exec i s) (exec i u)
  have hstart := init_openCall_agrees i hn hin
  rw [exec_eq_runCall, exec_eq_runCall]
  simp only [runCall, startCall, transform_check_congr i hpolicy, ← hcap, ← hn]
  cases (transformOf i).check s with
  | some r => exact .inr ⟨r, rfl, rfl⟩
  | none =>
    by_cases hfit : s.params.maxInLen < s.inLen
    · simp only [hfit, if_true]
      exact .inr ⟨_, rfl, rfl⟩
    · simp only [hfit, if_false]
      rw [hstart.len]
      exact closeCall_endAlike (groupLoop_agrees _ hstart) (groupLoop_outFilled i _ (init_openCall_outFilled i s))

end Sys2Proof.Machine
end

section
/-! The output of a call by induction on its passes (40_registry.md R104, R108): what holds of the number of passes done and
the state when the loop starts, and is kept by a pass, holds of the state that the call's end is taken from. -/

namespace Sys2Proof.Machine

/-- A call that ends DONE is its start, one pass for every full group, and its end (R104, R105). -/
theorem exec_next_iterate {i : Instr} {s t : State} (h : exec i s = .next t) :
    t = endCall (transformOf i).release
      ((groupStep (transformOf i))^[s.inLen / groupSizeOf i] ((transformOf i).init (openCall s))) := by
  rw [exec_eq_runCall] at h
  obtain ⟨-, -, -, rfl⟩ := runCall_next.mp h
  obtain ⟨hlen, hcur, -⟩ := init_openCall_frame i s
  rw [groupLoop_eq_iterate i _ _ (by omega) (by omega), hlen, hcur, Nat.sub_zero]

/-- No pass of a call changes a bit of IN (R56). -/
theorem memReadIn_iterate (i : Instr) (s : State) (m a : Nat) :
    memReadIn ((groupStep (transformOf i))^[m] ((transformOf i).init (openCall s))) a = memReadIn s a := by
  induction m with
  | zero =>
    obtain ⟨-, -, -, -, hparams, -, hin, -, -, -, -, hresets, -, -⟩ := init_openCall_frame i s
    exact memReadIn_congr hin hresets hparams a
  | succ m ih =>
    rw [Function.iterate_succ_apply', (groupStep_reads i _).2.2]
    exact ih

/-- Induction on the passes of a call. `P m v` says of the state `v` that `m` passes are done; a pass finds the cursor at
the `m`-th group and reads the call's input. -/
theorem exec_next_induct {i : Instr} {s t : State} {P : Nat → State → Prop}
    (hinit : P 0 ((transformOf i).init (openCall s)))
    (hpass : ∀ m v, (∀ k, groupBit k v = memReadIn s (m * groupSizeOf i + k)) → P m v →
      P (m + 1) (groupStep (transformOf i) v))
    (h : exec i s = .next t) : ∃ u, P (s.inLen / groupSizeOf i) u ∧ t = endCall (transformOf i).release u := by
  refine ⟨_, ?_, exec_next_iterate h⟩
  generalize s.inLen / groupSizeOf i = n
  induction n with
  | zero => exact hinit
  | succ m ih =>
    rw [Function.iterate_succ_apply']
    refine hpass m _ (fun k => ?_) ih
    obtain ⟨-, hcur, -⟩ := init_openCall_frame i s
    rw [groupBit, memReadIn_iterate, (iterate_frame i m _).1, hcur, Nat.zero_add]

/-- The same for a scheme that reads one bit a group. -/
theorem exec_next_induct_bits {i : Instr} {s t : State} {P : Nat → State → Prop} (hg : groupSizeOf i = 1)
    (hinit : P 0 ((transformOf i).init (openCall s)))
    (hpass : ∀ m v, groupBit 0 v = memReadIn s m → P m v → P (m + 1) (groupStep (transformOf i) v))
    (h : exec i s = .next t) : ∃ u, P s.inLen u ∧ t = endCall (transformOf i).release u := by
  obtain ⟨u, hu, ht⟩ := exec_next_induct hinit
    (fun m v hbit => hpass m v (by rw [hbit 0, hg, Nat.mul_one, Nat.add_zero])) h
  rw [hg, Nat.div_one] at hu
  exact ⟨u, hu, ht⟩

/-- The loop starts with no output. -/
theorem outHolds_init_openCall (i : Instr) (s : State) : outHolds [] ((transformOf i).init (openCall s)) := by
  obtain ⟨-, holen, hmem⟩ := transform_init_frame i (openCall s)
  exact outHolds_congr (outHolds_openCall s) (by rw [hmem]) holen

/-- The end of a call keeps the output and makes OUT_LEN its length (R104). -/
theorem outHolds_endCall (i : Instr) {ls : List Int} {u : State} (h : outHolds ls u) :
    outHolds ls (endCall (transformOf i).release u) ∧ (endCall (transformOf i).release u).outLen = ls.length := by
  obtain ⟨-, holen, hmem⟩ := transform_release_frame i u
  refine ⟨outHolds_congr h ?_ ?_, ?_⟩
  · rw [endCall_mem, hmem]
  · rw [endCall_olen, holen]
  · rw [endCall_outLen, holen, h.2.1]

/-- Two symbols appended. -/
theorem outHolds_emit_emit {ls : List Int} {s : State} {v w : Int} (h : outHolds ls s) (hv : -4 ≤ v ∧ v ≤ 3)
    (hw : -4 ≤ w ∧ w ≤ 3) : outHolds (ls ++ [v, w]) (emit w (emit v s)) := by
  rw [List.append_cons]
  exact outHolds_emit (outHolds_emit h hv) hw

/-! ### The input as a list -/

@[simp] theorem inputBits_length (s : State) (n : Nat) : (inputBits s n).length = n := by simp [inputBits]

/-- One bit more of the input. -/
theorem inputBits_succ (s : State) (n : Nat) : inputBits s (n + 1) = inputBits s n ++ [memReadIn s n] := by
  simp [inputBits, List.range_succ]

/-- The bit at a place in the input. -/
theorem inputBits_getElem? {s : State} {n i : Nat} (h : i < n) : (inputBits s n)[i]? = some (memReadIn s i) := by
  simp [inputBits, h]

/-- The first bits of the input. -/
theorem inputBits_take {s : State} {n k : Nat} (h : k ≤ n) : (inputBits s n).take k = inputBits s k := by
  rw [inputBits, ← List.map_take, List.take_range, Nat.min_eq_left h, inputBits]

/-! ### Two symbols a bit -/

/-- The two half-bits of the element at place `i` stand at `2i` and `2i+1`. -/
theorem getElem?_flatMap_pair {α β : Type} (f g : α → β) :
    ∀ (xs : List α) (i : Nat), (xs.flatMap fun x => [f x, g x])[2 * i]? = xs[i]?.map f ∧
      (xs.flatMap fun x => [f x, g x])[2 * i + 1]? = xs[i]?.map g
  | [], _ => by simp
  | _ :: _, 0 => by simp
  | _ :: xs, i + 1 => getElem?_flatMap_pair f g xs i

/-- A pair for every element makes twice as many symbols. -/
theorem length_flatMap_pair {α β : Type} (f g : α → β) (xs : List α) :
    (xs.flatMap fun x => [f x, g x]).length = 2 * xs.length := by
  simp [Nat.mul_comm]

/-- Every place in the output is the first or the second half-bit of a bit. -/
theorem exists_halfBit_of_lt {n j : Nat} (h : j < 2 * n) : ∃ i, i < n ∧ (j = 2 * i ∨ j = 2 * i + 1) :=
  ⟨j / 2, by omega, by omega⟩

/-- What the host reads at a place of the output. -/
theorem outLevel_of_getElem? {ls : List Int} {s : State} {j : Nat} {v : Int} (h : outHolds ls s) (hj : ls[j]? = some v) :
    outLevel s j = v := by
  obtain ⟨hlt, rfl⟩ := List.getElem?_eq_some_iff.mp hj
  exact outHolds_read h hlt

end Sys2Proof.Machine
end

section
/-! Manchester (42_manchester.md R130, R131). -/

namespace Sys2Proof.Machine

/-- A bit is 0 or 1 (R8). -/
theorem bitToInt_cases (b : Bit) : bitToInt b = 0 ∨ bitToInt b = 1 := by cases b <;> simp [bitToInt]

/-- One step appends the two half-bits of the bit at the cursor (R130). -/
theorem outHolds_manStep {ls : List Int} {s : State} (h : outHolds ls s) :
    outHolds (ls ++ [1 - bitToInt (groupBit 0 s), bitToInt (groupBit 0 s)]) (manStep s) := by
  have hbit := bitToInt_cases (groupBit 0 s)
  exact outHolds_emit_emit h (by omega) (by omega)

/-- One bit more of Manchester. -/
theorem manLevels_concat (bs : List Bit) (b : Bit) :
    manLevels (bs ++ [b]) = manLevels bs ++ [1 - bitToInt b, bitToInt b] := by
  simp [manLevels]

/-- A pass on bit `m` of the input appends its half-bits. -/
theorem outHolds_man_groupStep {ic : BitVec 2} {s v : State} {m : Nat} (hbit : groupBit 0 v = memReadIn s m)
    (h : outHolds (manLevels (inputBits s m)) v) :
    outHolds (manLevels (inputBits s (m + 1))) (groupStep (transformOf (.man ic)) v) := by
  have hstep := outHolds_manStep h
  rw [hbit, ← manLevels_concat, ← inputBits_succ] at hstep
  exact outHolds_congr hstep rfl rfl

/-- The output of a call of ENC.MAN is Manchester of its input (R130). -/
theorem exec_man_outHolds {ic : BitVec 2} {s t : State} (h : exec (.man ic) s = .next t) :
    outHolds (manLevels (inputBits s s.inLen)) t ∧ t.outLen = (manLevels (inputBits s s.inLen)).length := by
  obtain ⟨u, hu, rfl⟩ := exec_next_induct_bits (P := fun m => outHolds (manLevels (inputBits s m))) rfl
    (outHolds_init_openCall _ s) (fun _ _ => outHolds_man_groupStep) h
  exact outHolds_endCall _ hu

/-- The half-bits of a bit in the output of ENC.MAN (R130). -/
theorem exec_man_halfBits {ic : BitVec 2} {s t : State} (h : exec (.man ic) s = .next t) {i : Nat} (hi : i < s.inLen) :
    outLevel t (2 * i) = 1 - bitToInt (memReadIn s i) ∧ outLevel t (2 * i + 1) = bitToInt (memReadIn s i) := by
  obtain ⟨hout, -⟩ := exec_man_outHolds h
  obtain ⟨hfirst, hsecond⟩ := getElem?_flatMap_pair (fun b => 1 - bitToInt b) bitToInt (inputBits s s.inLen) i
  rw [inputBits_getElem? hi] at hfirst hsecond
  exact ⟨outLevel_of_getElem? hout hfirst, outLevel_of_getElem? hout hsecond⟩

/-- Settles O28: the output is a pair `(1 - bit, bit)` for every bit of the input, and the rest is arithmetic on a bit. -/
theorem manchesterOutputProperties : Obligations.ManchesterOutputProperties := by
  intro ic s t h
  have hlen : t.outLen = 2 * s.inLen := by
    rw [(exec_man_outHolds h).2, manLevels, length_flatMap_pair, inputBits_length]
  refine ⟨hlen, fun j hj => ?_, fun i hi => ?_⟩
  · obtain ⟨i, hi, hj⟩ := exists_halfBit_of_lt (hlen ▸ hj)
    obtain ⟨hfirst, hsecond⟩ := exec_man_halfBits h hi
    have hbit := bitToInt_cases (memReadIn s i)
    rcases hj with rfl | rfl <;> omega
  · obtain ⟨hfirst, hsecond⟩ := exec_man_halfBits h hi
    have hbit := bitToInt_cases (memReadIn s i)
    rw [hfirst, hsecond]
    refine ⟨by omega, fun hb => ?_, fun hb => ?_, rfl⟩
    · simp [hb, bitToInt]
    · simp [hb, bitToInt]

end Sys2Proof.Machine
end

section
/-! Differential Manchester (42_manchester.md R132, R133). `levelAfter` follows the register `level` through the input; the
first half-bits of the output are its values, and the second half-bits their inverses. -/

namespace Sys2Proof.Machine

/-- `level` once the bits have been read: each 0 bit has inverted it (R132, R142). -/
def levelAfter (level : Int) (bits : List Bit) : Int := bits.foldl nextLevel level

@[simp] theorem levelAfter_nil (level : Int) : levelAfter level [] = level := rfl

@[simp] theorem levelAfter_cons (level : Int) (b : Bit) (bs : List Bit) :
    levelAfter level (b :: bs) = levelAfter (nextLevel level b) bs := rfl

@[simp] theorem levelAfter_concat (level : Int) (bs : List Bit) (b : Bit) :
    levelAfter level (bs ++ [b]) = nextLevel (levelAfter level bs) b := by simp [levelAfter]

/-- A bit inverts `level` or keeps it (R132). -/
theorem nextLevel_cases (level : Int) (b : Bit) : nextLevel level b = level ∨ nextLevel level b = 1 - level := by
  cases b <;> simp [nextLevel]

/-- A level and its inverse differ, so `level` stays exactly on a 1 bit. -/
theorem nextLevel_eq_self_iff {level : Int} {b : Bit} : nextLevel level b = level ↔ b = true := by
  cases b
  · simp only [nextLevel, Bool.false_eq_true, if_false, iff_false]; omega
  · simp [nextLevel]

/-- The new level differs from the inverse of the old one exactly on a 1 bit. -/
theorem nextLevel_ne_inverse_iff {level : Int} {b : Bit} : nextLevel level b ≠ 1 - level ↔ b = true := by
  cases b
  · simp [nextLevel]
  · simp only [nextLevel, if_true, iff_true]; omega

/-- `level` is the starting level or its inverse, whatever the input (R132). -/
theorem levelAfter_cases (level : Int) (bits : List Bit) :
    levelAfter level bits = level ∨ levelAfter level bits = 1 - level := by
  induction bits using List.reverseRecOn with
  | nil => exact .inl rfl
  | append_singleton bs b ih =>
    rw [levelAfter_concat]
    have hnext := nextLevel_cases (levelAfter level bs) b
    omega

/-! ### The pure form -/

/-- NRZ-Polar-I emits the level after each bit (R142). -/
theorem nrziLevels_getElem? : ∀ {level : Int} {bits : List Bit} {i : Nat}, i < bits.length →
    (nrziLevels level bits)[i]? = some (levelAfter level (bits.take (i + 1)))
  | _, _ :: _, 0, _ => rfl
  | level, b :: _, _ + 1, h => nrziLevels_getElem? (level := nextLevel level b) (Nat.lt_of_succ_lt_succ h)

/-- NRZ-Polar-I emits a symbol a bit. -/
theorem nrziLevels_length : ∀ (level : Int) (bits : List Bit), (nrziLevels level bits).length = bits.length
  | _, [] => rfl
  | _, _ :: bs => congrArg (· + 1) (nrziLevels_length _ bs)

/-- Differential Manchester is NRZ-Polar-I with every level followed by its inverse (R132, R142). -/
theorem dmanLevels_eq_flatMap :
    ∀ (level : Int) (bits : List Bit), dmanLevels level bits = (nrziLevels level bits).flatMap fun l => [l, 1 - l]
  | _, [] => rfl
  | level, b :: bs => by rw [dmanLevels, dmanLevels_eq_flatMap _ bs]; rfl

/-- One bit more of Differential Manchester. -/
theorem dmanLevels_concat (level : Int) (bs : List Bit) (b : Bit) :
    dmanLevels level (bs ++ [b]) =
      dmanLevels level bs ++ [levelAfter level (bs ++ [b]), 1 - levelAfter level (bs ++ [b])] := by
  induction bs generalizing level with
  | nil => rfl
  | cons c cs ih => simp only [List.cons_append, dmanLevels, ih, levelAfter_cons]

/-! ### The engine -/

/-- `level` is read back as it was stored (R32). -/
theorem setLevel_level_toInt {v : Int} (s : State) (h : -4 ≤ v ∧ v ≤ 3) : (setLevel v s).level.toInt = v :=
  levelOfSym_symOfLevel h

/-- The flip of R132 as a function of the level and the bit; -2..3 is where the flip moves from an index (R75, R204). -/
theorem dmanFlip_level_toInt {s : State} (h : -2 ≤ s.level.toInt ∧ s.level.toInt ≤ 3) :
    (dmanFlip s).level.toInt = nextLevel s.level.toInt (groupBit 0 s) := by
  rw [dmanFlip, nextLevel]
  split
  · rfl
  · exact setLevel_level_toInt s (by omega)

/-- One step moves `level` and appends it and its inverse (R132). -/
theorem outHolds_dmanStep {ls : List Int} {s : State} (h : outHolds ls s) (hl : -2 ≤ s.level.toInt ∧ s.level.toInt ≤ 3) :
    outHolds (ls ++ [nextLevel s.level.toInt (groupBit 0 s), 1 - nextLevel s.level.toInt (groupBit 0 s)]) (dmanStep s) ∧
      (dmanStep s).level.toInt = nextLevel s.level.toInt (groupBit 0 s) := by
  have hflip : outHolds ls (dmanFlip s) := by rw [dmanFlip_eq]; exact h
  have hlevel := dmanFlip_level_toInt hl
  have hnext := nextLevel_cases s.level.toInt (groupBit 0 s)
  rw [← hlevel] at hnext ⊢
  exact ⟨outHolds_emit_emit hflip (by omega) (by omega), rfl⟩

/-- From any index, every value of `level` fits its register (R32, R204). -/
theorem levelAfter_icValue_bounds (ic : BitVec 2) (bits : List Bit) :
    -2 ≤ levelAfter (icValue ic) bits ∧ levelAfter (icValue ic) bits ≤ 3 := by
  have hcases := levelAfter_cases (icValue ic) bits
  have hic : icValue ic < 4 := ic.isLt
  omega

/-- A call of ENC.DMAN after the first `m` bits of the input of `s`: its output, and `level`. -/
def dmanPoint (ic : BitVec 2) (s : State) (m : Nat) (v : State) : Prop :=
  outHolds (dmanLevels (icValue ic) (inputBits s m)) v ∧ v.level.toInt = levelAfter (icValue ic) (inputBits s m)

/-- The loop starts with no output and `level` at the index (R132). -/
theorem dmanPoint_init (ic : BitVec 2) (s : State) :
    dmanPoint ic s 0 ((transformOf (.dman ic)).init (openCall s)) := by
  have hic : icValue ic < 4 := ic.isLt
  exact ⟨outHolds_init_openCall (.dman ic) s, setLevel_level_toInt _ (by omega)⟩

/-- A pass on bit `m` of the input leads on to the next point. -/
theorem dmanPoint_groupStep {ic : BitVec 2} {s v : State} {m : Nat} (hbit : groupBit 0 v = memReadIn s m)
    (h : dmanPoint ic s m v) : dmanPoint ic s (m + 1) (groupStep (transformOf (.dman ic)) v) := by
  obtain ⟨hout, hl⟩ := h
  obtain ⟨hstep, hlevel⟩ := outHolds_dmanStep hout (hl ▸ levelAfter_icValue_bounds ic _)
  rw [hbit, hl, ← levelAfter_concat] at hstep hlevel
  rw [dmanPoint, inputBits_succ, dmanLevels_concat]
  exact ⟨outHolds_congr hstep rfl rfl, hlevel⟩

/-- The output of a call of ENC.DMAN is Differential Manchester of its input, from any index that runs (R132, R204). -/
theorem exec_dman_outHolds {ic : BitVec 2} {s t : State} (h : exec (.dman ic) s = .next t) :
    outHolds (dmanLevels (icValue ic) (inputBits s s.inLen)) t ∧
      t.outLen = (dmanLevels (icValue ic) (inputBits s s.inLen)).length := by
  obtain ⟨u, ⟨hu, -⟩, rfl⟩ := exec_next_induct_bits rfl (dmanPoint_init ic s) (fun _ _ => dmanPoint_groupStep) h
  exact outHolds_endCall _ hu

/-- A call of ENC.DMAN emits two symbols a bit (R132). -/
theorem exec_dman_outLen {ic : BitVec 2} {s t : State} (h : exec (.dman ic) s = .next t) : t.outLen = 2 * s.inLen := by
  rw [(exec_dman_outHolds h).2, dmanLevels_eq_flatMap, length_flatMap_pair, nrziLevels_length, inputBits_length]

/-- The half-bits of a bit in the output of ENC.DMAN: `level` after it, and its inverse (R132). -/
theorem exec_dman_halfBits {ic : BitVec 2} {s t : State} (h : exec (.dman ic) s = .next t) {i : Nat} (hi : i < s.inLen) :
    outLevel t (2 * i) = levelAfter (icValue ic) (inputBits s (i + 1)) ∧
      outLevel t (2 * i + 1) = 1 - levelAfter (icValue ic) (inputBits s (i + 1)) := by
  obtain ⟨hout, -⟩ := exec_dman_outHolds h
  rw [dmanLevels_eq_flatMap] at hout
  obtain ⟨hfirst, hsecond⟩ :=
    getElem?_flatMap_pair (fun l => l) (fun l => 1 - l) (nrziLevels (icValue ic) (inputBits s s.inLen)) i
  rw [nrziLevels_getElem? (by rwa [inputBits_length]), inputBits_take hi] at hfirst hsecond
  exact ⟨outLevel_of_getElem? hout hfirst, outLevel_of_getElem? hout hsecond⟩

/-- The first half-bit of a bit is the next level after the bits before it (R132). -/
theorem exec_dman_firstHalf {ic : BitVec 2} {s t : State} (h : exec (.dman ic) s = .next t) {i : Nat} (hi : i < s.inLen) :
    outLevel t (2 * i) = nextLevel (levelAfter (icValue ic) (inputBits s i)) (memReadIn s i) := by
  rw [(exec_dman_halfBits h hi).1, inputBits_succ, levelAfter_concat]

/-- Settles O29: the half-bits are the values of `level` and their inverses, and `level` stays exactly on a 1 bit. -/
theorem differentialManchesterTransitions : Obligations.DifferentialManchesterTransitions := by
  intro ic s t hic h
  refine ⟨fun j hj => ?_, fun i hi => ?_, fun i h1 hi => ?_, fun h0 => ?_, fun i h1 hi => ?_⟩
  · obtain ⟨i, hi, hj⟩ := exists_halfBit_of_lt (exec_dman_outLen h ▸ hj)
    obtain ⟨hfirst, hsecond⟩ := exec_dman_halfBits h hi
    have hlevel := levelAfter_cases (icValue ic) (inputBits s (i + 1))
    have hdomain : icValue ic ≤ 1 := hic
    rcases hj with rfl | rfl <;> omega
  · obtain ⟨hfirst, hsecond⟩ := exec_dman_halfBits h hi
    omega
  · obtain ⟨k, rfl⟩ := Nat.exists_eq_add_of_le' h1
    rw [exec_dman_firstHalf h hi, show 2 * (k + 1) - 2 = 2 * k from rfl, (exec_dman_halfBits h (by omega)).1]
    exact nextLevel_eq_self_iff
  · have hfirst := exec_dman_firstHalf h h0
    rw [Nat.mul_zero] at hfirst
    rw [hfirst]
    exact nextLevel_eq_self_iff
  · obtain ⟨k, rfl⟩ := Nat.exists_eq_add_of_le' h1
    rw [exec_dman_firstHalf h hi, show 2 * (k + 1) - 1 = 2 * k + 1 from rfl, (exec_dman_halfBits h (by omega)).2]
    exact nextLevel_ne_inverse_iff

end Sys2Proof.Machine
end

section
/-! The NRZ family (43_nrz.md R140 to R143). NRZ-Unipolar and NRZ-Polar-L emit a function of the bit alone; NRZ-Polar-I emits
the register `level`, which `levelAfter` follows through the input. -/

namespace Sys2Proof.Machine

/-! ### NRZ-Unipolar and NRZ-Polar-L -/

/-- A pass on bit `m` of the input, in a scheme whose step emits the symbol `f` of the bit. -/
theorem outHolds_groupStep_of_emit {i : Instr} {f : Bit → Int} {s v : State} {m : Nat}
    (hf : ∀ b, -4 ≤ f b ∧ f b ≤ 3) (hstep : (transformOf i).step v = emit (f (groupBit 0 v)) v)
    (hbit : groupBit 0 v = memReadIn s m) (h : outHolds ((inputBits s m).map f) v) :
    outHolds ((inputBits s (m + 1)).map f) (groupStep (transformOf i) v) := by
  have hemit := outHolds_emit h (hf (groupBit 0 v))
  rw [← hstep, hbit, ← List.map_singleton, ← List.map_append, ← inputBits_succ] at hemit
  exact outHolds_congr hemit rfl rfl

/-- The output of a call whose step emits the symbol `f` of its bit: that symbol for every bit of the input. -/
theorem exec_outHolds_of_emit {i : Instr} {f : Bit → Int} {s t : State} (hg : groupSizeOf i = 1)
    (hf : ∀ b, -4 ≤ f b ∧ f b ≤ 3) (hstep : ∀ v, (transformOf i).step v = emit (f (groupBit 0 v)) v)
    (h : exec i s = .next t) : outHolds ((inputBits s s.inLen).map f) t ∧ t.outLen = s.inLen := by
  obtain ⟨u, hu, rfl⟩ := exec_next_induct_bits (P := fun m => outHolds ((inputBits s m).map f)) hg
    (outHolds_init_openCall i s) (fun _ v => outHolds_groupStep_of_emit hf (hstep v)) h
  obtain ⟨hout, hlen⟩ := outHolds_endCall i hu
  rw [List.length_map, inputBits_length] at hlen
  exact ⟨hout, hlen⟩

/-- The symbol of a bit in such an output. -/
theorem outLevel_of_outHolds_map {f : Bit → Int} {s t : State} (h : outHolds ((inputBits s s.inLen).map f) t) {j : Nat}
    (hj : j < s.inLen) : outLevel t j = f (memReadIn s j) :=
  outLevel_of_getElem? h (by rw [List.getElem?_map, inputBits_getElem? hj, Option.map_some])

/-- The output of a call of ENC.NRZU: the bits themselves (R140). -/
theorem exec_nrzu_outHolds {ic : BitVec 2} {s t : State} (h : exec (.nrzu ic) s = .next t) :
    outHolds (nrzuLevels (inputBits s s.inLen)) t ∧ t.outLen = s.inLen :=
  exec_outHolds_of_emit rfl (fun b => by have hbit := bitToInt_cases b; omega) (fun _ => rfl) h

/-- The output of a call of ENC.NRZL: -1 for a 1 bit and +1 for a 0 bit (R141). -/
theorem exec_nrzl_outHolds {ic : BitVec 2} {s t : State} (h : exec (.nrzl ic) s = .next t) :
    outHolds (nrzlLevels (inputBits s s.inLen)) t ∧ t.outLen = s.inLen :=
  exec_outHolds_of_emit rfl (by decide) (fun _ => rfl) h

/-- NRZ-Polar-L's symbol as arithmetic on the bit (R143). -/
theorem nrzlSymbol_eq (b : Bit) : (if b then -1 else 1) = 1 - 2 * bitToInt b := by cases b <;> rfl

/-! ### NRZ-Polar-I -/

/-- One bit more of NRZ-Polar-I. -/
theorem nrziLevels_concat (level : Int) (bs : List Bit) (b : Bit) :
    nrziLevels level (bs ++ [b]) = nrziLevels level bs ++ [levelAfter level (bs ++ [b])] := by
  induction bs generalizing level with
  | nil => rfl
  | cons c cs ih => simp only [List.cons_append, nrziLevels, ih, levelAfter_cons]

/-- One step moves `level` as Differential Manchester's does, and appends it (R142). -/
theorem outHolds_nrziStep {ls : List Int} {s : State} (h : outHolds ls s) (hl : -2 ≤ s.level.toInt ∧ s.level.toInt ≤ 3) :
    outHolds (ls ++ [nextLevel s.level.toInt (groupBit 0 s)]) (nrziStep s) ∧
      (nrziStep s).level.toInt = nextLevel s.level.toInt (groupBit 0 s) := by
  have hflip : outHolds ls (nrziFlip s) := by rw [nrziFlip_eq]; exact h
  have hlevel : (nrziFlip s).level.toInt = nextLevel s.level.toInt (groupBit 0 s) := by
    rw [nrziFlip_eq_dmanFlip, dmanFlip_level_toInt hl]
  have hnext := nextLevel_cases s.level.toInt (groupBit 0 s)
  rw [← hlevel] at hnext ⊢
  exact ⟨outHolds_emit hflip (by omega), rfl⟩

/-- A call of ENC.NRZI after the first `m` bits of the input of `s`: its output, and `level`. -/
def nrziPoint (ic : BitVec 2) (s : State) (m : Nat) (v : State) : Prop :=
  outHolds (nrziLevels (icValue ic) (inputBits s m)) v ∧ v.level.toInt = levelAfter (icValue ic) (inputBits s m)

/-- The loop starts with no output and `level` at the index (R142). -/
theorem nrziPoint_init (ic : BitVec 2) (s : State) :
    nrziPoint ic s 0 ((transformOf (.nrzi ic)).init (openCall s)) := by
  have hic : icValue ic < 4 := ic.isLt
  exact ⟨outHolds_init_openCall (.nrzi ic) s, setLevel_level_toInt _ (by omega)⟩

/-- A pass on bit `m` of the input leads on to the next point. -/
theorem nrziPoint_groupStep {ic : BitVec 2} {s v : State} {m : Nat} (hbit : groupBit 0 v = memReadIn s m)
    (h : nrziPoint ic s m v) : nrziPoint ic s (m + 1) (groupStep (transformOf (.nrzi ic)) v) := by
  obtain ⟨hout, hl⟩ := h
  obtain ⟨hstep, hlevel⟩ := outHolds_nrziStep hout (hl ▸ levelAfter_icValue_bounds ic _)
  rw [hbit, hl, ← levelAfter_concat] at hstep hlevel
  rw [nrziPoint, inputBits_succ, nrziLevels_concat]
  exact ⟨outHolds_congr hstep rfl rfl, hlevel⟩

/-- The output of a call of ENC.NRZI is NRZ-Polar-I of its input, from any index that runs (R142, R204). -/
theorem exec_nrzi_outHolds {ic : BitVec 2} {s t : State} (h : exec (.nrzi ic) s = .next t) :
    outHolds (nrziLevels (icValue ic) (inputBits s s.inLen)) t ∧ t.outLen = s.inLen := by
  obtain ⟨u, ⟨hu, -⟩, rfl⟩ := exec_next_induct_bits rfl (nrziPoint_init ic s) (fun _ _ => nrziPoint_groupStep) h
  obtain ⟨hout, hlen⟩ := outHolds_endCall (.nrzi ic) hu
  rw [nrziLevels_length, inputBits_length] at hlen
  exact ⟨hout, hlen⟩

/-- The symbol of a bit in the output of ENC.NRZI: `level` after it (R142). -/
theorem exec_nrzi_outLevel {ic : BitVec 2} {s t : State} (h : exec (.nrzi ic) s = .next t) {i : Nat} (hi : i < s.inLen) :
    outLevel t i = levelAfter (icValue ic) (inputBits s (i + 1)) := by
  refine outLevel_of_getElem? (exec_nrzi_outHolds h).1 ?_
  rw [nrziLevels_getElem? (by rwa [inputBits_length]), inputBits_take hi]

/-- The symbol of a bit in the output of ENC.NRZI differs from `level` before it exactly on a 0 bit (R142). -/
theorem exec_nrzi_outLevel_ne_iff {ic : BitVec 2} {s t : State} (h : exec (.nrzi ic) s = .next t) {i : Nat}
    (hi : i < s.inLen) : outLevel t i ≠ levelAfter (icValue ic) (inputBits s i) ↔ memReadIn s i = false := by
  rw [exec_nrzi_outLevel h hi, inputBits_succ, levelAfter_concat, ne_eq, nextLevel_eq_self_iff, Bool.not_eq_true]

/-- Settles O30: NRZ-Unipolar and NRZ-Polar-L emit a function of each bit; the symbol before a bit in NRZ-Polar-I, or the
index before the first, is the `level` that the bit finds, and a bit moves it exactly when it is 0. -/
theorem nrzOutputProperties : Obligations.NrzOutputProperties := by
  refine ⟨fun ic s t h => ?_, fun ic s t h => ?_, fun ic s t h => ?_⟩
  · obtain ⟨hout, hlen⟩ := exec_nrzu_outHolds h
    exact ⟨hlen, fun i hi => outLevel_of_outHolds_map hout hi⟩
  · obtain ⟨hout, hlen⟩ := exec_nrzl_outHolds h
    exact ⟨hlen, fun i hi => (outLevel_of_outHolds_map hout hi).trans (nrzlSymbol_eq _)⟩
  · refine ⟨(exec_nrzi_outHolds h).2, fun i h1 hi => ?_, fun h0 => exec_nrzi_outLevel_ne_iff h h0⟩
    obtain ⟨k, rfl⟩ := Nat.exists_eq_add_of_le' h1
    rw [Nat.add_sub_cancel, exec_nrzi_outLevel h (Nat.lt_of_succ_lt hi)]
    exact exec_nrzi_outLevel_ne_iff h hi

end Sys2Proof.Machine
end

section
/-! RZ (44_rz.md R150, R151). The pulse is a function of the bit alone, so the first part speaks of any scheme whose step
emits two such symbols. -/

namespace Sys2Proof.Machine

/-! ### A pair of symbols that the bit determines -/

/-- A pass on bit `m` of the input, in a scheme whose step emits the symbols `f` and `g` of the bit. -/
theorem outHolds_groupStep_of_emit_emit {i : Instr} {f g : Bit → Int} {s v : State} {m : Nat}
    (hf : ∀ b, -4 ≤ f b ∧ f b ≤ 3) (hg : ∀ b, -4 ≤ g b ∧ g b ≤ 3)
    (hstep : (transformOf i).step v = emit (g (groupBit 0 v)) (emit (f (groupBit 0 v)) v))
    (hbit : groupBit 0 v = memReadIn s m) (h : outHolds ((inputBits s m).flatMap fun b => [f b, g b]) v) :
    outHolds ((inputBits s (m + 1)).flatMap fun b => [f b, g b]) (groupStep (transformOf i) v) := by
  have hemit := outHolds_emit_emit h (hf (groupBit 0 v)) (hg (groupBit 0 v))
  rw [← hstep, hbit, ← List.flatMap_singleton (fun b => [f b, g b]), ← List.flatMap_append, ← inputBits_succ] at hemit
  exact outHolds_congr hemit rfl rfl

/-- The output of a call whose step emits the symbols `f` and `g` of its bit: that pair for every bit of the input. -/
theorem exec_outHolds_of_emit_emit {i : Instr} {f g : Bit → Int} {s t : State} (h1 : groupSizeOf i = 1)
    (hf : ∀ b, -4 ≤ f b ∧ f b ≤ 3) (hg : ∀ b, -4 ≤ g b ∧ g b ≤ 3)
    (hstep : ∀ v, (transformOf i).step v = emit (g (groupBit 0 v)) (emit (f (groupBit 0 v)) v))
    (h : exec i s = .next t) :
    outHolds ((inputBits s s.inLen).flatMap fun b => [f b, g b]) t ∧ t.outLen = 2 * s.inLen := by
  obtain ⟨u, hu, rfl⟩ := exec_next_induct_bits
    (P := fun m => outHolds ((inputBits s m).flatMap fun b => [f b, g b])) h1
    (outHolds_init_openCall i s) (fun _ v => outHolds_groupStep_of_emit_emit hf hg (hstep v)) h
  obtain ⟨hout, hlen⟩ := outHolds_endCall i hu
  rw [length_flatMap_pair, inputBits_length] at hlen
  exact ⟨hout, hlen⟩

/-- The half-bits of a bit in such an output. -/
theorem outLevel_of_outHolds_flatMap_pair {f g : Bit → Int} {s t : State}
    (h : outHolds ((inputBits s s.inLen).flatMap fun b => [f b, g b]) t) {i : Nat} (hi : i < s.inLen) :
    outLevel t (2 * i) = f (memReadIn s i) ∧ outLevel t (2 * i + 1) = g (memReadIn s i) := by
  obtain ⟨hfirst, hsecond⟩ := getElem?_flatMap_pair f g (inputBits s s.inLen) i
  rw [inputBits_getElem? hi] at hfirst hsecond
  exact ⟨outLevel_of_getElem? h hfirst, outLevel_of_getElem? h hsecond⟩

/-! ### The engine -/

/-- The output of a call of ENC.RZ is RZ of its input (R150). -/
theorem exec_rz_outHolds {ic : BitVec 2} {s t : State} (h : exec (.rz ic) s = .next t) :
    outHolds (rzLevels (inputBits s s.inLen)) t ∧ t.outLen = 2 * s.inLen :=
  exec_outHolds_of_emit_emit rfl (by decide) (by decide) (fun _ => rfl) h

/-- RZ's pulse as arithmetic on the bit (R151). -/
theorem rzPulse_eq (b : Bit) : (if b then 1 else -1) = 2 * bitToInt b - 1 := by cases b <;> rfl

/-- The half-bits of a bit in the output of ENC.RZ: the pulse and the return to zero (R150, R151). -/
theorem exec_rz_halfBits {ic : BitVec 2} {s t : State} (h : exec (.rz ic) s = .next t) {i : Nat} (hi : i < s.inLen) :
    outLevel t (2 * i) = 2 * bitToInt (memReadIn s i) - 1 ∧ outLevel t (2 * i + 1) = 0 := by
  obtain ⟨hpulse, hzero⟩ := outLevel_of_outHolds_flatMap_pair (exec_rz_outHolds h).1 hi
  exact ⟨hpulse.trans (rzPulse_eq _), hzero⟩

/-- Settles O31: the output is a pair `(2 * bit - 1, 0)` for every bit of the input, and a bit is 0 or 1. -/
theorem rzOutputProperties : Obligations.RzOutputProperties := by
  intro ic s t h
  obtain ⟨-, hlen⟩ := exec_rz_outHolds h
  refine ⟨hlen, fun j hj => ?_, fun i hi => ?_⟩
  · obtain ⟨i, hi, hj⟩ := exists_halfBit_of_lt (hlen ▸ hj)
    obtain ⟨hpulse, hzero⟩ := exec_rz_halfBits h hi
    have hbit := bitToInt_cases (memReadIn s i)
    rcases hj with rfl | rfl <;> omega
  · obtain ⟨hpulse, hzero⟩ := exec_rz_halfBits h hi
    have hbit := bitToInt_cases (memReadIn s i)
    exact ⟨hpulse, by omega, hzero⟩

end Sys2Proof.Machine
end

section
/-! 2B1Q (45_2b1q.md R155 to R157). `pairSymbol` is the symbol of one pair of the input; a call emits them in order. -/

namespace Sys2Proof.Machine

/-! ### The table of R155 -/

/-- The engine's product of sign and magnitude is the table's entry (R155). -/
theorem sign_mul_magnitude_eq_pairLevel (b0 b1 : Bit) :
    (if b0 then 1 else -1) * (if b1 then 1 else 3) = pairLevel b0 b1 := by
  cases b0 <;> cases b1 <;> rfl

/-- The table has four levels (R157). -/
theorem pairLevel_cases (b0 b1 : Bit) :
    pairLevel b0 b1 = -3 ∨ pairLevel b0 b1 = -1 ∨ pairLevel b0 b1 = 1 ∨ pairLevel b0 b1 = 3 := by
  revert b0 b1; decide

/-- The first bit selects the sign (R157). -/
theorem pairLevel_pos_iff (b0 b1 : Bit) : 0 < pairLevel b0 b1 ↔ b0 = true := by
  revert b0 b1; decide

/-- The second bit selects the magnitude: the inner one on a 1 bit (R157). -/
theorem abs_pairLevel_eq_one_iff (b0 b1 : Bit) : |pairLevel b0 b1| = 1 ↔ b1 = true := by
  revert b0 b1; decide

/-- And the outer one on a 0 bit (R157). -/
theorem abs_pairLevel_eq_three_iff (b0 b1 : Bit) : |pairLevel b0 b1| = 3 ↔ b1 = false := by
  revert b0 b1; decide

/-- Sign and magnitude give both bits back (R157). -/
theorem pairLevel_injective {a b c d : Bit} (h : pairLevel a b = pairLevel c d) : a = c ∧ b = d := by
  have hsign : a = true ↔ c = true := by rw [← pairLevel_pos_iff a b, h, pairLevel_pos_iff]
  have hmagnitude : b = true ↔ d = true := by rw [← abs_pairLevel_eq_one_iff a b, h, abs_pairLevel_eq_one_iff]
  exact ⟨Bool.eq_iff_iff.mpr hsign, Bool.eq_iff_iff.mpr hmagnitude⟩

/-- Each of the four levels is the symbol of a pair (R157). -/
theorem exists_pairLevel_eq {v : Int} (h : v = -3 ∨ v = -1 ∨ v = 1 ∨ v = 3) : ∃ a b : Bit, pairLevel a b = v := by
  rcases h with rfl | rfl | rfl | rfl
  · exact ⟨false, false, rfl⟩
  · exact ⟨false, true, rfl⟩
  · exact ⟨true, true, rfl⟩
  · exact ⟨true, false, rfl⟩

/-! ### The pairs of the input -/

/-- The symbol of pair `k` of the input. -/
def pairSymbol (s : State) (k : Nat) : Int := pairLevel (memReadIn s (2 * k)) (memReadIn s (2 * k + 1))

/-- On a list given by its elements, the pairs stand at `2k` and `2k+1`, and an element left over makes no symbol (R156). -/
theorem twoB1QLevels_map_range : ∀ (f : Nat → Bit) (n : Nat),
    twoB1QLevels ((List.range n).map f) = (List.range (n / 2)).map fun k => pairLevel (f (2 * k)) (f (2 * k + 1))
  | _, 0 => rfl
  | _, 1 => rfl
  | f, n + 2 => by
    have ih := twoB1QLevels_map_range (fun k => f (k + 2)) n
    rw [Nat.add_div_right n (by decide)]
    simp only [List.range_succ_eq_map, List.map_cons, List.map_map]
    exact congrArg (pairLevel (f 0) (f 1) :: ·) ih

/-- 2B1Q of the input is the symbols of its whole pairs (R155, R156). -/
theorem twoB1QLevels_inputBits (s : State) (n : Nat) :
    twoB1QLevels (inputBits s n) = (List.range (n / 2)).map (pairSymbol s) :=
  twoB1QLevels_map_range (memReadIn s) n

/-! ### The engine -/

/-- One step appends the symbol of the pair at the cursor (R155). -/
theorem outHolds_twoB1QStep {ls : List Int} {s : State} (h : outHolds ls s) :
    outHolds (ls ++ [pairLevel (groupBit 0 s) (groupBit 1 s)]) (twoB1QStep s) := by
  have hlevel := pairLevel_cases (groupBit 0 s) (groupBit 1 s)
  simp only [twoB1QStep, sign_mul_magnitude_eq_pairLevel]
  exact outHolds_emit h (by omega)

/-- A pass on pair `m` of the input appends its symbol. -/
theorem outHolds_twoB1Q_groupStep {ic : BitVec 2} {s v : State} {m : Nat}
    (hbit : ∀ k, groupBit k v = memReadIn s (m * groupSizeOf (.twoB1Q ic) + k))
    (h : outHolds ((List.range m).map (pairSymbol s)) v) :
    outHolds ((List.range (m + 1)).map (pairSymbol s)) (groupStep (transformOf (.twoB1Q ic)) v) := by
  have hpair : pairLevel (groupBit 0 v) (groupBit 1 v) = pairSymbol s m := by
    rw [hbit 0, hbit 1, groupSizeOf_twoB1Q, Nat.mul_comm, pairSymbol, Nat.add_zero]
  have hstep := outHolds_twoB1QStep h
  rw [hpair, ← List.map_singleton, ← List.map_append, ← List.range_succ] at hstep
  exact outHolds_congr hstep rfl rfl

/-- The output of a call of ENC.2B1Q is 2B1Q of its input (R155, R156). -/
theorem exec_twoB1Q_outHolds {ic : BitVec 2} {s t : State} (h : exec (.twoB1Q ic) s = .next t) :
    outHolds (twoB1QLevels (inputBits s s.inLen)) t ∧ t.outLen = s.inLen / 2 := by
  obtain ⟨u, hu, rfl⟩ := exec_next_induct (P := fun m => outHolds ((List.range m).map (pairSymbol s)))
    (outHolds_init_openCall _ s) (fun _ _ => outHolds_twoB1Q_groupStep) h
  obtain ⟨hout, hlen⟩ := outHolds_endCall (.twoB1Q ic) hu
  rw [groupSizeOf_twoB1Q] at hout hlen
  rw [List.length_map, List.length_range] at hlen
  exact ⟨twoB1QLevels_inputBits s s.inLen ▸ hout, hlen⟩

/-- The symbol of a pair in the output of ENC.2B1Q (R155). -/
theorem exec_twoB1Q_outLevel {ic : BitVec 2} {s t : State} (h : exec (.twoB1Q ic) s = .next t) {i : Nat}
    (hi : i < s.inLen / 2) : outLevel t i = pairLevel (memReadIn s (2 * i)) (memReadIn s (2 * i + 1)) := by
  refine outLevel_of_getElem? (exec_twoB1Q_outHolds h).1 ?_
  rw [twoB1QLevels_inputBits, List.getElem?_map, List.getElem?_range hi, Option.map_some, pairSymbol]

/-- Settles O32: every symbol of the output is its pair's entry in the table, and the rest is about the table. -/
theorem twoB1QOutputProperties : Obligations.TwoB1QOutputProperties := by
  refine ⟨fun ic s t h => ⟨(exec_twoB1Q_outHolds h).2, fun i hi => ?_⟩, fun _ _ _ _ => pairLevel_injective,
    fun _ => exists_pairLevel_eq⟩
  rw [exec_twoB1Q_outLevel h hi]
  exact ⟨pairLevel_cases _ _, rfl, pairLevel_pos_iff _ _, abs_pairLevel_eq_one_iff _ _, abs_pairLevel_eq_three_iff _ _⟩

end Sys2Proof.Machine
end

section
/-! MLT-3 (46_mlt3.md R166 to R169). `mlt3After` follows the two registers through the input; the output is its levels. At
a level of +1 or -1 the move on a 1 bit does not look at the direction, which is why OUT does not depend on it there. -/

namespace Sys2Proof.Machine

/-! ### The transition table -/

/-- A level of -1, 0 or +1 moves to another such level (R168). -/
theorem mlt3Next_level_bounds {level : Int} (h : -1 ≤ level ∧ level ≤ 1) (growing : Bool) (b : Bit) :
    -1 ≤ (mlt3Next level growing b).1 ∧ (mlt3Next level growing b).1 ≤ 1 := by
  cases b with
  | false => exact h
  | true =>
    simp only [mlt3Next, if_true]
    generalize (if growing then level + 1 else level - 1) = v
    split
    · next hv => exact hv
    · simp

/-- The level changes exactly on a 1 bit: a step moves by one, and a clamp is from +1 or -1 to 0 (R169). -/
theorem mlt3Next_level_ne_iff {level : Int} {growing : Bool} {b : Bit} :
    (mlt3Next level growing b).1 ≠ level ↔ b = true := by
  cases b with
  | false => simp [mlt3Next]
  | true =>
    have hmove : (if growing then level + 1 else level - 1) = level + 1 ∨
        (if growing then level + 1 else level - 1) = level - 1 := by cases growing <;> simp
    simp only [mlt3Next, if_true, iff_true]
    generalize (if growing then level + 1 else level - 1) = v at hmove ⊢
    split
    · omega
    · change 0 ≠ level
      omega

/-! ### The pure form -/

/-- The level and the direction once the bits have been read (R166). -/
def mlt3After (level : Int) (growing : Bool) (bits : List Bit) : Int × Bool :=
  bits.foldl (fun p b => mlt3Next p.1 p.2 b) (level, growing)

@[simp] theorem mlt3After_cons (level : Int) (growing : Bool) (b : Bit) (bs : List Bit) :
    mlt3After level growing (b :: bs) =
      mlt3After (mlt3Next level growing b).1 (mlt3Next level growing b).2 bs := rfl

@[simp] theorem mlt3After_concat (level : Int) (growing : Bool) (bs : List Bit) (b : Bit) :
    mlt3After level growing (bs ++ [b]) =
      mlt3Next (mlt3After level growing bs).1 (mlt3After level growing bs).2 b := by simp [mlt3After]

/-- From a level of -1, 0 or +1 the level stays among them, whatever the input (R169). -/
theorem mlt3After_level_bounds {level : Int} (h : -1 ≤ level ∧ level ≤ 1) (growing : Bool) (bits : List Bit) :
    -1 ≤ (mlt3After level growing bits).1 ∧ (mlt3After level growing bits).1 ≤ 1 := by
  induction bits using List.reverseRecOn with
  | nil => exact h
  | append_singleton bs b ih =>
    rw [mlt3After_concat]
    exact mlt3Next_level_bounds ih _ b

/-- MLT-3 emits the level after each bit (R166). -/
theorem mlt3Levels_getElem? : ∀ {level : Int} {growing : Bool} {bits : List Bit} {i : Nat}, i < bits.length →
    (mlt3Levels level growing bits)[i]? = some (mlt3After level growing (bits.take (i + 1))).1
  | _, _, _ :: _, 0, _ => rfl
  | level, growing, b :: _, _ + 1, h =>
    mlt3Levels_getElem? (level := (mlt3Next level growing b).1) (growing := (mlt3Next level growing b).2)
      (Nat.lt_of_succ_lt_succ h)

/-- MLT-3 emits a symbol a bit. -/
theorem mlt3Levels_length :
    ∀ (level : Int) (growing : Bool) (bits : List Bit), (mlt3Levels level growing bits).length = bits.length
  | _, _, [] => rfl
  | _, _, _ :: bs => congrArg (· + 1) (mlt3Levels_length _ _ bs)

/-- One bit more of MLT-3. -/
theorem mlt3Levels_concat (level : Int) (growing : Bool) (bs : List Bit) (b : Bit) :
    mlt3Levels level growing (bs ++ [b]) =
      mlt3Levels level growing bs ++ [(mlt3After level growing (bs ++ [b])).1] := by
  induction bs generalizing level growing with
  | nil => rfl
  | cons c cs ih => simp only [List.cons_append, mlt3Levels, ih, mlt3After_cons]

/-! ### The engine's step -/

/-- The two registers of MLT-3, as the transition table lists them (R168). -/
def mlt3Registers (s : State) : Int × Bool := (s.level.toInt, s.growing)

/-- On a 1 bit the step moves and emits (R166). -/
theorem mlt3Step_mark {s : State} (h : groupBit 0 s = true) :
    mlt3Step s = emit (mlt3Move s).level.toInt (mlt3Move s) := by simp only [mlt3Step, h, if_true]

/-- On a 0 bit it emits alone (R166). -/
theorem mlt3Step_space {s : State} (h : groupBit 0 s = false) : mlt3Step s = emit s.level.toInt s := by
  simp only [mlt3Step, h, Bool.false_eq_true, if_false]

/-- The move is the table's row for a 1 bit (R168). -/
theorem mlt3Move_registers (s : State) :
    mlt3Registers (mlt3Move s) = mlt3Next (mlt3Registers s).1 (mlt3Registers s).2 true := by
  have ht : s.level.toInt + (if s.growing then 1 else -1) =
      if s.growing then s.level.toInt + 1 else s.level.toInt - 1 := by split <;> rfl
  change mlt3Registers (mlt3Move s) = mlt3Next s.level.toInt s.growing true
  simp only [mlt3Move, mlt3Next, ht, if_true]
  generalize (if s.growing then s.level.toInt + 1 else s.level.toInt - 1) = v
  by_cases hv : -1 ≤ v ∧ v ≤ 1
  · rw [if_neg (by omega), if_pos hv]
    exact Prod.ext (setLevel_level_toInt s (by omega)) rfl
  · rw [if_pos (by omega), if_neg hv]
    rfl

/-- A step takes the registers to the table's next entry (R166, R168). -/
theorem mlt3Step_registers (s : State) :
    mlt3Registers (mlt3Step s) = mlt3Next (mlt3Registers s).1 (mlt3Registers s).2 (groupBit 0 s) := by
  cases hbit : groupBit 0 s with
  | true => rw [mlt3Step_mark hbit]; exact mlt3Move_registers s
  | false => rw [mlt3Step_space hbit]; rfl

/-- Every value of the register `level` is a symbol (R32, R77). -/
theorem level_toInt_bounds (s : State) : -4 ≤ s.level.toInt ∧ s.level.toInt ≤ 3 :=
  ⟨BitVec.le_toInt s.level, Int.le_of_lt_add_one BitVec.toInt_lt⟩

/-- A step appends the level it leaves (R166). -/
theorem outHolds_mlt3Step {ls : List Int} {s : State} (h : outHolds ls s) :
    outHolds (ls ++ [(mlt3Registers (mlt3Step s)).1]) (mlt3Step s) := by
  cases hbit : groupBit 0 s with
  | true =>
    rw [mlt3Step_mark hbit]
    have hmove : outHolds ls (mlt3Move s) := by rw [mlt3Move_eq]; exact h
    exact outHolds_emit hmove (level_toInt_bounds _)
  | false =>
    rw [mlt3Step_space hbit]
    exact outHolds_emit h (level_toInt_bounds s)

/-! ### The call -/

/-- The starting level is one of the three (R167). -/
theorem icMlt3Level_bounds (ic : BitVec 2) : -1 ≤ icMlt3Level ic ∧ icMlt3Level ic ≤ 1 := by
  revert ic; decide

/-- A call of ENC.MLT3 after the first `m` bits of the input of `s`: its output, and the two registers. -/
def mlt3Point (ic : BitVec 2) (s : State) (m : Nat) (v : State) : Prop :=
  outHolds (mlt3Levels (icMlt3Level ic) (icMlt3Growing ic) (inputBits s m)) v ∧
    mlt3Registers v = mlt3After (icMlt3Level ic) (icMlt3Growing ic) (inputBits s m)

/-- The loop starts with no output and the registers of the index (R167). -/
theorem mlt3Point_init (ic : BitVec 2) (s : State) :
    mlt3Point ic s 0 ((transformOf (.mlt3 ic)).init (openCall s)) := by
  have hic := icMlt3Level_bounds ic
  exact ⟨outHolds_init_openCall (.mlt3 ic) s, Prod.ext (setLevel_level_toInt (openCall s) (by omega)) rfl⟩

/-- A pass on bit `m` of the input leads on to the next point. -/
theorem mlt3Point_groupStep {ic : BitVec 2} {s v : State} {m : Nat} (hbit : groupBit 0 v = memReadIn s m)
    (h : mlt3Point ic s m v) : mlt3Point ic s (m + 1) (groupStep (transformOf (.mlt3 ic)) v) := by
  obtain ⟨hout, hregs⟩ := h
  have hstep := outHolds_mlt3Step hout
  have hnext := mlt3Step_registers v
  rw [hbit, hregs, ← mlt3After_concat] at hnext
  rw [hnext] at hstep
  rw [mlt3Point, inputBits_succ, mlt3Levels_concat]
  exact ⟨outHolds_congr hstep rfl rfl, hnext⟩

/-- The output of a call of ENC.MLT3 is MLT-3 of its input from the start of the index (R166, R167). -/
theorem exec_mlt3_outHolds {ic : BitVec 2} {s t : State} (h : exec (.mlt3 ic) s = .next t) :
    outHolds (mlt3Levels (icMlt3Level ic) (icMlt3Growing ic) (inputBits s s.inLen)) t ∧ t.outLen = s.inLen := by
  obtain ⟨u, ⟨hu, -⟩, rfl⟩ := exec_next_induct_bits rfl (mlt3Point_init ic s) (fun _ _ => mlt3Point_groupStep) h
  obtain ⟨hout, hlen⟩ := outHolds_endCall (.mlt3 ic) hu
  rw [mlt3Levels_length, inputBits_length] at hlen
  exact ⟨hout, hlen⟩

/-- All of the output of a call of ENC.MLT3 (R166, R233). -/
theorem exec_mlt3_outLevels {ic : BitVec 2} {s t : State} (h : exec (.mlt3 ic) s = .next t) :
    outLevels t = mlt3Levels (icMlt3Level ic) (icMlt3Growing ic) (inputBits s s.inLen) := by
  obtain ⟨hout, hlen⟩ := exec_mlt3_outHolds h
  exact outHolds_outLevels hout (by rw [hlen, mlt3Levels_length, inputBits_length])

/-- The symbol of a bit in the output of ENC.MLT3: the level after it (R166). -/
theorem exec_mlt3_outLevel {ic : BitVec 2} {s t : State} (h : exec (.mlt3 ic) s = .next t) {i : Nat} (hi : i < s.inLen) :
    outLevel t i = (mlt3After (icMlt3Level ic) (icMlt3Growing ic) (inputBits s (i + 1))).1 := by
  refine outLevel_of_getElem? (exec_mlt3_outHolds h).1 ?_
  rw [mlt3Levels_getElem? (by rwa [inputBits_length]), inputBits_take hi]

/-- The symbol of a bit in the output of ENC.MLT3 differs from the level before it exactly on a 1 bit (R169). -/
theorem exec_mlt3_outLevel_ne_iff {ic : BitVec 2} {s t : State} (h : exec (.mlt3 ic) s = .next t) {i : Nat}
    (hi : i < s.inLen) :
    outLevel t i ≠ (mlt3After (icMlt3Level ic) (icMlt3Growing ic) (inputBits s i)).1 ↔ memReadIn s i = true := by
  rw [exec_mlt3_outLevel h hi, inputBits_succ, mlt3After_concat]
  exact mlt3Next_level_ne_iff

/-- The first `n` bits of an input of 1 bits. -/
theorem inputBits_eq_replicate {s : State} {n : Nat} (h : ∀ i, i < n → memReadIn s i = true) :
    inputBits s n = List.replicate n true := by
  refine List.eq_replicate_iff.mpr ⟨inputBits_length s n, fun b hb => ?_⟩
  obtain ⟨i, hi, rfl⟩ := List.mem_map.mp hb
  exact h i (List.mem_range.mp hi)

/-- MLT-3 of `1111` from the start of each index (R169). -/
theorem mlt3Levels_four_marks (ic : BitVec 2) :
    mlt3Levels (icMlt3Level ic) (icMlt3Growing ic) (List.replicate 4 true) =
      [[0, -1, 0, 1], [1, 0, -1, 0], [-1, 0, 1, 0], [0, 1, 0, -1]].getD ic.toNat [] := by
  revert ic; decide

/-! ### The direction at +1 and -1 -/

/-- Writing the direction that is there changes nothing. -/
theorem setGrowing_of_growing {s : State} {g : Bool} (h : s.growing = g) : setGrowing g s = s := by subst h; rfl

/-- At +1 and -1 a move leads to 0, with the direction away from the level left: outward it clamps, and inward it is a step
that keeps the direction (R169). -/
theorem mlt3Move_of_extreme {s : State} (h : s.level.toInt = 1 ∨ s.level.toInt = -1) :
    mlt3Move s = setGrowing (decide (s.level.toInt = -1)) (setLevel 0 s) := by
  have hinward {g : Bool} (hg : s.growing = g) : setGrowing g (setLevel 0 s) = setLevel 0 s :=
    setGrowing_of_growing (s := setLevel 0 s) hg
  rcases h with h | h
  · cases hg : s.growing with
    | true => simp [mlt3Move, h, hg]
    | false => simp [mlt3Move, h, hg, hinward]
  · cases hg : s.growing with
    | true => simp [mlt3Move, h, hg, hinward]
    | false => simp [mlt3Move, h, hg]

/-- So there a move from either direction ends in the same state. -/
theorem mlt3Move_setGrowing {s : State} (h : s.level.toInt = 1 ∨ s.level.toInt = -1) (g : Bool) :
    mlt3Move (setGrowing g s) = mlt3Move s := by
  rw [mlt3Move_of_extreme h, mlt3Move_of_extreme (s := setGrowing g s) h]
  rfl

/-- The registers after a 1 bit at +1 or -1 (R168, R169). -/
theorem mlt3Step_of_extreme {s : State} (hbit : groupBit 0 s = true) (h : s.level.toInt = 1 ∨ s.level.toInt = -1) :
    (mlt3Step s).level.toInt = 0 ∧ (mlt3Step s).growing = decide (s.level.toInt = -1) := by
  rw [mlt3Step_mark hbit, mlt3Move_of_extreme h]
  exact ⟨rfl, rfl⟩

/-- A pass on a 1 bit at +1 or -1 makes the two directions one state. -/
theorem mlt3_groupStep_setGrowing_of_mark {s : State} (ic : BitVec 2) (g : Bool) (hbit : groupBit 0 s = true)
    (h : s.level.toInt = 1 ∨ s.level.toInt = -1) :
    groupStep (mlt3Transform ic) (setGrowing g s) = groupStep (mlt3Transform ic) s := by
  have hstep : mlt3Step (setGrowing g s) = mlt3Step s := by
    rw [mlt3Step_mark hbit, mlt3Step_mark (s := setGrowing g s) hbit, mlt3Move_setGrowing h]
  simp only [groupStep, mlt3Transform, hstep]

/-- A pass on a 0 bit carries the direction along. -/
theorem mlt3_groupStep_setGrowing_of_space {s : State} (ic : BitVec 2) (g : Bool) (hbit : groupBit 0 s = false) :
    groupStep (mlt3Transform ic) (setGrowing g s) = setGrowing g (groupStep (mlt3Transform ic) s) := by
  simp only [groupStep, mlt3Transform, mlt3Step_space hbit, mlt3Step_space (s := setGrowing g s) hbit]
  rfl

/-- A pass on a 0 bit keeps the level. -/
theorem mlt3_groupStep_level_of_space {s : State} (ic : BitVec 2) (hbit : groupBit 0 s = false) :
    (groupStep (mlt3Transform ic) s).level = s.level := by
  simp only [groupStep, mlt3Transform, mlt3Step_space hbit, emit_level]

/-- From +1 or -1 the loop writes the same OUT in either direction: 0 bits keep the level, and the first 1 bit makes the
two states one (R169). -/
theorem mlt3_groupLoop_setGrowing_mem (ic : BitVec 2) (g : Bool) :
    ∀ (k : Nat) {s : State}, s.level.toInt = 1 ∨ s.level.toInt = -1 →
      (groupLoop (mlt3Transform ic) k (setGrowing g s)).mem = (groupLoop (mlt3Transform ic) k s).mem
  | 0, _, _ => rfl
  | k + 1, s, h => by
    have hready : groupReady (mlt3Transform ic) (setGrowing g s) = groupReady (mlt3Transform ic) s := rfl
    rw [groupLoop, groupLoop, hready]
    split
    · cases hbit : groupBit 0 s with
      | true => rw [mlt3_groupStep_setGrowing_of_mark ic g hbit h]
      | false =>
        rw [mlt3_groupStep_setGrowing_of_space ic g hbit]
        exact mlt3_groupLoop_setGrowing_mem ic g k (mlt3_groupStep_level_of_space ic hbit ▸ h)
    · rfl

/-- Settles O34: the symbol before a bit, or the starting level, is the level that the bit finds, and a bit moves it exactly
when it is 1; at +1 and -1 the move does not look at the direction. -/
theorem mlt3OutputProperties : Obligations.Mlt3OutputProperties := by
  refine ⟨fun ic s t h => ⟨(exec_mlt3_outHolds h).2, fun i hi => ?_, fun i h1 hi => ?_,
    fun h0 => exec_mlt3_outLevel_ne_iff h h0, fun hn hin => ?_⟩, fun ic s k h => ?_,
    fun s hbit => ⟨fun h => ?_, fun h => ?_⟩⟩
  · have hbounds := mlt3After_level_bounds (icMlt3Level_bounds ic) (icMlt3Growing ic) (inputBits s (i + 1))
    rw [← exec_mlt3_outLevel h hi] at hbounds
    omega
  · obtain ⟨k, rfl⟩ := Nat.exists_eq_add_of_le' h1
    rw [Nat.add_sub_cancel, exec_mlt3_outLevel h (Nat.lt_of_succ_lt hi)]
    exact exec_mlt3_outLevel_ne_iff h hi
  · rw [exec_mlt3_outLevels h, hn, inputBits_eq_replicate hin, mlt3Levels_four_marks]
  · exact (mlt3_groupLoop_setGrowing_mem ic true k h).trans (mlt3_groupLoop_setGrowing_mem ic false k h).symm
  · have hregs := mlt3Step_of_extreme hbit (.inl h)
    rwa [h] at hregs
  · have hregs := mlt3Step_of_extreme hbit (.inr h)
    rwa [h] at hregs

end Sys2Proof.Machine
end

section
/-! 4B5B (47_4b5b.md R180 to R182). `groupCodeword` is the codeword of one group of the input; a call emits their symbols in
order. A codeword has a 1 among its first two symbols and one among its last three, and any four symbols in a row hold one
of those two parts of a codeword whole. -/

namespace Sys2Proof.Machine

/-! ### The codewords of R181 -/

@[simp] theorem codewordLevels_length (w : BitVec 5) : (codewordLevels w).length = 5 := rfl

/-- A codeword's symbols are binary (R182). -/
theorem codewordLevels_mem {w : BitVec 5} {v : Int} (h : v ∈ codewordLevels w) : v = 0 ∨ v = 1 := by
  obtain ⟨k, -, rfl⟩ := List.mem_map.mp h
  exact bitToInt_cases _

/-- Every codeword has two 1 symbols (R182). -/
theorem two_le_codeword_marks (g : BitVec 4) : 2 ≤ ((codewordLevels (t4b5b g)).filter (· = 1)).length := by
  revert g; decide

/-- And four of them have no more (R182). -/
theorem codeword_marks_eq_two_iff (g : BitVec 4) : ((codewordLevels (t4b5b g)).filter (· = 1)).length = 2 ↔
    g = 0b0001#4 ∨ g = 0b0010#4 ∨ g = 0b0100#4 ∨ g = 0b1000#4 := by
  revert g; decide

/-- No codeword begins with two 0 symbols (R182). -/
theorem codewordLevels_take_two_ne (g : BitVec 4) : (codewordLevels (t4b5b g)).take 2 ≠ [0, 0] := by
  revert g; decide

/-- No codeword ends with three 0 symbols (R182). -/
theorem codewordLevels_drop_two_ne (g : BitVec 4) : (codewordLevels (t4b5b g)).drop 2 ≠ [0, 0, 0] := by
  revert g; decide

/-- Binary symbols that are not all 0 have a 1 among them. -/
theorem exists_mark_of_ne_replicate {l : List Int} (hbin : ∀ v ∈ l, v = 0 ∨ v = 1)
    (hne : l ≠ List.replicate l.length 0) : ∃ r, r < l.length ∧ l[r]? = some 1 := by
  by_contra hnone
  refine hne (List.eq_replicate_iff.mpr ⟨rfl, fun v hv => (hbin v hv).resolve_right ?_⟩)
  rintro rfl
  obtain ⟨r, hr⟩ := List.mem_iff_getElem?.mp hv
  exact hnone ⟨r, (List.getElem?_eq_some_iff.mp hr).1, hr⟩

/-- A codeword has a 1 among its first two symbols. -/
theorem codeword_mark_in_first_two (g : BitVec 4) : ∃ r, r < 2 ∧ (codewordLevels (t4b5b g))[r]? = some 1 := by
  obtain ⟨r, hr, hmark⟩ := exists_mark_of_ne_replicate
    (fun v hv => codewordLevels_mem (List.mem_of_mem_take hv)) (codewordLevels_take_two_ne g)
  have htwo : r < 2 := hr
  rw [List.getElem?_take_of_lt htwo] at hmark
  exact ⟨r, htwo, hmark⟩

/-- A codeword has a 1 among its last three symbols. -/
theorem codeword_mark_in_last_three (g : BitVec 4) :
    ∃ r, 2 ≤ r ∧ r < 5 ∧ (codewordLevels (t4b5b g))[r]? = some 1 := by
  obtain ⟨r, hr, hmark⟩ := exists_mark_of_ne_replicate
    (fun v hv => codewordLevels_mem (List.mem_of_mem_drop hv)) (codewordLevels_drop_two_ne g)
  rw [List.getElem?_drop] at hmark
  exact ⟨2 + r, by omega, Nat.add_lt_add_left hr 2, hmark⟩

/-! ### The codewords of the input -/

/-- The codeword of group `k` of the input (R180). -/
def groupCodeword (s : State) (k : Nat) : BitVec 5 :=
  t4b5b (nibbleOf (memReadIn s (4 * k)) (memReadIn s (4 * k + 1)) (memReadIn s (4 * k + 2)) (memReadIn s (4 * k + 3)))

/-- The symbols of the first `m` groups of the input. -/
def codewordsOut (s : State) (m : Nat) : List Int := (List.range m).flatMap fun k => codewordLevels (groupCodeword s k)

/-- One group more of the input. -/
theorem codewordsOut_succ (s : State) (m : Nat) :
    codewordsOut s (m + 1) = codewordsOut s m ++ codewordLevels (groupCodeword s m) := by
  simp [codewordsOut, List.range_succ]

/-- Five symbols for every group. -/
@[simp] theorem codewordsOut_length (s : State) (m : Nat) : (codewordsOut s m).length = 5 * m := by
  induction m with
  | zero => rfl
  | succ m ih => rw [codewordsOut_succ, List.length_append, ih, codewordLevels_length, Nat.mul_succ]

/-- The symbols of group `i` stand from `5i` on. -/
theorem codewordsOut_getElem? {s : State} {m i r : Nat} (hi : i < m) (hr : r < 5) :
    (codewordsOut s m)[5 * i + r]? = (codewordLevels (groupCodeword s i))[r]? := by
  induction m with
  | zero => omega
  | succ m ih =>
    rw [codewordsOut_succ]
    rcases Nat.lt_succ_iff_lt_or_eq.mp hi with hlt | rfl
    · rw [List.getElem?_append_left (by rw [codewordsOut_length]; omega), ih hlt]
    · rw [List.getElem?_append_right (by rw [codewordsOut_length]; omega), codewordsOut_length, Nat.add_sub_cancel_left]

/-- 4B5B of a list given by its elements: a codeword for every four of them, and elements left over make no symbol. -/
theorem fourB5BLevels_map_range : ∀ (f : Nat → Bit) (n : Nat), fourB5BLevels ((List.range n).map f) =
    (List.range (n / 4)).flatMap fun k =>
      codewordLevels (t4b5b (nibbleOf (f (4 * k)) (f (4 * k + 1)) (f (4 * k + 2)) (f (4 * k + 3))))
  | _, 0 => rfl
  | _, 1 => rfl
  | _, 2 => rfl
  | _, 3 => rfl
  | f, n + 4 => by
    have ih := fourB5BLevels_map_range (fun k => f (k + 4)) n
    rw [Nat.add_div_right n (by decide)]
    simp only [List.range_succ_eq_map, List.map_cons, List.map_map, List.flatMap_cons, List.flatMap_map]
    exact congrArg (codewordLevels (t4b5b (nibbleOf (f 0) (f 1) (f 2) (f 3))) ++ ·) ih

/-- 4B5B of the input is the symbols of its whole groups (R180). -/
theorem fourB5BLevels_inputBits (s : State) (n : Nat) : fourB5BLevels (inputBits s n) = codewordsOut s (n / 4) :=
  fourB5BLevels_map_range (memReadIn s) n

/-! ### The engine -/

/-- One step appends the codeword of the group at the cursor (R180). -/
theorem outHolds_fourB5BStep {ls : List Int} {s : State} (h : outHolds ls s) :
    outHolds (ls ++ codewordLevels (t4b5b (groupNibble s))) (fourB5BStep s) := by
  have hbit (k : Nat) : -4 ≤ codeBit (t4b5b (groupNibble s)) k ∧ codeBit (t4b5b (groupNibble s)) k ≤ 3 := by
    have hcases : codeBit (t4b5b (groupNibble s)) k = 0 ∨ codeBit (t4b5b (groupNibble s)) k = 1 := bitToInt_cases _
    omega
  have hfive := outHolds_emit (outHolds_emit_emit (outHolds_emit_emit h (hbit 4) (hbit 3)) (hbit 2) (hbit 1)) (hbit 0)
  simp only [List.append_assoc] at hfive
  exact hfive

/-- A pass on group `m` of the input appends its codeword. -/
theorem outHolds_fourB5B_groupStep {ic : BitVec 2} {s v : State} {m : Nat}
    (hbit : ∀ k, groupBit k v = memReadIn s (m * groupSizeOf (.fourB5B ic) + k)) (h : outHolds (codewordsOut s m) v) :
    outHolds (codewordsOut s (m + 1)) (groupStep (transformOf (.fourB5B ic)) v) := by
  have hword : t4b5b (groupNibble v) = groupCodeword s m := by
    simp only [groupNibble, hbit, groupSizeOf_fourB5B, Nat.mul_comm m 4]
    rfl
  have hstep := outHolds_fourB5BStep h
  rw [hword, ← codewordsOut_succ] at hstep
  exact outHolds_congr hstep rfl rfl

/-- The output of a call of ENC.4B5B is 4B5B of its input (R180). -/
theorem exec_fourB5B_outHolds {ic : BitVec 2} {s t : State} (h : exec (.fourB5B ic) s = .next t) :
    outHolds (fourB5BLevels (inputBits s s.inLen)) t ∧ t.outLen = 5 * (s.inLen / 4) := by
  obtain ⟨u, hu, rfl⟩ := exec_next_induct (P := fun m => outHolds (codewordsOut s m))
    (outHolds_init_openCall _ s) (fun _ _ => outHolds_fourB5B_groupStep) h
  obtain ⟨hout, hlen⟩ := outHolds_endCall (.fourB5B ic) hu
  rw [groupSizeOf_fourB5B] at hout hlen
  rw [codewordsOut_length] at hlen
  exact ⟨fourB5BLevels_inputBits s s.inLen ▸ hout, hlen⟩

/-- A symbol of a group in the output of ENC.4B5B (R180). -/
theorem exec_fourB5B_outLevel {ic : BitVec 2} {s t : State} (h : exec (.fourB5B ic) s = .next t) {i r : Nat} {v : Int}
    (hi : i < s.inLen / 4) (hr : r < 5) (hv : (codewordLevels (groupCodeword s i))[r]? = some v) :
    outLevel t (5 * i + r) = v := by
  refine outLevel_of_getElem? (exec_fourB5B_outHolds h).1 ?_
  rw [fourB5BLevels_inputBits, codewordsOut_getElem? hi hr, hv]

/-- Every symbol of the output of ENC.4B5B is binary (R182). -/
theorem exec_fourB5B_binary {ic : BitVec 2} {s t : State} (h : exec (.fourB5B ic) s = .next t) {j : Nat}
    (hj : j < t.outLen) : outLevel t j = 0 ∨ outLevel t j = 1 := by
  rw [(exec_fourB5B_outHolds h).2] at hj
  have hr : j % 5 < (codewordLevels (groupCodeword s (j / 5))).length := Nat.mod_lt j (by decide)
  have hlevel := exec_fourB5B_outLevel h (by omega) hr (List.getElem?_eq_getElem hr)
  rw [Nat.div_add_mod] at hlevel
  rw [hlevel]
  exact codewordLevels_mem (List.getElem_mem hr)

/-- Any four symbols in a row of the output of ENC.4B5B hold the first two or the last three symbols of some codeword, and
with them a 1 (R182). -/
theorem exec_fourB5B_mark_in_four {ic : BitVec 2} {s t : State} (h : exec (.fourB5B ic) s = .next t) {j : Nat}
    (hj : j + 4 ≤ t.outLen) : ∃ k, k < 4 ∧ outLevel t (j + k) = 1 := by
  rw [(exec_fourB5B_outHolds h).2] at hj
  suffices hplace : ∃ i r, i < s.inLen / 4 ∧ r < 5 ∧ j ≤ 5 * i + r ∧ 5 * i + r < j + 4 ∧
      (codewordLevels (groupCodeword s i))[r]? = some 1 by
    obtain ⟨i, r, hi, hr, hge, hlt, hmark⟩ := hplace
    refine ⟨5 * i + r - j, by omega, ?_⟩
    rw [Nat.add_sub_cancel' hge]
    exact exec_fourB5B_outLevel h hi hr hmark
  have hfirst (i : Nat) : ∃ r, r < 2 ∧ (codewordLevels (groupCodeword s i))[r]? = some 1 := codeword_mark_in_first_two _
  have hlast (i : Nat) : ∃ r, 2 ≤ r ∧ r < 5 ∧ (codewordLevels (groupCodeword s i))[r]? = some 1 :=
    codeword_mark_in_last_three _
  obtain hstart | hmiddle | hend : j % 5 = 0 ∨ (1 ≤ j % 5 ∧ j % 5 ≤ 2) ∨ 3 ≤ j % 5 := by omega
  · obtain ⟨r, hr, hmark⟩ := hfirst (j / 5)
    exact ⟨j / 5, r, by omega, by omega, by omega, by omega, hmark⟩
  · obtain ⟨r, hr2, hr5, hmark⟩ := hlast (j / 5)
    exact ⟨j / 5, r, by omega, by omega, by omega, by omega, hmark⟩
  · obtain ⟨r, hr, hmark⟩ := hfirst (j / 5 + 1)
    exact ⟨j / 5 + 1, r, by omega, by omega, by omega, by omega, hmark⟩

/-- Settles O35: the output is a codeword for every group of the input, four 0 symbols in a row in it would blank out one end
of a codeword, and the rest is about the table. -/
theorem fourB5BOutputProperties : Obligations.FourB5BOutputProperties := by
  exact ⟨fun _ _ _ h => ⟨fun _ => exec_fourB5B_binary h, fun _ => exec_fourB5B_mark_in_four h⟩,
    fun g => ⟨two_le_codeword_marks g, codeword_marks_eq_two_iff g⟩, rfl, rfl, rfl, rfl, codewordLevels_take_two_ne,
    codewordLevels_drop_two_ne⟩

end Sys2Proof.Machine
end

section
/-! The end of a known command's call (60_exceptions.md R202 to R204): DONE under the host's contract, refused for an index
out of the domain under `refuse` and for a partial group of 4B5B. -/

namespace Sys2Proof.Machine

/-! ### The start: the domain check -/

/-- The domain of the level schemes is 0 and 1 (R75). -/
theorem icInLevelDomain_iff (ic : BitVec 2) : icInLevelDomain ic = true ↔ ic.toNat ≤ 1 := decide_eq_true_iff

/-- The check passes in the domain, and everywhere under `literal` (R204). -/
theorem levelDomainCheck_eq_none_iff (ic : BitVec 2) (s : State) :
    levelDomainCheck ic s = none ↔ icInLevelDomain ic = true ∨ s.params.icOorPolicy = .literal := by
  simp only [levelDomainCheck]
  split
  · next hin => simp [hin]
  · next hout => cases s.params.icOorPolicy <;> simp [hout]

/-- Outside the domain and under `refuse` the check answers the refusal (R204). -/
theorem levelDomainCheck_of_refuse {ic : BitVec 2} {s : State} (hic : 2 ≤ ic.toNat)
    (hpolicy : s.params.icOorPolicy = .refuse) : levelDomainCheck ic s = some .icOutOfDomain := by
  have hout : ¬icInLevelDomain ic = true := by rw [icInLevelDomain_iff]; omega
  rw [levelDomainCheck, if_neg hout, hpolicy]

/-- A scheme's check passes exactly on the indices that have a meaning (R75, R204). -/
theorem transform_check_eq_none_iff (i : Instr) (s : State) : (transformOf i).check s = none ↔ icAdmitted i s := by
  cases i with
  | dman ic => exact levelDomainCheck_eq_none_iff ic s
  | nrzi ic => exact levelDomainCheck_eq_none_iff ic s
  | _ => exact iff_of_true rfl trivial

/-- What the check refuses is refused before the first step, whatever the input (R104, R204). -/
theorem exec_of_check {i : Instr} {s : State} {r : Refusal} (h : (transformOf i).check s = some r) :
    exec i s = .refused r := by
  rw [exec_eq_runCall]
  simp only [runCall, startCall, h]

/-! ### The end: the partial group -/

/-- The state from which a call's end is taken: one pass done for every full group of the input (R104, R105). -/
def loopEnd (i : Instr) (s : State) : State :=
  (groupStep (transformOf i))^[s.inLen / groupSizeOf i] ((transformOf i).init (openCall s))

/-- The cursor stops after the last full group (R28). -/
theorem loopEnd_cur (i : Instr) (s : State) : (loopEnd i s).cur = s.inLen / groupSizeOf i * groupSizeOf i := by
  obtain ⟨-, hcur, -⟩ := init_openCall_frame i s
  rw [loopEnd, (iterate_frame i _ _).1, hcur, Nat.zero_add]

/-- The sampled length is IN_LEN (R207). -/
theorem loopEnd_len (i : Instr) (s : State) : (loopEnd i s).len = s.inLen := by
  obtain ⟨hlen, -⟩ := init_openCall_frame i s
  rw [loopEnd, (iterate_frame i _ _).2, hlen]

/-- Input is left over exactly when the length is no multiple of the group size (R104). -/
theorem loopEnd_cur_lt_len_iff (i : Instr) (s : State) :
    (loopEnd i s).cur < (loopEnd i s).len ↔ s.inLen % groupSizeOf i ≠ 0 := by
  have hsplit := Nat.div_add_mod' s.inLen (groupSizeOf i)
  rw [loopEnd_cur, loopEnd_len]
  omega

/-- A call that is not refused at its start is its loop and its end. -/
theorem exec_of_icAdmitted {i : Instr} {s : State} (hfit : inputFits s) (hic : icAdmitted i s) :
    exec i s = closeCall (transformOf i) (loopEnd i s) :=
  exec_of_startCall (startCall_next.mpr ⟨(transform_check_eq_none_iff i s).mpr hic, hfit, rfl⟩)

/-- The padding contract says that a partial group, where one is left, is dropped (R183, R202). -/
theorem groupsWhole_iff (i : Instr) (s : State) :
    groupsWhole i s ↔ (s.inLen % groupSizeOf i ≠ 0 → (transformOf i).remainder = none) := by
  cases i with
  | fourB5B => simp [groupsWhole, transformOf, fourB5BTransform]
  | _ => exact iff_of_true trivial fun _ => rfl

/-- A partial group is refused by a scheme that has a refusal for it (R202). -/
theorem exec_of_partialGroup {i : Instr} {s : State} {r : Refusal} (hfit : inputFits s) (hic : icAdmitted i s)
    (hpart : s.inLen % groupSizeOf i ≠ 0) (hrem : (transformOf i).remainder = some r) : exec i s = .refused r := by
  rw [exec_of_icAdmitted hfit hic, closeCall, if_pos ((loopEnd_cur_lt_len_iff i s).mpr hpart), hrem]

/-- Under the contract a call ends as R208 says. -/
theorem exec_of_contractMet {i : Instr} {s : State} (h : contractMet i s) :
    exec i s = .next (endCall (transformOf i).release (loopEnd i s)) := by
  obtain ⟨hfit, hic, hwhole⟩ := h
  rw [exec_of_icAdmitted hfit hic]
  exact closeCall_next.mpr ⟨fun hlt => (groupsWhole_iff i s).mp hwhole ((loopEnd_cur_lt_len_iff i s).mp hlt), rfl⟩

/-- Settles O7: the start passes its checks, no partial group is refused, and the end writes DONE. -/
theorem contractedCallEndsDone : Obligations.ContractedCallEndsDone :=
  fun _ _ h => ⟨_, exec_of_contractMet h, rfl⟩

/-! ### The partial group, scheme by scheme -/

/-- The cursor when a call has ended DONE (R28, R104). -/
theorem exec_next_cur {i : Instr} {s t : State} (h : exec i s = .next t) :
    t.cur = s.inLen / groupSizeOf i * groupSizeOf i := by
  obtain ⟨⟨-, -, -, -, -, hcur, -⟩, -⟩ := transform_release_frame i (loopEnd i s)
  rw [exec_next_iterate h, endCall_cur, ← loopEnd_cur]
  exact hcur

/-- All of the output of a call of ENC.2B1Q (R155, R233). -/
theorem exec_twoB1Q_outLevels {ic : BitVec 2} {s t : State} (h : exec (.twoB1Q ic) s = .next t) :
    outLevels t = twoB1QLevels (inputBits s s.inLen) := by
  obtain ⟨hout, hlen⟩ := exec_twoB1Q_outHolds h
  exact outHolds_outLevels hout (by rw [hlen, twoB1QLevels_inputBits, List.length_map, List.length_range])

/-- A trailing bit makes no symbol (R156). -/
theorem twoB1QLevels_drop_trailing {s : State} {n : Nat} (h : n % 2 ≠ 0) :
    twoB1QLevels (inputBits s n) = twoB1QLevels (inputBits s (n - 1)) := by
  rw [twoB1QLevels_inputBits, twoB1QLevels_inputBits, show n / 2 = (n - 1) / 2 by omega]

/-- Settles O25: every length is a multiple of 1; 2B1Q drops what is left over and keeps the contract on every length, and
4B5B has a refusal for it. -/
theorem partialGroupDroppedOrRefused : Obligations.PartialGroupDroppedOrRefused := by
  refine ⟨fun i n hg => ?_, fun ic s hfit hpart => ?_, fun ic s hfit hpart => ?_⟩
  · rw [hg, Nat.mod_one]
  · obtain ⟨t, ht, hdone⟩ := contractedCallEndsDone (.twoB1Q ic) s ⟨hfit, trivial, trivial⟩
    have hcur := exec_next_cur ht
    rw [groupSizeOf_twoB1Q] at hpart hcur
    exact ⟨t, ht, hdone, by omega, (exec_twoB1Q_outLevels ht).trans (twoB1QLevels_drop_trailing hpart)⟩
  · exact exec_of_partialGroup hfit trivial hpart rfl

/-! ### An index out of the domain -/

/-- All of the output of a call of ENC.DMAN, from any index that runs (R132, R204, R233). -/
theorem exec_dman_outLevels {ic : BitVec 2} {s t : State} (h : exec (.dman ic) s = .next t) :
    outLevels t = dmanLevels (icValue ic) (inputBits s s.inLen) := by
  obtain ⟨hout, hlen⟩ := exec_dman_outHolds h
  exact outHolds_outLevels hout hlen

/-- All of the output of a call of ENC.NRZI, from any index that runs (R142, R204, R233). -/
theorem exec_nrzi_outLevels {ic : BitVec 2} {s t : State} (h : exec (.nrzi ic) s = .next t) :
    outLevels t = nrziLevels (icValue ic) (inputBits s s.inLen) := by
  obtain ⟨hout, hlen⟩ := exec_nrzi_outHolds h
  exact outHolds_outLevels hout (by rw [hlen, nrziLevels_length, inputBits_length])

/-- DONE carries no error code (R26). -/
theorem errField_of_statusDone {t : State} (h : statusDone t) : errField t.status = errNone := by
  rw [show t.status = statusWord stDone errNone from h, errField_statusWord]

/-- Settles O26: under `refuse` the check answers before the call is opened; under `literal` the index is admitted, the
contract is met, and the output laws hold from every index. -/
theorem indexOutOfDomainFollowsThePolicy : Obligations.IndexOutOfDomainFollowsThePolicy := by
  intro ic s hic
  refine ⟨fun hrefuse => ?_, fun hliteral hfit => ⟨?_, ?_⟩⟩
  · have hcheck := levelDomainCheck_of_refuse hic hrefuse
    exact ⟨exec_of_check hcheck, exec_of_check hcheck⟩
  · obtain ⟨t, ht, hdone⟩ := contractedCallEndsDone (.dman ic) s ⟨hfit, .inr hliteral, trivial⟩
    exact ⟨t, ht, hdone, errField_of_statusDone hdone, exec_dman_outLevels ht⟩
  · obtain ⟨t, ht, hdone⟩ := contractedCallEndsDone (.nrzi ic) s ⟨hfit, .inr hliteral, trivial⟩
    exact ⟨t, ht, hdone, errField_of_statusDone hdone, exec_nrzi_outLevels ht⟩

end Sys2Proof.Machine
end

section
/-! Reset and the host's duties (70_reset_and_hazards.md R220, R221, R227). `registersAtReset` is R40 of the registers that the
host reads; both forms of reset reach it from any state, so a call in progress makes no difference. -/

namespace Sys2Proof.Machine

/-! ### A write while BUSY -/

/-- While BUSY a guarded write faults, whatever it would have done. -/
theorem writeUnlessBusy_of_busy {s : State} (h : isBusy s = true) (k : Host.Outcome State Fault Refusal) :
    writeUnlessBusy s k = .fault .hostWriteWhileBusy := by
  simp only [writeUnlessBusy, h, if_true]

/-- Settles O44: each of the six statements is a guarded write, and taking it off the queue leaves the engine BUSY. -/
theorem writeWhileBusyHasNoMove : Obligations.WriteWhileBusyHasNoMove := by
  intro s op rest hbusy hhost hwrite
  rw [step_of_host_cons hhost]
  have hbusy' : isBusy { s with host := rest } = true := hbusy
  rcases hwrite with ⟨bits, rfl⟩ | ⟨i, b, rfl⟩ | ⟨n, rfl⟩ | ⟨w, rfl⟩ | ⟨w, rfl⟩ | ⟨i, rfl⟩ <;>
    exact writeUnlessBusy_of_busy hbusy' _

/-! ### Reset -/

/-- The registers the host reads are at their reset values (R40, R220): IDLE, no error, and CMD, IN_LEN and OUT_LEN 0. -/
def registersAtReset (s : State) : Prop :=
  stateField s.status = stIdle ∧ errField s.status = errNone ∧ s.cmd = 0 ∧ s.inLen = 0 ∧ s.outLen = 0

/-- The STATUS word 0 is IDLE without an error (R26). -/
theorem registersAtReset_of_zero {s : State} (hstatus : s.status = 0) (hcmd : s.cmd = 0) (hin : s.inLen = 0)
    (hout : s.outLen = 0) : registersAtReset s := by
  refine ⟨?_, ?_, hcmd, hin, hout⟩ <;> rw [hstatus] <;> decide

theorem registersAtReset_resetWith (p : Config.Params) : registersAtReset (State.resetWith p) :=
  registersAtReset_of_zero rfl rfl rfl rfl

theorem registersAtReset_hostReset (s : State) : registersAtReset (hostReset s) :=
  registersAtReset_of_zero (hostReset_status s) (hostReset_cmd s) (hostReset_inLen s) (hostReset_outLen s)

/-- A buffer in which nothing is listed holds nothing anywhere. -/
@[simp] theorem cellsRead_nil {α : Type} (a : Nat) : cellsRead ([] : List (Nat × α)) a = none := rfl

/-- Settles O53: an engine is `State.resetWith` of its parameters from the start, and `hostReset` of what it was after a
power-on reset of the running platform. -/
theorem resetLeavesEveryInstanceIdle : Obligations.ResetLeavesEveryInstanceIdle := by
  refine ⟨fun n p => ⟨nEngines_reset n p, fun k s hk => ?_⟩, fun pl => ⟨?_, fun s hs => ?_⟩,
    registersAtReset_resetWith Config.defaultParams⟩
  · rw [engines_reset] at hk
    split at hk
    · obtain rfl := Option.some.inj hk
      exact ⟨rfl, registersAtReset_resetWith _⟩
    · cases hk
  · exact Subtype.ext (by simp only [Platform.nEngines, engines_powerOnReset, List.length_map])
  · rw [engines_powerOnReset] at hs
    obtain ⟨u, -, rfl⟩ := List.mem_map.mp hs
    exact registersAtReset_hostReset u

/-- Settles O54: the step is `hostReset`, which asks nothing of the state it starts from, BUSY or not. -/
theorem resetAbandonsTheCall : Obligations.ResetAbandonsTheCall := by
  intro s rest hhost
  obtain ⟨hidle, herr, hcmd, hin, hout⟩ := registersAtReset_hostReset { s with host := rest }
  exact ⟨hostReset { s with host := rest }, step_of_host_cons hhost, hidle, herr, hcmd, hin, hout,
    fun j => by simp only [hostReset_mem, cellsRead_nil], fun a => by simp only [hostReset_mem, cellsRead_nil],
    hostReset_params _⟩

end Sys2Proof.Machine
end

section
/-! The command word (30_encoding.md R70 to R73, R78). A word is its three fields side by side, and `instrOfScheme`
reads a command off the lower two of them. -/

namespace Sys2Proof.Machine

/-! ### The fields of a word -/

@[simp] theorem rsvdField_append (ic : BitVec 2) (c : BitVec 4) : rsvdField (0#2 ++ ic ++ c) = 0#2 := by
  revert ic c; decide

@[simp] theorem icField_append (ic : BitVec 2) (c : BitVec 4) : icField (0#2 ++ ic ++ c) = ic := by
  revert ic c; decide

@[simp] theorem schemeField_append (ic : BitVec 2) (c : BitVec 4) : schemeField (0#2 ++ ic ++ c) = c := by
  revert ic c; decide

/-- A word is RSVD, IC and SCHEME side by side (R70). -/
theorem append_fields (w : Command) : rsvdField w ++ icField w ++ schemeField w = w := by
  revert w; decide

/-! ### Commands and scheme codes -/

/-- Every index of a command fits its field (R74). -/
theorem instr_wellFormed (i : Instr) : i.wellFormed = true := by
  cases i <;> exact decide_eq_true (BitVec.isLt _)

/-- A command's own scheme code and index give it back (R72). -/
@[simp] theorem instrOfScheme_scheme (i : Instr) : instrOfScheme i.scheme i.ic = some i := by
  cases i <;> rfl

/-- The command of a scheme code has that code and the index (R72). -/
theorem fields_of_instrOfScheme {c : BitVec 4} {ic : BitVec 2} {i : Instr} (h : instrOfScheme c ic = some i) :
    i.scheme = c ∧ i.ic = ic := by
  have htable : ∀ (c : BitVec 4) (ic : BitVec 2), ∀ i ∈ instrOfScheme c ic, i.scheme = c ∧ i.ic = ic := by decide
  exact htable c ic i h

/-- A code names no scheme from 12 on (R72). -/
theorem instrOfScheme_eq_none_iff (c : BitVec 4) (ic : BitVec 2) : instrOfScheme c ic = none ↔ 12 ≤ c.toNat := by
  revert c ic; decide

/-! ### The decoder -/

/-- A word stands for a command exactly when RSVD is 0 and the table of R72 has one for the other two fields. -/
theorem decode_eq_ok_iff {w : Command} {i : Instr} :
    decode w = .ok i ↔ rsvdField w = 0#2 ∧ instrOfScheme (schemeField w) (icField w) = some i := by
  simp only [decode]
  by_cases hr : rsvdField w = 0#2
  · cases instrOfScheme (schemeField w) (icField w) <;> simp [hr]
  · simp [hr]

/-- The decoder reads back what the encoder writes. -/
theorem decode_encode (i : Instr) : decode (encode i) = .ok i := by
  rw [decode_eq_ok_iff, encode, rsvdField_append, schemeField_append, icField_append]
  exact ⟨rfl, instrOfScheme_scheme i⟩

/-- A word that is accepted is its command's word. -/
theorem encode_of_decode {w : Command} {i : Instr} (h : decode w = .ok i) : encode i = w := by
  obtain ⟨hr, hi⟩ := decode_eq_ok_iff.mp h
  obtain ⟨hscheme, hic⟩ := fields_of_instrOfScheme hi
  rw [encode, hscheme, hic, ← hr, append_fields]

/-- Settles O1: the three fields of a command's word are read back, and they are all there is to a word. -/
theorem decodeAndEncodeAgree : Obligations.DecodeAndEncodeAgree :=
  ⟨fun i _ => decode_encode i, fun _ i h => ⟨instr_wellFormed i, encode_of_decode h⟩⟩

/-- The illegal words of R78: RSVD is not 0, or it is 0 and SCHEME names nothing. -/
theorem decode_isError_iff (w : Command) :
    (∃ e, decode w = .error e) ↔ rsvdField w ≠ 0#2 ∨ rsvdField w = 0#2 ∧ 12 ≤ (schemeField w).toNat := by
  rw [← instrOfScheme_eq_none_iff _ (icField w)]
  simp only [decode]
  by_cases hr : rsvdField w = 0#2
  · cases instrOfScheme (schemeField w) (icField w) <;> simp [hr]
  · simp [hr]

/-- The two kinds of illegal word, the second said without its RSVD (R78). -/
theorem decode_isError_iff_fields (w : Command) :
    (∃ e, decode w = .error e) ↔ rsvdField w ≠ 0#2 ∨ 12 ≤ (schemeField w).toNat := by
  rw [decode_isError_iff]
  tauto

/-- Settles O3: each word is decoded. -/
theorem sampleWordsDecode : Obligations.SampleWordsDecode := by
  refine ⟨rfl, rfl, rfl, rfl, rfl, rfl, rfl, rfl⟩

end Sys2Proof.Machine
end

section
/-! One statement of the host (30_encoding.md R79, R80, 20_memory.md R58, R62, 60_exceptions.md R201, R207): what the
step is that executes it. A step takes the statement off the queue and does its move, `step_of_host_cons`. -/

namespace Sys2Proof.Machine

/-! ### The queue -/

/-- The state with `q` as the statements still to come. -/
def withHost (q : List HostOp) (s : State) : State := { s with host := q }

@[simp] theorem isBusy_withHost (q : List HostOp) (s : State) : isBusy (withHost q s) = isBusy s := rfl

/-- The queue that is there. -/
theorem withHost_of_host {q : List HostOp} {s : State} (h : s.host = q) : withHost q s = s := by subst h; rfl

/-! ### Writing CMD -/

/-- While not BUSY a guarded write does what it says. -/
theorem writeUnlessBusy_of_idle {s : State} (h : isBusy s = false) (k : Host.Outcome State Fault Refusal) :
    writeUnlessBusy s k = k := by simp [writeUnlessBusy, h]

/-- A word written and waited for is the host's `CMD` statement at the state with the statement taken off the queue. -/
theorem step_command {s : State} {w : Command} {rest : List HostOp} (hb : isBusy s = false)
    (hhost : s.host = .command w :: rest) : step s = hostCommand w (withHost rest s) :=
  (step_of_host_cons hhost).trans (writeUnlessBusy_of_idle (s := withHost rest s) hb _)

/-- A word written without waiting. -/
theorem step_writeCmd {s : State} {w : Command} {rest : List HostOp} (hb : isBusy s = false)
    (hhost : s.host = .writeCmd w :: rest) : step s = hostWriteCmd w (withHost rest s) :=
  (step_of_host_cons hhost).trans (writeUnlessBusy_of_idle (s := withHost rest s) hb _)

/-- A known word runs its command's call. -/
theorem hostCommand_of_ok {w : Command} {i : Instr} (h : decode w = .ok i) (s : State) :
    hostCommand w s = exec i (latchCommand w s) := by simp only [hostCommand, h]

/-- An unknown word is entered and raises UnknownScheme (R201). -/
theorem hostCommand_of_error {w : Command} (h : ∃ e, decode w = .error e) (s : State) :
    hostCommand w s = .next (raiseUnknownScheme (enterCall (latchCommand w s))) := by
  obtain ⟨e, he⟩ := h
  simp only [hostCommand, he]

/-- A known word written without waiting starts its command's call. -/
theorem hostWriteCmd_of_ok {w : Command} {i : Instr} (h : decode w = .ok i) (s : State) :
    hostWriteCmd w s = startCall (transformOf i) (latchCommand w s) := by simp only [hostWriteCmd, h]

/-- An unknown one is entered and left BUSY (log 29). -/
theorem hostWriteCmd_of_error {w : Command} (h : ∃ e, decode w = .error e) (s : State) :
    hostWriteCmd w s = .next (enterCall (latchCommand w s)) := by
  obtain ⟨e, he⟩ := h
  simp only [hostWriteCmd, he]

/-- The step that executes `CMD` with an unknown word (R201). -/
theorem step_unknownCommand {s : State} {w : Command} {rest : List HostOp} (hb : isBusy s = false)
    (hhost : s.host = .command w :: rest) (he : ∃ e, decode w = .error e) :
    step s = .next (raiseUnknownScheme (enterCall (latchCommand w (withHost rest s)))) :=
  (step_command hb hhost).trans (hostCommand_of_error he _)

/-- Settles O2: the illegal words are those of `decode_isError_iff_fields`, they are counted, and each raises
UnknownScheme. -/
theorem illegalWordsRaiseUnknownScheme : Obligations.IllegalWordsRaiseUnknownScheme := by
  refine ⟨decode_isError_iff_fields, rfl, rfl, fun s w rest hhost hb hw => ?_⟩
  exact ⟨_, step_unknownCommand hb hhost ((decode_isError_iff_fields w).mpr hw), rfl⟩

/-- Settles O5: the guard lets the write through, and `withFetchWord` queues the word that the encoder gives back. -/
theorem stepRunsTheDecodedCommand : Obligations.StepRunsTheDecodedCommand := by
  refine ⟨fun s w rest i hhost hb hd => (step_command hb hhost).trans (hostCommand_of_ok hd _),
    fun s nbits w i hb hd => ?_⟩
  have hword : decode (BitVec.ofNat 8 (w % 2 ^ nbits)) = .ok i := by
    simp only [decodeTableWord] at hd
    split at hd
    · next j hj => rw [hj, Option.some.inj hd]
    · cases hd
  rw [withFetchWord_of_not_busy hb, encode_of_decode hword]
  exact (step_command (s := withHost (.command _ :: s.host) s) hb rfl).trans (hostCommand_of_ok hword _)

/-- While BUSY the wait is the engine's move, and the wait stays queued. -/
theorem step_waitEnd_busy {s : State} {rest : List HostOp} (hb : isBusy s = true) (hhost : s.host = .waitEnd :: rest) :
    step s = engineStep s :=
  ((step_of_host_cons hhost).trans (hostDo_waitEnd_busy (s := withHost rest s) hb)).trans
    (congrArg engineStep (withHost_of_host hhost))

/-- While not BUSY the wait is over. -/
theorem step_waitEnd_idle {s : State} {rest : List HostOp} (hb : isBusy s = false) (hhost : s.host = .waitEnd :: rest) :
    step s = .next (withHost rest s) :=
  (step_of_host_cons hhost).trans (hostDo_waitEnd_idle (s := withHost rest s) hb)

/-- BUSY with an unknown word in CMD, the engine raises UnknownScheme (R104, R201). -/
theorem engineStep_unknown {s : State} (hb : isBusy s = true) (he : ∃ e, decode s.cmd = .error e) :
    engineStep s = .next (raiseUnknownScheme s) := by
  obtain ⟨e, he⟩ := he
  simp only [engineStep, hb, if_true, he]

/-- An entered call is BUSY. -/
@[simp] theorem isBusy_enterCall (s : State) : isBusy (enterCall s) = true := by
  rw [isBusy_eq, enterCall_status, stateField_statusWord]

/-- A call that raised UnknownScheme is not BUSY. -/
@[simp] theorem isBusy_raiseUnknownScheme (s : State) : isBusy (raiseUnknownScheme s) = false := by
  rw [isBusy, raiseUnknownScheme_status, stateField_statusWord]; rfl

/-- A completed call is not BUSY. -/
@[simp] theorem isBusy_endCall (r : State → State) (s : State) : isBusy (endCall r s) = false := by
  rw [isBusy, endCall_status, stateField_statusWord]; rfl

/-- Waiting for the end of a call that was entered with an unknown word: the error, and the end of the wait. -/
theorem runSteps_waitEnd_unknown {s : State} {rest : List HostOp} (hb : isBusy s = true)
    (he : ∃ e, decode s.cmd = .error e) (hhost : s.host = .waitEnd :: rest) :
    runSteps 2 s = .next (withHost rest (raiseUnknownScheme s)) := by
  have hraise : step s = .next (raiseUnknownScheme s) := (step_waitEnd_busy hb hhost).trans (engineStep_unknown hb he)
  rw [runSteps_succ hraise, runSteps_succ (step_waitEnd_idle (isBusy_raiseUnknownScheme s) hhost)]
  rfl

/-- Settles O6: both ways of writing an unknown word enter the call and raise UnknownScheme, in one move or in two and
the end of the wait. -/
theorem unknownWordEndsInError : Obligations.UnknownWordEndsInError := by
  refine ⟨decode_isError_iff, fun s w rest hhost hb he => ?_, fun s w rest hb he => ?_⟩
  · exact ⟨_, step_unknownCommand hb hhost he, rfl, rfl, rfl, rfl, rfl, rfl, rfl, rfl, ⟨rfl, rfl⟩, rfl, rfl, rfl, rfl,
      rfl, rfl⟩
  · have hwrite (q : List HostOp) : step (withHost (.writeCmd w :: q) s) =
        .next (enterCall (latchCommand w (withHost q s))) :=
      (step_writeCmd (s := withHost (.writeCmd w :: q) s) hb rfl).trans (hostWriteCmd_of_error he _)
    have hwait := runSteps_waitEnd_unknown (isBusy_enterCall (latchCommand w (withHost (.waitEnd :: rest) s))) he rfl
    exact ⟨hwrite rest, ((runSteps_succ (hwrite _)).trans hwait).trans
      (step_unknownCommand (s := withHost (.command w :: rest) s) hb rfl he).symm⟩

/-! ### The idle engine -/

/-- While not BUSY the engine's move is no move (R216). -/
theorem engineStep_idle {s : State} (h : isBusy s = false) : engineStep s = .next s :=
  engineStep_next.mpr (.inl ⟨h, rfl⟩)

/-- Settles O45: with no statement left the step is the engine's move. -/
theorem idleEngineKeepsEverything : Obligations.IdleEngineKeepsEverything :=
  fun _ hb hhost => (step_of_host_nil hhost).trans (engineStep_idle hb)

/-! ### Reads -/

/-- An element of IN that exists is read. -/
theorem hostReadIn_of_lt {i : Nat} {s : State} (h : i < s.params.maxInLen) :
    hostReadIn i s = .next (hostGets (.inBit i (memReadIn s i)) s) := hostReadIn_next.mpr ⟨h, rfl⟩

/-- An element of OUT that exists is read. -/
theorem hostReadOut_of_lt {j : Nat} {s : State} (h : j < 2 * s.params.maxInLen) :
    hostReadOut j s = .next (if isBusy s then busySym j s else hostGets (.sym j (settledSym j s)) s) :=
  hostReadOut_next.mpr ⟨h, rfl⟩

/-- While not BUSY a read of OUT returns the settled symbol (R233). -/
theorem hostReadOut_idle {j : Nat} {s : State} (hb : isBusy s = false) (h : j < 2 * s.params.maxInLen) :
    hostReadOut j s = .next (hostGets (.sym j (settledSym j s)) s) := by
  rw [hostReadOut_of_lt h, hb]; rfl

/-- While BUSY it returns what `busySym` finds (R62, R228). -/
theorem hostReadOut_busy {j : Nat} {s : State} (hb : isBusy s = true) (h : j < 2 * s.params.maxInLen) :
    hostReadOut j s = .next (busySym j s) := by
  rw [hostReadOut_of_lt h, hb]; rfl

/-- The settled symbol of the result (R233). -/
theorem settledSym_of_lt {j : Nat} {s : State} (h : j < s.outLen) : settledSym j s = memReadOut s j := if_pos h

/-- The settled symbol at or above OUT_LEN is open (U5). -/
theorem settledSym_of_ge {j : Nat} {s : State} (h : s.outLen ≤ j) :
    settledSym j s = Config.freeOut s.params.engineIndex s.draws j := if_neg (Nat.not_lt.mpr h)

/-- A read of STATUS that is not open. -/
theorem hostReadStatus_settled {s : State} (h : willBeRefused s = false) :
    hostReadStatus s = hostGets (.status s.status) s := by simp [hostReadStatus, h]

/-- A read of OUT_LEN while not BUSY. -/
theorem hostReadOutLen_idle {s : State} (h : isBusy s = false) : hostReadOutLen s = hostGets (.outLen s.outLen) s := by
  simp [hostReadOutLen, h]

/-- A read of OUT_LEN while BUSY is a draw (R62, log 27). -/
theorem hostReadOutLen_busy {s : State} (h : isBusy s = true) :
    hostReadOutLen s = hostDraws (.outLen (Config.freeOutLen s.params.engineIndex s.draws)) s := by
  simp [hostReadOutLen, h]

/-- A read of STATUS in a call that will be refused is a draw (R200, log 34). -/
theorem hostReadStatus_open {s : State} (h : willBeRefused s = true) :
    hostReadStatus s = hostDraws (.status (Config.freeStatus s.params.engineIndex s.draws)) s := by
  simp [hostReadStatus, h]

/-- While BUSY, without STREAM_OUT or at a symbol that is not readable, a read of OUT is a draw (R62). -/
theorem busySym_open {j : Nat} {s : State} (h : s.params.streamOut = false ∨ readableSoFar s ≤ j) :
    busySym j s = hostDraws (.sym j (Config.freeOut s.params.engineIndex s.draws j)) s := by
  rw [busySym, if_neg]
  rw [Bool.and_eq_true, decide_eq_true_eq]
  rintro ⟨hstream, hlt⟩
  rcases h with h | h
  · rw [hstream] at h; cases h
  · omega

/-- Under STREAM_OUT a readable symbol is read (R228). -/
theorem busySym_streamed {j : Nat} {s : State} (hstream : s.params.streamOut = true) (h : j < readableSoFar s) :
    busySym j s = hostGets (.sym j (memReadOut s j)) s := by
  rw [busySym, if_pos]
  rw [hstream, Bool.true_and, decide_eq_true_eq]
  exact h

/-- Settles O47: each statement is taken off the queue, and its move is the read that the case names. -/
theorem settledReadsReturnAndChangeNothing : Obligations.SettledReadsReturnAndChangeNothing := by
  intro s rest op hhost
  have hstep := step_of_host_cons hhost
  refine ⟨?_, ?_, ?_, ?_, ?_, ?_, ?_, ?_⟩
  · rintro rfl
    exact hstep
  · rintro rfl
    exact hstep
  · rintro rfl hsettled
    exact hstep.trans (congrArg _ (hostReadStatus_settled (s := withHost rest s) hsettled))
  · rintro i rfl hi
    exact hstep.trans (hostReadIn_of_lt (s := withHost rest s) hi)
  · rintro hb rfl
    exact hstep.trans (congrArg _ (hostReadOutLen_idle (s := withHost rest s) hb))
  · rintro j hb rfl hj
    have hread := hstep.trans (hostReadOut_idle (s := withHost rest s) hb hj)
    refine ⟨fun hlt => ?_, fun hge => ?_⟩
    · rw [settledSym_of_lt (s := withHost rest s) hlt] at hread
      exact hread
    · rw [settledSym_of_ge (s := withHost rest s) hge] at hread
      exact hread
  · rintro v rfl
    exact hstep
  · rintro n rfl
    exact hstep

/-- An unknown word that is not decoded yet has no symbol out (R201). -/
theorem readableSoFar_unknown {s : State} (h : ∃ e, decode s.cmd = .error e) : readableSoFar s = 0 := by
  obtain ⟨e, he⟩ := h
  simp only [readableSoFar, he]

/-- Settles O52: the symbols that are readable are none for an unknown word and for a call that will be refused, and
`olen` of them for any other known word. -/
theorem openReadsAreDraws : Obligations.OpenReadsAreDraws := by
  intro s rest hb k partial4
  refine ⟨fun hhost => ?_, fun hhost hpart => ?_,
    fun j hhost hj => ⟨fun hopen => ?_, fun hstream hknown hpart hlt => ?_⟩⟩
  · exact (step_of_host_cons hhost).trans (congrArg _ (hostReadOutLen_busy (s := withHost rest s) hb))
  · have hrefused : willBeRefused (withHost rest s) = true := willBeRefused_iff.mpr ⟨hb, hpart⟩
    exact (step_of_host_cons hhost).trans (congrArg _ (hostReadStatus_open hrefused))
  · have hdraw : s.params.streamOut = false ∨ readableSoFar s ≤ j := by
      rcases hopen with hno | herr | hpart | hge
      · exact .inl hno
      · exact .inr (by rw [readableSoFar_unknown herr]; omega)
      · exact .inr (by rw [readableSoFar_refused (willBeRefused_iff.mpr ⟨hb, hpart⟩)]; omega)
      · exact .inr (le_trans (readableSoFar_le s) hge)
    exact ((step_of_host_cons hhost).trans (hostReadOut_busy (s := withHost rest s) hb hj)).trans
      (congrArg _ (busySym_open (s := withHost rest s) hdraw))
  · obtain ⟨i, hi⟩ := hknown
    have hrefused : willBeRefused s = false := Bool.eq_false_iff.mpr fun h => hpart (willBeRefused_iff.mp h).2
    have hread : j < readableSoFar s := by rwa [readableSoFar_known hi hrefused]
    exact ((step_of_host_cons hhost).trans (hostReadOut_busy (s := withHost rest s) hb hj)).trans
      (congrArg _ (busySym_streamed (s := withHost rest s) hstream hread))

/-! ### Writing IN and IN_LEN -/

/-- What IN reads as after it was written from index 0 (R79). -/
theorem memReadIn_writeInput (bits : List Bit) (s : State) (a : Nat) :
    memReadIn (writeInput bits s) a = bits[a]?.getD (memReadIn s a) := by
  simp only [memReadIn, writeInput_mem, writeInput_params, writeInput_resets, cellsRead_cellsWriteList]
  by_cases ha : a < bits.length
  · simp [ha]
  · simp [ha]

/-- The input that was written is the input that is read. -/
theorem inputBits_writeInput (bits : List Bit) (s : State) :
    inputBits (writeInput bits s) bits.length = bits := by
  refine List.ext_getElem (inputBits_length _ _) fun a ha _ => ?_
  rw [inputBits_length] at ha
  simp [inputBits, memReadIn_writeInput, ha]

/-- The step of a statement whose move writes IN with `bits` that fit. -/
theorem step_of_writeInput {s : State} {op : HostOp} {rest : List HostOp} {bits : List Bit} (hb : isBusy s = false)
    (hhost : s.host = op :: rest)
    (hop : hostDo op (withHost rest s) = writeUnlessBusy (withHost rest s) (hostWriteInput bits (withHost rest s)))
    (hfit : bits.length ≤ s.params.maxInLen) : step s = .next (writeInput bits (withHost rest s)) := by
  rw [writeUnlessBusy_of_idle (s := withHost rest s) hb] at hop
  exact ((step_of_host_cons hhost).trans hop).trans (hostWriteInput_next.mpr ⟨hfit, rfl⟩)

/-- Settles O49: the statement is `writeInput` of the bits, which are then read back. -/
theorem writtenInputIsRead : Obligations.WrittenInputIsRead := by
  intro s bits rest hb hhost hfit
  refine ⟨_, step_of_writeInput hb hhost rfl hfit, rfl, inputBits_writeInput _ _, fun a ha => ?_, rfl⟩
  rw [memReadIn_writeInput, List.getElem?_eq_none ha]
  rfl

/-- The greatest capacity fits the width of IN_LEN (R25). -/
theorem inLenFits_of_le {p : Config.Params} {n : Nat} (h : n ≤ p.maxInLen) : inLenFits p n = true := by
  refine decide_eq_true (lt_of_le_of_lt h ?_)
  rw [inLenWidth]
  split
  · omega
  · exact Nat.lt_log2_self

/-- Settles O50: each write is one update of one place. -/
theorem singleWritesStoreOneThing : Obligations.SingleWritesStoreOneThing := by
  refine ⟨fun s i b rest hb hhost hi => ?_, fun s n rest hb hhost hn => ?_⟩
  · have hstep : step s =
        .next { s with host := rest, mem := { s.mem with inBits := cellsWrite i b s.mem.inBits } } := by
      rw [step_of_host_cons hhost]
      exact (writeUnlessBusy_of_idle (s := withHost rest s) hb _).trans (hostWriteInBit_next.mpr ⟨hi, rfl⟩)
    refine ⟨_, hstep, ?_, fun a ha => ?_, rfl⟩
    · simp only [memReadIn, cellsRead_cellsWrite, if_true, Option.getD_some]
    · simp only [memReadIn, cellsRead_cellsWrite, if_neg ha]
  · rw [step_of_host_cons hhost]
    exact (writeUnlessBusy_of_idle (s := withHost rest s) hb _).trans
      (hostWriteInLen_next.mpr ⟨inLenFits_of_le hn, rfl⟩)

/-! ### The pad -/

/-- R80's pad is less than a group and makes the length a multiple of the group size. -/
theorem pad_length {g : Nat} (hg : 0 < g) (n : Nat) : (g - n % g) % g < g ∧ (n + (g - n % g) % g) % g = 0 := by
  refine ⟨Nat.mod_lt _ hg, ?_⟩
  have hlt := Nat.mod_lt n hg
  rw [Nat.add_mod_mod, ← Nat.mod_add_mod, Nat.add_sub_cancel' hlt.le, Nat.mod_self]

/-- What the pad writes (R80). -/
def padded (i : Instr) (s : State) : List Bit := paddedInput (groupSizeOf i) (inputBits s s.inLen)

/-- The number of zeros that the pad puts in front. -/
def padLength (i : Instr) (s : State) : Nat := (groupSizeOf i - s.inLen % groupSizeOf i) % groupSizeOf i

/-- The pad is zeros in front of the input. -/
theorem padded_eq (i : Instr) (s : State) :
    padded i s = List.replicate (padLength i s) false ++ inputBits s s.inLen := by
  rw [padded, paddedInput, inputBits_length, padLength]

/-- The length of the padded input. -/
theorem padded_length (i : Instr) (s : State) : (padded i s).length = s.inLen + padLength i s := by
  rw [padded_eq, List.length_append, List.length_replicate, inputBits_length, Nat.add_comm]

/-- Settles O51: the statement is `writeInput` of the padded input. -/
theorem padMakesWholeGroups : Obligations.PadMakesWholeGroups := by
  intro s i rest hb hhost hfit
  obtain ⟨hlt, hmod⟩ := pad_length (groupSizeOf_pos i) s.inLen
  have hstep : step s = .next (writeInput (padded i s) (withHost rest s)) := step_of_writeInput hb hhost rfl hfit
  refine ⟨_, padLength i s, hstep, hlt, padded_length i s, ?_, ?_, rfl⟩
  · rw [writeInput_inLen, padded_length]
    exact hmod
  · rw [writeInput_inLen, inputBits_writeInput, padded_eq]

/-! ### The platform -/

/-- Settles O60: a platform's step replaces one entry of its list of engines by what that entry's own step answers. -/
theorem instancesAreIndependent : Obligations.InstancesAreIndependent := by
  refine ⟨fun k pl pl' h => ?_, fun k pl ql pl' hsame h => ?_⟩
  · obtain ⟨s, t, -, -, rfl⟩ := platformStep_next.mp h
    rw [engines_withEngine]
    exact ⟨List.length_set, fun j hj => List.getElem?_set_ne (Ne.symm hj)⟩
  · obtain ⟨s, t, hs, ht, rfl⟩ := platformStep_next.mp h
    have hs' := hsame ▸ hs
    refine ⟨_, platformStep_next.mpr ⟨s, t, hs', ht, rfl⟩, ?_⟩
    rw [engines_withEngine, engines_withEngine, List.getElem?_set_self (List.getElem?_eq_some_iff.mp hs').1,
      List.getElem?_set_self (List.getElem?_eq_some_iff.mp hs).1]

end Sys2Proof.Machine
end

section
/-! What a scheme's step does to OUT, in every scheme (20_memory.md R56, 40_registry.md R100): how many symbols it
appends, and the canonical form. -/

namespace Sys2Proof.Machine

/-- The three branches of the shared machine: a mark, a space, and a space that completes a run of eight under
substitution (R111, R112). -/
theorem amiFamilyStep_cases (a b : Bool) (s : State) :
    (groupBit 0 s = !b ∧ amiFamilyStep a b s = amiMark s) ∨
      (groupBit 0 s = b ∧ (a = false ∨ s.zeroRunLength ≠ 7) ∧ amiFamilyStep a b s = amiSpace s) ∨
        (groupBit 0 s = b ∧ a = true ∧ s.zeroRunLength = 7 ∧ amiFamilyStep a b s = substitute (amiSpace s)) := by
  by_cases hb : groupBit 0 s = b
  · by_cases hrun : a = false ∨ s.zeroRunLength ≠ 7
    · exact .inr (.inl ⟨hb, hrun, amiFamilyStep_space hb hrun⟩)
    · obtain ⟨ha, h7⟩ := not_or.mp hrun
      obtain rfl : a = true := by simpa using ha
      obtain h7 : s.zeroRunLength = 7 := by omega
      exact .inr (.inr ⟨hb, rfl, h7, amiFamilyStep_substitute hb h7⟩)
  · have hm : groupBit 0 s = !b := Bool.eq_not.mpr hb
    exact .inl ⟨hm, amiFamilyStep_mark hm⟩

/-- Every branch of the shared machine appends one symbol. -/
@[simp] theorem amiFamilyStep_olen (a b : Bool) (s : State) : (amiFamilyStep a b s).olen = s.olen + 1 := by
  obtain ⟨-, h⟩ | ⟨-, -, h⟩ | ⟨-, -, -, h⟩ := amiFamilyStep_cases a b s <;> rw [h] <;> rfl

/-- Every branch of the shared machine keeps the canonical form. -/
theorem amiFamilyStep_wf (a b : Bool) {s : State} (h : s.mem.wf = true) : (amiFamilyStep a b s).mem.wf = true := by
  obtain ⟨-, he⟩ | ⟨-, -, he⟩ | ⟨-, -, -, he⟩ := amiFamilyStep_cases a b s <;> rw [he]
  · exact emit_wf _ _ h
  · exact emit_wf _ _ h
  · exact substitute_wf _ (emit_wf _ _ h)

/-- A scheme's step appends OUT_PER_GROUP symbols (R56, R100). -/
theorem transform_step_olen (i : Instr) (s : State) : ((transformOf i).step s).olen = s.olen + outPerGroupOf i := by
  cases i with
  | ami | b8zs | pstern => exact amiFamilyStep_olen _ _ s
  | man => exact manStep_olen s
  | dman => exact dmanStep_olen s
  | nrzu => exact nrzuStep_olen s
  | nrzl => exact nrzlStep_olen s
  | nrzi => exact nrziStep_olen s
  | rz => exact rzStep_olen s
  | twoB1Q => exact twoB1QStep_olen s
  | mlt3 => exact mlt3Step_olen s
  | fourB5B => exact fourB5BStep_olen s

/-- A scheme's step keeps the canonical form. -/
theorem transform_step_wf (i : Instr) {s : State} (h : s.mem.wf = true) : ((transformOf i).step s).mem.wf = true := by
  cases i with
  | ami | b8zs | pstern => exact amiFamilyStep_wf _ _ h
  | nrzu | nrzl | twoB1Q => exact emit_wf _ _ h
  | man | rz => exact emit_wf _ _ (emit_wf _ _ h)
  | dman => exact emit_wf _ _ (emit_wf _ _ (by rw [dmanFlip_eq]; exact h))
  | nrzi => exact emit_wf _ _ (by rw [nrziFlip_eq]; exact h)
  | mlt3 =>
    refine emit_wf _ _ ?_
    split
    · rw [mlt3Move_eq]; exact h
    · exact h
  | fourB5B => exact emit_wf _ _ (emit_wf _ _ (emit_wf _ _ (emit_wf _ _ (emit_wf _ _ h))))

/-- Settles O12: the scheme's step appends, and the pass moves the cursor. -/
theorem everyGroupAppendsItsSymbols : Obligations.EveryGroupAppendsItsSymbols :=
  fun i s => ⟨transform_step_olen i s, (groupStep_frame i s).1⟩

end Sys2Proof.Machine
end

section
/-! All that a step can do. `CallMove` lists the moves that a call is made of: its entry, its start, a group, its end
and the error. A step that answers a next state writes IN or IN_LEN, resets the engine, only looks, or makes moves of a
call (`StepCase`); so what these keep, every step keeps (`step_keeps`). -/

namespace Sys2Proof.Machine

/-! ### The moves of a call -/

/-- One move of a call (R104, R201, R207, R208). -/
inductive CallMove : State → State → Prop
  /-- an unknown word enters a call -/
  | enter (w : Command) (s : State) (hidle : isBusy s = false) (herror : ∃ e, decode w = .error e) :
      CallMove s (enterCall (latchCommand w s))
  /-- the unknown word raises UnknownScheme -/
  | error (s : State) (hbusy : isBusy s = true) (herror : ∃ e, decode s.cmd = .error e) :
      CallMove s (raiseUnknownScheme s)
  /-- a known word starts its command's call -/
  | start (i : Instr) (w : Command) (s : State) (hidle : isBusy s = false) (hword : decode w = .ok i)
      (hfit : inputFits s) : CallMove s ((transformOf i).init (openCall (latchCommand w s)))
  /-- a pass on a full group -/
  | group (i : Instr) (s : State) (hbusy : isBusy s = true) (hword : decode s.cmd = .ok i)
      (hready : groupReady (transformOf i) s = true) : CallMove s (groupStep (transformOf i) s)
  /-- the end of the call -/
  | finish (i : Instr) (s : State) (hbusy : isBusy s = true) (hword : decode s.cmd = .ok i) :
      CallMove s (endCall (transformOf i).release s)

/-- Any number of moves of a call. -/
abbrev CallMoves : State → State → Prop := Relation.ReflTransGen CallMove

/-- A pass keeps STATUS and CMD (R38). -/
theorem groupStep_keeps_call (i : Instr) (s : State) :
    isBusy (groupStep (transformOf i) s) = isBusy s ∧ (groupStep (transformOf i) s).cmd = s.cmd := by
  obtain ⟨-, -, -, -, hcmd, -, hstatus, -⟩ := groupStep_frame i s
  exact ⟨congrArg (stateField · == stBusy) hstatus, hcmd⟩

/-- The loop is a move for every pass. -/
theorem callMoves_groupLoop {i : Instr} :
    ∀ (k : Nat) {s : State}, isBusy s = true → decode s.cmd = .ok i →
      CallMoves s (groupLoop (transformOf i) k s) ∧ isBusy (groupLoop (transformOf i) k s) = true ∧
        decode (groupLoop (transformOf i) k s).cmd = .ok i
  | 0, _, hb, hd => ⟨.refl, hb, hd⟩
  | k + 1, s, hb, hd => by
    rw [groupLoop]
    split
    · next hr =>
      obtain ⟨hbusy, hcmd⟩ := groupStep_keeps_call i s
      obtain ⟨hmoves, hrest⟩ := callMoves_groupLoop k (hbusy.trans hb) (hcmd ▸ hd)
      exact ⟨.head (.group i s hb hd hr) hmoves, hrest⟩
    · exact ⟨.refl, hb, hd⟩

/-- A call that has started is BUSY with its word in CMD. -/
theorem init_openCall_busy (i : Instr) (s : State) :
    isBusy ((transformOf i).init (openCall s)) = true ∧ ((transformOf i).init (openCall s)).cmd = s.cmd := by
  obtain ⟨-, -, -, -, -, hcmd, -, -, -, -, -, -, -, hstatus⟩ := init_openCall_frame i s
  exact ⟨by rw [isBusy_eq, hstatus, stateField_statusWord], hcmd⟩

/-- The start of a call is a move. -/
theorem callMove_of_startCall {i : Instr} {w : Command} {s t : State} (hb : isBusy s = false) (hd : decode w = .ok i)
    (h : startCall (transformOf i) (latchCommand w s) = .next t) : CallMove s t := by
  obtain ⟨-, hfit, rfl⟩ := startCall_next.mp h
  exact .start i w s hb hd hfit

/-- The whole call of a known command is its start, a pass for every group, and its end (R104). -/
theorem callMoves_of_exec {i : Instr} {w : Command} {s t : State} (hb : isBusy s = false) (hd : decode w = .ok i)
    (h : exec i (latchCommand w s) = .next t) : CallMoves s t := by
  rw [exec_eq_runCall] at h
  obtain ⟨-, hfit, -, rfl⟩ := runCall_next.mp h
  obtain ⟨hbusy, hcmd⟩ := init_openCall_busy i (latchCommand w s)
  obtain ⟨hmoves, hb', hd'⟩ := callMoves_groupLoop (i := i) (latchCommand w s).inLen hbusy
    ((congrArg decode hcmd).trans hd)
  exact .head (.start i w s hb hd hfit) (hmoves.tail (.finish i _ hb' hd'))

/-- The engine's move in a call is a move. -/
theorem callMove_of_engineStep {s t : State} (hb : isBusy s = true) (h : engineStep s = .next t) : CallMove s t := by
  obtain ⟨hidle, -⟩ | ⟨-, i, hd, hcall⟩ | ⟨-, e, he, rfl⟩ := engineStep_next.mp h
  · rw [hb] at hidle; cases hidle
  · obtain ⟨hr, rfl⟩ | ⟨-, hclose⟩ := callStep_next.mp hcall
    · exact .group i s hb hd hr
    · obtain ⟨-, rfl⟩ := closeCall_next.mp hclose
      exact .finish i s hb hd
  · exact .error s hb ⟨e, he⟩

/-- `CMD <hex>` is moves of a call. -/
theorem callMoves_of_hostCommand {w : Command} {s t : State} (hb : isBusy s = false) (h : hostCommand w s = .next t) :
    CallMoves s t := by
  obtain ⟨i, hd, hexec⟩ | ⟨e, he, rfl⟩ := hostCommand_next.mp h
  · exact callMoves_of_exec hb hd hexec
  · exact .head (.enter w s hb ⟨e, he⟩) (.single (.error _ (isBusy_enterCall _) ⟨e, he⟩))

/-- A write of CMD without waiting is a move of a call. -/
theorem callMove_of_hostWriteCmd {w : Command} {s t : State} (hb : isBusy s = false) (h : hostWriteCmd w s = .next t) :
    CallMove s t := by
  obtain ⟨i, hd, hstart⟩ | ⟨e, he, rfl⟩ := hostWriteCmd_next.mp h
  · exact callMove_of_startCall hb hd hstart
  · exact .enter w s hb ⟨e, he⟩

/-! ### The cases of a step -/

/-- The host's next statement writes IN or IN_LEN. -/
def inputWritten : List HostOp → Prop
  | .writeIn _ :: _ | .writeInBit _ _ :: _ | .writeInLen _ :: _ | .pad _ :: _ => True
  | _ => False

/-- The host's next statement writes CMD. -/
def commandWritten : List HostOp → Prop
  | .command _ :: _ | .writeCmd _ :: _ => True
  | _ => False

/-- What one step from `s` can lead to. -/
inductive StepCase (s : State) : State → Prop
  /-- a read, an ignored write, or no move at all; only a read while BUSY can be a draw -/
  | observe (q : List HostOp) (got : List HostRead) (draws : Nat) (hdraws : isBusy s = false → draws = s.draws) :
      StepCase s { s with host := q, got := got, draws := draws }
  /-- a write of IN or IN_LEN -/
  | input (q : List HostOp) (n : Nat) (bits : List (Nat × Bit)) (hidle : isBusy s = false) (hop : inputWritten s.host)
      (hwf : cellsWf s.mem.inBits = true → cellsWf bits = true) :
      StepCase s { s with host := q, inLen := n, mem := { s.mem with inBits := bits } }
  /-- a reset -/
  | reset (q : List HostOp) (hop : s.host = .reset :: q) : StepCase s (hostReset (withHost q s))
  /-- moves of a call, which begins by a write of CMD and goes on while BUSY -/
  | call (q : List HostOp) (t : State) (hop : isBusy s = true ∨ commandWritten s.host)
      (hmoves : CallMoves (withHost q s) t) : StepCase s t

/-- A step of the engine with the queue `q`. -/
theorem stepCase_of_engineStep {q : List HostOp} {s t : State} (h : engineStep (withHost q s) = .next t) :
    StepCase s t := by
  cases hb : isBusy s with
  | true => exact .call q t (.inl hb) (.single (callMove_of_engineStep hb h))
  | false =>
    rw [engineStep_idle (s := withHost q s) hb] at h
    obtain rfl := Host.Outcome.next.inj h
    exact .observe q s.got s.draws fun _ => rfl

/-- A read whose value is a draw while BUSY only. -/
theorem stepCase_of_read {q : List HostOp} {s t : State}
    (hread : ∃ r d, t = { withHost q s with got := r :: s.got, draws := s.draws + d })
    (hidle : isBusy s = false → t.draws = s.draws) : StepCase s t := by
  obtain ⟨r, d, rfl⟩ := hread
  exact .observe q _ _ hidle

/-- A write of IN and IN_LEN while not BUSY. -/
theorem stepCase_of_writeInput {q : List HostOp} {s t : State} {bits : List Bit} (hop : inputWritten s.host)
    (h : writeUnlessBusy (withHost q s) (hostWriteInput bits (withHost q s)) = .next t) : StepCase s t := by
  obtain ⟨hb, hwrite⟩ := writeUnlessBusy_next.mp h
  obtain ⟨-, rfl⟩ := hostWriteInput_next.mp hwrite
  exact .input q _ _ hb hop (cellsWf_cellsWriteList _ _ _)

/-- Every statement of the host is one of the cases. -/
theorem stepCase_of_hostDo {op : HostOp} {q : List HostOp} {s t : State} (hhost : s.host = op :: q)
    (h : hostDo op (withHost q s) = .next t) : StepCase s t := by
  have hinput : inputWritten (op :: q) → inputWritten s.host := fun hw => hhost ▸ hw
  have hcommand : commandWritten (op :: q) → commandWritten s.host := fun hw => hhost ▸ hw
  cases op with
  | writeIn bits => exact stepCase_of_writeInput (hinput trivial) h
  | writeInBit i b =>
    obtain ⟨hb, hwrite⟩ := writeUnlessBusy_next.mp h
    obtain ⟨-, rfl⟩ := hostWriteInBit_next.mp hwrite
    exact .input q s.inLen _ hb (hinput trivial) (cellsWf_cellsWrite _ _ _)
  | writeInLen n =>
    obtain ⟨hb, hwrite⟩ := writeUnlessBusy_next.mp h
    obtain ⟨-, rfl⟩ := hostWriteInLen_next.mp hwrite
    exact .input q n s.mem.inBits hb (hinput trivial) id
  | writeCmd w =>
    obtain ⟨hb, hwrite⟩ := writeUnlessBusy_next.mp h
    exact .call q t (.inr (hcommand trivial)) (.single (callMove_of_hostWriteCmd hb hwrite))
  | command w =>
    obtain ⟨hb, hwrite⟩ := writeUnlessBusy_next.mp h
    exact .call q t (.inr (hcommand trivial)) (callMoves_of_hostCommand hb hwrite)
  | pad i => exact stepCase_of_writeInput (hinput trivial) h
  | writeStatus | writeOutLen =>
    obtain rfl := Host.Outcome.next.inj h
    exact .observe q s.got s.draws fun _ => rfl
  | readCmd | readInLen | describe | listSchemes =>
    obtain rfl := Host.Outcome.next.inj h
    exact .observe q _ s.draws fun _ => rfl
  | readStatus =>
    obtain rfl := Host.Outcome.next.inj h
    refine stepCase_of_read (q := q) (hostReadStatus_eq _) fun hb => ?_
    rw [hostReadStatus_settled (willBeRefused_idle (s := withHost q s) hb)]
    rfl
  | readOutLen =>
    obtain rfl := Host.Outcome.next.inj h
    refine stepCase_of_read (q := q) (hostReadOutLen_eq _) fun hb => ?_
    rw [hostReadOutLen_idle (s := withHost q s) hb]
    rfl
  | readIn i =>
    obtain ⟨-, rfl⟩ := hostReadIn_next.mp h
    exact .observe q _ s.draws fun _ => rfl
  | readOut j =>
    obtain ⟨-, rfl⟩ := hostReadOut_next.mp h
    cases hb : isBusy s with
    | true =>
      refine stepCase_of_read (q := q) ?_ fun hidle => absurd (hb.symm.trans hidle) (by decide)
      rw [isBusy_withHost, hb]
      exact busySym_eq j _
    | false =>
      rw [isBusy_withHost, hb]
      exact .observe q _ s.draws fun _ => rfl
  | tick => exact stepCase_of_engineStep h
  | waitEnd =>
    cases hb : isBusy s with
    | true =>
      rw [hostDo_waitEnd_busy (s := withHost q s) hb] at h
      exact stepCase_of_engineStep (q := .waitEnd :: q) h
    | false =>
      rw [hostDo_waitEnd_idle (s := withHost q s) hb] at h
      obtain rfl := Host.Outcome.next.inj h
      exact .observe q s.got s.draws fun _ => rfl
  | reset =>
    obtain rfl := Host.Outcome.next.inj h
    exact .reset q hhost

/-- All that a step can do. -/
theorem step_cases {s t : State} (h : step s = .next t) : StepCase s t := by
  cases hhost : s.host with
  | nil =>
    rw [step_of_host_nil hhost, ← withHost_of_host hhost] at h
    exact stepCase_of_engineStep h
  | cons op q => exact stepCase_of_hostDo hhost ((step_of_host_cons hhost).symm.trans h)

/-- What the moves of a call keep, a run of them keeps. -/
theorem callMoves_keep {P : State → Prop} (hcall : ∀ s t, P s → CallMove s t → P t) {s t : State} (hs : P s)
    (h : CallMoves s t) : P t := by
  induction h with
  | refl => exact hs
  | tail _ hmove ih => exact hcall _ _ ih hmove

/-- What looking, a write of the input, a reset and a move of a call keep, every step keeps. -/
theorem step_keeps {P : State → Prop}
    (hobserve : ∀ s q got draws, P s → P { s with host := q, got := got, draws := draws })
    (hinput : ∀ s n bits, isBusy s = false → (cellsWf s.mem.inBits = true → cellsWf bits = true) → P s →
      P { s with inLen := n, mem := { s.mem with inBits := bits } })
    (hreset : ∀ s, P (hostReset s)) (hcall : ∀ s t, P s → CallMove s t → P t) {s t : State} (hs : P s)
    (h : step s = .next t) : P t := by
  cases step_cases h with
  | observe q got draws => exact hobserve s q got draws hs
  | input q n bits hb _ hwf =>
    exact hobserve { s with inLen := n, mem := { s.mem with inBits := bits } } q s.got s.draws
      (hinput s n bits hb hwf hs)
  | reset q => exact hreset _
  | call q _ _ hmoves => exact callMoves_keep hcall (hobserve s q s.got s.draws hs) hmoves

/-! ### The canonical form -/

/-- A move of a call keeps the canonical form. -/
theorem callMove_keeps_wf (s t : State) (hs : s.mem.wf = true) (h : CallMove s t) : t.mem.wf = true := by
  cases h with
  | enter | error => exact hs
  | start i w =>
    rw [(transform_init_frame i _).2.2]
    exact openCall_wf (latchCommand w s) hs
  | group i => exact transform_step_wf i hs
  | finish i =>
    rw [endCall_mem, (transform_release_frame i s).2.2]
    exact hs

/-- Writing IN in canonical form keeps the memory canonical. -/
theorem memory_wf_of_inBits {m : Memory} {bits : List (Nat × Bit)} (h : m.wf = true)
    (hwf : cellsWf m.inBits = true → cellsWf bits = true) : ({ m with inBits := bits } : Memory).wf = true := by
  simp only [Memory.wf, Bool.and_eq_true] at h ⊢
  exact ⟨hwf h.1, h.2⟩

/-- Settles O57: nothing a step can do breaks the canonical form. -/
theorem stepKeepsMemoryCanonical : Obligations.StepKeepsMemoryCanonical := fun _ _ =>
  step_keeps (P := fun v => v.mem.wf = true) (fun _ _ _ _ h => h) (fun _ _ _ _ hwf h => memory_wf_of_inBits h hwf)
    hostReset_wf callMove_keeps_wf

/-! ### STATUS -/

/-- The STATUS words that the engine writes are legal (R26). -/
theorem statusLegal_of_status {s : State} {a e : BitVec 2} (h : s.status = statusWord a e)
    (he : e = if a = stError then errUnknownScheme else errNone) : statusLegal s := by
  rw [statusLegal, h, errField_statusWord, stateField_statusWord]
  exact he

/-- A legal STATUS never holds the codes 2 and 3 (R26). -/
theorem errField_of_statusLegal {s : State} (h : statusLegal s) : errField s.status ≠ 2 ∧ errField s.status ≠ 3 := by
  rw [statusLegal] at h
  rw [h]
  split <;> decide

/-- A move of a call keeps STATUS legal. -/
theorem callMove_keeps_statusLegal (s t : State) (hs : statusLegal s) (h : CallMove s t) : statusLegal t := by
  cases h with
  | enter => exact statusLegal_of_status (enterCall_status _) rfl
  | error => exact statusLegal_of_status (raiseUnknownScheme_status s) rfl
  | start i w =>
    obtain ⟨-, -, -, -, -, -, -, -, -, -, -, -, -, hstatus⟩ := init_openCall_frame i (latchCommand w s)
    exact statusLegal_of_status hstatus rfl
  | group i =>
    obtain ⟨-, -, -, -, -, -, hstatus, -⟩ := groupStep_frame i s
    rw [statusLegal, hstatus]
    exact hs
  | finish => exact statusLegal_of_status (endCall_status _ s) rfl

/-- A reset leaves STATUS legal. -/
theorem hostReset_statusLegal (s : State) : statusLegal (hostReset s) :=
  statusLegal_of_status (a := stIdle) (e := errNone) (hostReset_status s) rfl

/-- Settles O58: nothing a step can do writes another STATUS word than those of `statusLegal_of_status`. -/
theorem stepKeepsStatusLegal : Obligations.StepKeepsStatusLegal := fun _ _ hs h => by
  have ht := step_keeps (P := statusLegal) (fun _ _ _ _ h => h) (fun _ _ _ _ _ h => h) hostReset_statusLegal
    callMove_keeps_statusLegal hs h
  exact ⟨ht, errField_of_statusLegal ht⟩

/-! ### The parameters and the input -/

/-- The parameters, IN_LEN and what IN reads as are the same. -/
def inputKept (s t : State) : Prop :=
  t.params = s.params ∧ t.inLen = s.inLen ∧ ∀ a, memReadIn t a = memReadIn s a

/-- A scheme's own functions keep the input. -/
theorem inputKept_of_schemeFrame {s t : State} (h : schemeFrame s t) : inputKept s t := by
  obtain ⟨hparams, -, hlen, -, -, -, -, hin, -, -, -, hresets⟩ := h
  exact ⟨hparams, hlen, memReadIn_congr hin hresets hparams⟩

/-- A move of a call keeps the input (R25, R56). -/
theorem callMove_keeps_input {s t : State} (h : CallMove s t) : inputKept s t := by
  cases h with
  | enter | error => exact ⟨rfl, rfl, fun _ => rfl⟩
  | start i w =>
    exact inputKept_of_schemeFrame (s := openCall (latchCommand w s)) (transform_init_frame i _).1
  | group i =>
    have hstep := inputKept_of_schemeFrame (transform_step_frame i s)
    exact hstep
  | finish i =>
    have hrelease := inputKept_of_schemeFrame (transform_release_frame i s).1
    exact hrelease

/-- So do any number of them. -/
theorem callMoves_keep_input {s t : State} (h : CallMoves s t) : inputKept s t := by
  refine callMoves_keep (P := inputKept s) (fun u v hu hmove => ?_) ⟨rfl, rfl, fun _ => rfl⟩ h
  obtain ⟨hparams, hlen, hin⟩ := hu
  obtain ⟨hparams', hlen', hin'⟩ := callMove_keeps_input hmove
  exact ⟨hparams'.trans hparams, hlen'.trans hlen, fun a => (hin' a).trans (hin a)⟩

/-- Settles O59: of the cases of a step only a write of the input and a reset change the input, and none a parameter. -/
theorem parametersAndInputAreKept : Obligations.ParametersAndInputAreKept := by
  intro s t h
  cases step_cases h with
  | observe => exact ⟨rfl, fun _ _ _ _ _ => ⟨rfl, fun _ => rfl⟩⟩
  | input _ _ _ _ hop =>
    refine ⟨rfl, fun _ hin hbit hlen hpad => ?_⟩
    revert hop
    cases hhost : s.host with
    | nil => exact False.elim
    | cons op q =>
      cases op with
      | writeIn bits => exact absurd hhost (hin bits q)
      | writeInBit i b => exact absurd hhost (hbit i b q)
      | writeInLen n => exact absurd hhost (hlen n q)
      | pad i => exact absurd hhost (hpad i q)
      | _ => exact False.elim
  | reset q hop => exact ⟨rfl, fun hreset => absurd hop (hreset q)⟩
  | call q _ _ hmoves =>
    obtain ⟨hparams, hkept⟩ := callMoves_keep_input hmoves
    exact ⟨hparams, fun _ _ _ _ _ => hkept⟩

/-! ### The idle engine -/

/-- Settles O46: while not BUSY and with no write of CMD, a step that is no reset looks or writes the input. -/
theorem onlyACommandMakesTheEngineAct : Obligations.OnlyACommandMakesTheEngineAct := by
  intro s t hb hreset hcommand hwrite h
  cases step_cases h with
  | observe q got draws hdraws =>
    obtain rfl := hdraws hb
    exact ⟨rfl, rfl, rfl, rfl, fun _ => rfl, rfl, rfl, rfl, rfl, ⟨rfl, rfl⟩, rfl, rfl⟩
  | input => exact ⟨rfl, rfl, rfl, rfl, fun _ => rfl, rfl, rfl, rfl, rfl, ⟨rfl, rfl⟩, rfl, rfl⟩
  | reset q hop => exact absurd hop (hreset q)
  | call q _ hop =>
    exfalso
    revert hop
    rw [hb]
    cases hhost : s.host with
    | nil => exact fun hop => hop.elim (by decide) False.elim
    | cons op q =>
      cases op with
      | command w => exact absurd hhost (hcommand w q)
      | writeCmd w => exact absurd hhost (hwrite w q)
      | _ => exact fun hop => hop.elim (by decide) False.elim

end Sys2Proof.Machine
end

section
/-! The shape that every step keeps (Safety.lean, `Inv`; 10_state.md R26 to R33, R77). Of the moves of a call the pass
has the work to do: the symbols of every scheme are levels of -3..3, and each scheme's registers stay legal. -/

namespace Sys2Proof.Machine

/-! ### The symbols -/

/-- A level of -3..3 is not stored as 100 (R77). -/
theorem symOfLevel_ne {v : Int} (h : -3 ≤ v ∧ v ≤ 3) : symOfLevel v ≠ 0b100#3 := by
  intro he
  have hv := levelOfSym_symOfLevel (v := v) (by omega)
  rw [he, show levelOfSym 0b100#3 = -4 from rfl] at hv
  omega

/-- Writing a level of -3..3 keeps the symbols legal. -/
theorem symbolsLegal_memWriteOut {s : State} (j : Nat) {v : Int} (hv : -3 ≤ v ∧ v ≤ 3) (h : symbolsLegal s) :
    symbolsLegal (memWriteOut j v s) := by
  intro k x hx
  rw [cellsRead_memWriteOut] at hx
  split at hx
  · rw [← Option.some.inj hx]
    exact symOfLevel_ne hv
  · exact h k x hx

/-- Appending a level of -3..3 keeps the symbols legal. -/
theorem symbolsLegal_emit {s : State} {v : Int} (hv : -3 ≤ v ∧ v ≤ 3) (h : symbolsLegal s) : symbolsLegal (emit v s) :=
  symbolsLegal_memWriteOut s.olen hv h

/-- Every value of the register `lastLevel` and its negation is such a level (R30). -/
theorem lastLevel_bounds (v : BitVec 2) : -2 ≤ v.toInt ∧ v.toInt ≤ 1 := by
  revert v; decide

/-- A substitution keeps the symbols legal (R112). -/
theorem symbolsLegal_substitute {s : State} (h : symbolsLegal s) : symbolsLegal (substitute s) := by
  have hv := lastLevel_bounds s.lastLevel
  exact symbolsLegal_memWriteOut _ (by omega) (symbolsLegal_memWriteOut _ (by omega)
    (symbolsLegal_memWriteOut _ (by omega) (symbolsLegal_memWriteOut _ (by omega) h)))

/-- The shared machine emits legal symbols (R111). -/
theorem symbolsLegal_amiFamilyStep (a b : Bool) {s : State} (h : symbolsLegal s) :
    symbolsLegal (amiFamilyStep a b s) := by
  have hspace : symbolsLegal (amiSpace s) := symbolsLegal_emit (by decide) h
  obtain ⟨-, he⟩ | ⟨-, -, he⟩ | ⟨-, -, -, he⟩ := amiFamilyStep_cases a b s <;> rw [he]
  · have hv := lastLevel_bounds (BitVec.ofInt 2 (-s.lastLevel.toInt))
    exact symbolsLegal_emit (by rw [setLastLevel_lastLevel]; exact ⟨by omega, by omega⟩) h
  · exact hspace
  · exact symbolsLegal_substitute hspace

/-- Legal values of `level` lie in -2..3, and so do their inverses (R32, R204). -/
theorem levelLegal_bounds {ic : BitVec 2} {s : State} (h : levelLegal ic s) :
    -2 ≤ s.level.toInt ∧ s.level.toInt ≤ 3 := by
  have hic : icValue ic < 4 := ic.isLt
  rw [levelLegal] at h
  omega

/-- The flip moves between the two legal values (R132, R142). -/
theorem levelLegal_dmanFlip {ic : BitVec 2} {s : State} (h : levelLegal ic s) : levelLegal ic (dmanFlip s) := by
  have hflip := dmanFlip_level_toInt (levelLegal_bounds h)
  have hcases := nextLevel_cases s.level.toInt (groupBit 0 s)
  rw [levelLegal] at h ⊢
  omega

/-- The flip leaves OUT alone. -/
theorem symbolsLegal_dmanFlip {s : State} (h : symbolsLegal s) : symbolsLegal (dmanFlip s) := by
  rw [dmanFlip_eq]; exact h

/-- The legal entries of MLT-3's table: -1 with the direction up is none (R168). -/
theorem mlt3Legal_iff (s : State) :
    mlt3Legal s ↔ (-1 ≤ (mlt3Registers s).1 ∧ (mlt3Registers s).1 ≤ 1) ∧ ¬mlt3Registers s = (-1, true) := by
  have htable : ∀ (l : BitVec 3) (g : Bool),
      ((l = 0b001#3 ∨ l = 0b000#3 ∨ l = 0b111#3) ∧ ¬(l = 0b111#3 ∧ g = true)) ↔
        (-1 ≤ l.toInt ∧ l.toInt ≤ 1) ∧ ¬(l.toInt, g) = (-1, true) := by decide
  exact htable s.level s.growing

/-- The table does not lead to -1 with the direction up (R168). -/
theorem mlt3Next_ne {level : Int} {growing : Bool} {b : Bit} (hbounds : -1 ≤ level ∧ level ≤ 1)
    (h : ¬(level, growing) = (-1, true)) : ¬mlt3Next level growing b = (-1, true) := by
  obtain rfl | rfl | rfl : level = -1 ∨ level = 0 ∨ level = 1 := by omega
  all_goals revert h growing b; decide

/-- A step keeps MLT-3's registers legal (R166, R168). -/
theorem mlt3Legal_mlt3Step {s : State} (h : mlt3Legal s) : mlt3Legal (mlt3Step s) := by
  obtain ⟨hbounds, hne⟩ := (mlt3Legal_iff s).mp h
  rw [mlt3Legal_iff, mlt3Step_registers]
  exact ⟨mlt3Next_level_bounds hbounds _ _, mlt3Next_ne hbounds hne⟩

/-- The level that MLT-3 emits is the level it leaves, in -1..1 (R166). -/
theorem symbolsLegal_mlt3Step {s : State} (hlegal : mlt3Legal s) (h : symbolsLegal s) : symbolsLegal (mlt3Step s) := by
  have hbounds := ((mlt3Legal_iff _).mp (mlt3Legal_mlt3Step hlegal)).1
  cases hbit : groupBit 0 s with
  | true =>
    rw [mlt3Step_mark hbit] at hbounds ⊢
    have hmove : symbolsLegal (mlt3Move s) := by rw [mlt3Move_eq]; exact h
    exact symbolsLegal_emit ⟨le_trans (by decide) hbounds.1, le_trans hbounds.2 (by decide)⟩ hmove
  | false =>
    rw [mlt3Step_space hbit] at hbounds ⊢
    exact symbolsLegal_emit ⟨le_trans (by decide) hbounds.1, le_trans hbounds.2 (by decide)⟩ h

/-- A bit is a legal level. -/
theorem bitToInt_bounds (b : Bit) : -3 ≤ bitToInt b ∧ bitToInt b ≤ 3 := by
  have h := bitToInt_cases b
  omega

/-- From legal registers a scheme's step emits legal symbols (R77). -/
theorem symbolsLegal_transform_step (i : Instr) {s : State} (hregs : registersLegal i s) (h : symbolsLegal s) :
    symbolsLegal ((transformOf i).step s) := by
  have hbit := bitToInt_cases (groupBit 0 s)
  cases i with
  | ami | b8zs | pstern => exact symbolsLegal_amiFamilyStep _ _ h
  | man => exact symbolsLegal_emit (bitToInt_bounds _) (symbolsLegal_emit (by omega) h)
  | dman ic =>
    have hflip := levelLegal_bounds (levelLegal_dmanFlip hregs)
    exact symbolsLegal_emit (by omega) (symbolsLegal_emit (by omega) (symbolsLegal_dmanFlip h))
  | nrzu => exact symbolsLegal_emit (bitToInt_bounds _) h
  | nrzl => exact symbolsLegal_emit (by split <;> decide) h
  | nrzi ic =>
    have hflip := levelLegal_bounds (levelLegal_dmanFlip hregs)
    rw [← nrziFlip_eq_dmanFlip] at hflip
    exact symbolsLegal_emit (by omega) (by rw [nrziFlip_eq_dmanFlip]; exact symbolsLegal_dmanFlip h)
  | rz => exact symbolsLegal_emit (by decide) (symbolsLegal_emit (by split <;> decide) h)
  | twoB1Q =>
    have hlevel := pairLevel_cases (groupBit 0 s) (groupBit 1 s)
    rw [← sign_mul_magnitude_eq_pairLevel] at hlevel
    exact symbolsLegal_emit (by omega) h
  | mlt3 => exact symbolsLegal_mlt3Step hregs h
  | fourB5B =>
    exact symbolsLegal_emit (bitToInt_bounds _) (symbolsLegal_emit (bitToInt_bounds _)
      (symbolsLegal_emit (bitToInt_bounds _) (symbolsLegal_emit (bitToInt_bounds _)
        (symbolsLegal_emit (bitToInt_bounds _) h))))

/-! ### The scheme registers -/

/-- Only `lastLevel` matters to the polarity. -/
theorem polarityLegal_congr {s t : State} (ht : t.lastLevel = s.lastLevel) (h : polarityLegal s) : polarityLegal t := by
  rw [polarityLegal, ht]; exact h

/-- Only `level` matters to the level schemes. -/
theorem levelLegal_congr {ic : BitVec 2} {s t : State} (ht : t.level = s.level) (h : levelLegal ic s) :
    levelLegal ic t := by
  rw [levelLegal, ht]; exact h

/-- Only `level` and `growing` matter to MLT-3. -/
theorem mlt3Legal_congr {s t : State} (hl : t.level = s.level) (hg : t.growing = s.growing) (h : mlt3Legal s) :
    mlt3Legal t := by
  rw [mlt3Legal, hl, hg]; exact h

/-- The starting polarity is legal (R30, R111). -/
theorem polarityLegal_amiInit (ic : BitVec 2) (s : State) : polarityLegal (amiInit ic s) := by
  have htable : ∀ ic : BitVec 2, BitVec.ofInt 2 (icPolarity ic) = 0b01#2 ∨ BitVec.ofInt 2 (icPolarity ic) = 0b11#2 := by
    decide
  exact htable ic

/-- A mark negates the polarity, and nothing else writes it (R111, R113). -/
theorem polarityLegal_amiFamilyStep (a b : Bool) {s : State} (h : polarityLegal s) :
    polarityLegal (amiFamilyStep a b s) := by
  obtain ⟨-, he⟩ | ⟨-, -, he⟩ | ⟨-, -, -, he⟩ := amiFamilyStep_cases a b s <;> rw [he]
  · rw [polarityLegal, amiMark_lastLevel]
    rcases h with h | h <;> rw [h] <;> decide
  · exact polarityLegal_congr (amiSpace_lastLevel s) h
  · exact polarityLegal_congr ((substitute_lastLevel _).trans (amiSpace_lastLevel s)) h

/-- With no run pending there is nothing to say of it. -/
theorem pendingRunLegal_of_zero {s : State} (h : s.zeroRunLength = 0) : pendingRunLegal s := by
  refine ⟨by omega, by omega, fun j hge hlt => ?_⟩
  rw [runStart] at hge
  omega

/-- A pass keeps the pending run legal: a mark and a substitution end it, and a space makes it longer by a 0 (R111,
R228). -/
theorem pendingRunLegal_groupStep {ic : BitVec 2} {s : State} (ho : s.olen = s.cur) (h : pendingRunLegal s) :
    pendingRunLegal (groupStep (transformOf (.b8zs ic)) s) := by
  obtain ⟨h7, hcur, hzero⟩ := h
  obtain ⟨-, he⟩ | ⟨-, hrun, he⟩ | ⟨-, -, -, he⟩ := amiFamilyStep_cases true false s
  · refine pendingRunLegal_of_zero ?_
    rw [groupStep_zeroRunLength, show (transformOf (.b8zs ic)).step s = _ from he, amiMark_zeroRunLength]
  · have hlt : s.zeroRunLength ≠ 7 := hrun.resolve_left (by decide)
    have hpass : groupStep (transformOf (.b8zs ic)) s = { amiSpace s with cur := s.cur + 1 } :=
      congrArg (fun u : State => { u with cur := u.cur + 1 }) he
    rw [hpass]
    refine ⟨?_, ?_, fun j hge hj => ?_⟩
    · change s.zeroRunLength + 1 ≤ 7
      omega
    · change s.zeroRunLength + 1 ≤ s.cur + 1
      omega
    · change s.cur + 1 - (s.zeroRunLength + 1) ≤ j at hge
      change j < s.cur + 1 at hj
      have hread : cellsRead (amiSpace s).mem.outSyms j = if j = s.olen then some (symOfLevel 0) else _ :=
        cellsRead_emit j 0 _
      refine hread.trans ?_
      split
      · rfl
      · exact hzero j (by rw [runStart]; omega) (by omega)
  · refine pendingRunLegal_of_zero ?_
    rw [groupStep_zeroRunLength, show (transformOf (.b8zs ic)).step s = _ from he, substitute_zeroRunLength]

/-- What Differential Manchester leaves in `level` is the flipped level: it does not store the inverse (R132). -/
theorem dmanStep_level_eq_flip (s : State) : (dmanStep s).level = (dmanFlip s).level := by
  rw [dmanStep_level, dmanFlip_eq]

/-- And so does NRZ-Polar-I (R142). -/
theorem nrziStep_level_eq_flip (s : State) : (nrziStep s).level = (dmanFlip s).level := by
  rw [nrziStep_level, dmanFlip_eq]

/-- A scheme's initialisation makes its registers legal (R111, R132, R142, R167). -/
theorem registersLegal_init (i : Instr) (s : State) : registersLegal i ((transformOf i).init s) := by
  have hlevel (ic : BitVec 2) : levelLegal ic (setLevel (icValue ic) s) := by
    have hic : icValue ic < 4 := ic.isLt
    exact .inl (setLevel_level_toInt s (by omega))
  cases i with
  | ami ic => exact polarityLegal_amiInit ic s
  | b8zs ic => exact ⟨polarityLegal_amiInit ic s, pendingRunLegal_of_zero rfl⟩
  | pstern ic => exact polarityLegal_amiInit ic s
  | dman ic => exact hlevel ic
  | nrzi ic => exact hlevel ic
  | mlt3 ic =>
    have htable : ∀ ic : BitVec 2, mlt3Legal (mlt3Init ic s) ↔
        (BitVec.ofInt 3 (icMlt3Level ic) = 0b001#3 ∨ BitVec.ofInt 3 (icMlt3Level ic) = 0b000#3 ∨
          BitVec.ofInt 3 (icMlt3Level ic) = 0b111#3) ∧
          ¬(BitVec.ofInt 3 (icMlt3Level ic) = 0b111#3 ∧ icMlt3Growing ic = true) := fun _ => Iff.rfl
    exact (htable ic).mpr (by revert ic; decide)
  | man | nrzu | nrzl | rz | twoB1Q | fourB5B => trivial

/-- A pass keeps the scheme's registers legal. The pending run of B8ZS is counted in symbols, one for every bit. -/
theorem registersLegal_groupStep {i : Instr} {s : State} (ho : s.olen = s.cur / groupSizeOf i * outPerGroupOf i)
    (h : registersLegal i s) : registersLegal i (groupStep (transformOf i) s) := by
  cases i with
  | ami | pstern => exact polarityLegal_congr (groupStep_lastLevel _ s) (polarityLegal_amiFamilyStep _ _ h)
  | b8zs ic =>
    obtain ⟨hpolarity, hrun⟩ := h
    rw [groupSizeOf_b8zs, outPerGroupOf_b8zs, Nat.div_one, Nat.mul_one] at ho
    exact ⟨polarityLegal_congr (groupStep_lastLevel _ s) (polarityLegal_amiFamilyStep true false hpolarity),
      pendingRunLegal_groupStep ho hrun⟩
  | dman => exact levelLegal_congr ((groupStep_level _ s).trans (dmanStep_level_eq_flip s)) (levelLegal_dmanFlip h)
  | nrzi => exact levelLegal_congr ((groupStep_level _ s).trans (nrziStep_level_eq_flip s)) (levelLegal_dmanFlip h)
  | mlt3 => exact mlt3Legal_congr (groupStep_level _ s) (groupStep_growing _ s) (mlt3Legal_mlt3Step h)
  | man | nrzu | nrzl | rz | twoB1Q | fourB5B => trivial

/-! ### A call in progress -/

/-- A call of the command `i` in progress, as `busyLegal` has it: the input fits, the cursor is a whole number of groups
into it, OUT holds OUT_PER_GROUP symbols for each, and the registers are legal. -/
def callLegal (i : Instr) (s : State) : Prop :=
  s.len ≤ s.params.maxInLen ∧ s.cur ≤ s.len ∧ s.cur % groupSizeOf i = 0 ∧
    s.olen = s.cur / groupSizeOf i * outPerGroupOf i ∧ outFilled s.olen s ∧ registersLegal i s

/-- What the shape says of a BUSY engine with a known word in CMD. -/
theorem Inv.call {s : State} {i : Instr} (h : Inv s) (hb : isBusy s = true) (hd : decode s.cmd = .ok i) :
    callLegal i s := by
  obtain ⟨-, -, -, -, hbusy⟩ := h
  exact (hbusy hb).2 i hd

/-- The shape of a BUSY engine: its OUT_LEN is of no concern. -/
theorem inv_of_busy {s : State} (hb : isBusy s = true) (hwf : s.mem.wf = true) (hstatus : statusLegal s)
    (hsyms : symbolsLegal s) (hlen : s.len = s.inLen) (hcall : ∀ i, decode s.cmd = .ok i → callLegal i s) : Inv s := by
  have hstate := isBusy_eq.mp hb
  refine ⟨hwf, hstatus, ⟨fun h => ?_, fun h => ?_⟩, hsyms, fun _ => ⟨hlen, hcall⟩⟩
  · rw [hstate] at h
    exact absurd h (by decide)
  · rw [hstate] at h
    exact absurd h (by decide)

/-- The shape of an engine that is not BUSY. -/
theorem inv_of_idle {s : State} (hb : isBusy s = false) (hwf : s.mem.wf = true) (hstatus : statusLegal s)
    (hout : outLenLegal s) (hsyms : symbolsLegal s) : Inv s :=
  ⟨hwf, hstatus, hout, hsyms, fun h => absurd (hb.symm.trans h) (by decide)⟩

/-- A call that has started has its shape. -/
theorem callLegal_start (i : Instr) {s : State} (hfit : inputFits s) :
    callLegal i ((transformOf i).init (openCall s)) := by
  obtain ⟨hlen, hcur, ho, -, hparams, -⟩ := init_openCall_frame i s
  refine ⟨by rw [hlen, hparams]; exact hfit, by omega, by rw [hcur, Nat.zero_mod], ?_, init_openCall_outFilled i s,
    registersLegal_init i _⟩
  rw [ho, hcur, Nat.zero_div, Nat.zero_mul]

/-- A pass on a full group leads on to the next point of the call. -/
theorem callLegal_groupStep {i : Instr} {s : State} (hready : groupReady (transformOf i) s = true)
    (h : callLegal i s) : callLegal i (groupStep (transformOf i) s) := by
  obtain ⟨hfit, -, hmod, ho, hfilled, hregs⟩ := h
  obtain ⟨hcur, hlen, -, hparams, -⟩ := groupStep_frame i s
  rw [groupReady, decide_eq_true_eq, transform_group] at hready
  refine ⟨by rw [hlen, hparams]; exact hfit, by rw [hcur, hlen]; exact hready,
    by rw [hcur, Nat.add_mod_right, hmod], ?_, transform_step_outFilled i hfilled, registersLegal_groupStep ho hregs⟩
  rw [hcur, Nat.add_div_right _ (groupSizeOf_pos i), Nat.succ_mul, ← ho]
  exact transform_step_olen i s

/-! ### The moves -/

/-- A group emits at most two symbols a bit, so the output fits in OUT (R53, R100). -/
theorem outPerGroupOf_le (i : Instr) : outPerGroupOf i ≤ 2 * groupSizeOf i := by
  cases i <;> simp

/-- The symbols emitted so far fit in OUT (R53). -/
theorem callLegal_olen_le {i : Instr} {s : State} (h : callLegal i s) : s.olen ≤ maxOut s.params := by
  obtain ⟨hfit, hcur, -, ho, -⟩ := h
  calc s.olen
    _ = s.cur / groupSizeOf i * outPerGroupOf i := ho
    _ ≤ s.cur / groupSizeOf i * (2 * groupSizeOf i) := Nat.mul_le_mul_left _ (outPerGroupOf_le i)
    _ = 2 * (s.cur / groupSizeOf i * groupSizeOf i) := by ring
    _ ≤ 2 * s.cur := Nat.mul_le_mul_left _ (Nat.div_mul_le_self _ _)
    _ ≤ maxOut s.params := by rw [maxOut]; omega

/-- The end of a call keeps the shape: OUT_LEN counts the symbols (R208). -/
theorem inv_endCall {i : Instr} {s : State} (hs : Inv s) (hb : isBusy s = true) (hd : decode s.cmd = .ok i) :
    Inv (endCall (transformOf i).release s) := by
  have hcall := hs.call hb hd
  obtain ⟨⟨hparams, -⟩, ho, hmem⟩ := transform_release_frame i s
  have hmem' : (endCall (transformOf i).release s).mem = s.mem := hmem
  obtain ⟨hwf, -, -, hsyms, -⟩ := hs
  refine inv_of_idle (isBusy_endCall _ _) (hmem' ▸ hwf) (statusLegal_of_status (endCall_status _ s) rfl)
    ⟨fun h => ?_, fun _ => ?_⟩ (by rw [symbolsLegal, hmem']; exact hsyms)
  · rw [endCall_status, stateField_statusWord] at h
    exact absurd h (by decide)
  · have ⟨_, _, _, _, hfilled, _⟩ := hcall
    rw [outFilled, hmem', endCall_outLen, endCall_params, ho, hparams]
    exact ⟨hfilled, callLegal_olen_le hcall⟩

/-- A move of a call keeps the shape. -/
theorem callMove_keeps_inv (s t : State) (hs : Inv s) (h : CallMove s t) : Inv t := by
  have hwf' := callMove_keeps_wf s t hs.1 h
  have hstatus' := callMove_keeps_statusLegal s t hs.2.1 h
  cases h with
  | enter w _ _ he =>
    obtain ⟨-, -, -, hsyms, -⟩ := hs
    obtain ⟨e, he⟩ := he
    refine inv_of_busy (isBusy_enterCall _) hwf' hstatus' hsyms rfl fun i hi => ?_
    rw [enterCall_cmd, latchCommand_cmd, he] at hi
    cases hi
  | error =>
    obtain ⟨-, -, -, hsyms, -⟩ := hs
    refine inv_of_idle (isBusy_raiseUnknownScheme s) hwf' hstatus' ⟨fun _ => rfl, fun hdone => ?_⟩ hsyms
    rw [raiseUnknownScheme_status, stateField_statusWord] at hdone
    exact absurd hdone (by decide)
  | start i w _ _ hd hfit =>
    obtain ⟨hbusy, hcmd⟩ := init_openCall_busy i (latchCommand w s)
    obtain ⟨hlen, -, -, hin, -, -, -, hout, -⟩ := init_openCall_frame i (latchCommand w s)
    refine inv_of_busy hbusy hwf' hstatus' (fun j v hv => ?_) (hlen.trans hin.symm) fun j hj => ?_
    · rw [hout, cellsRead_nil] at hv
      cases hv
    · obtain rfl : i = j := by rw [hcmd, latchCommand_cmd, hd] at hj; exact Except.ok.inj hj
      exact callLegal_start i (s := latchCommand w s) hfit
  | group i _ hb hd hready =>
    have hcall := hs.call hb hd
    obtain ⟨-, -, -, hsyms, hbusyLegal⟩ := hs
    obtain ⟨hbusy, hcmd⟩ := groupStep_keeps_call i s
    obtain ⟨-, hlen, -, -, -, hin, -⟩ := groupStep_frame i s
    have ⟨_, _, _, _, _, hregs⟩ := hcall
    refine inv_of_busy (hbusy.trans hb) hwf' hstatus' (symbolsLegal_transform_step i hregs hsyms)
      (hlen.trans ((hbusyLegal hb).1.trans hin.symm)) fun j hj => ?_
    obtain rfl : i = j := by rw [hcmd, hd] at hj; exact Except.ok.inj hj
    exact callLegal_groupStep hready hcall
  | finish i _ hb hd => exact inv_endCall hs hb hd

/-- A state whose memory and registers are at their reset values has the shape. -/
theorem inv_of_reset {s : State} (hstatus : s.status = 0) (hout : s.outLen = 0)
    (hmem : s.mem = { inBits := [], outSyms := [] }) : Inv s := by
  have hstate : stateField s.status = stIdle := by rw [hstatus]; decide
  refine inv_of_idle (by rw [isBusy, hstate]; decide) (by rw [hmem]; rfl)
    (statusLegal_of_status (a := stIdle) (e := errNone) hstatus rfl) ⟨fun _ => hout, fun h => ?_⟩ fun j v hv => ?_
  · rw [hstate] at h
    exact absurd h (by decide)
  · rw [hmem, cellsRead_nil] at hv
    cases hv

/-- Settles O55: every part of the shape but the parameters is at its reset value. -/
theorem resetHasTheShape : Obligations.ResetHasTheShape :=
  ⟨fun _ => inv_of_reset rfl rfl rfl, inv_of_reset rfl rfl rfl⟩

/-- Writing the input while not BUSY keeps the shape: none of it looks at IN_LEN then. -/
theorem inv_of_input {s : State} {n : Nat} {bits : List (Nat × Bit)} (hb : isBusy s = false)
    (hwf : cellsWf s.mem.inBits = true → cellsWf bits = true) (hs : Inv s) :
    Inv { s with inLen := n, mem := { s.mem with inBits := bits } } := by
  obtain ⟨hmem, hstatus, hout, hsyms, -⟩ := hs
  exact inv_of_idle hb (memory_wf_of_inBits hmem hwf) hstatus hout hsyms

/-- Looking keeps the shape: none of it is about the host's side or the draws. -/
theorem inv_of_observe {s : State} (q : List HostOp) (got : List HostRead) (draws : Nat) (hs : Inv s) :
    Inv { s with host := q, got := got, draws := draws } := by
  obtain ⟨hmem, hstatus, hout, hsyms, hbusy⟩ := hs
  refine ⟨hmem, hstatus, hout, hsyms, fun hb => ?_⟩
  obtain ⟨hlen, hcall⟩ := hbusy hb
  refine ⟨hlen, fun i hi => ?_⟩
  obtain ⟨hfit, hcur, hmod, ho, hfilled, hregs⟩ := hcall i hi
  exact ⟨hfit, hcur, hmod, ho, hfilled, by cases i <;> exact hregs⟩

/-- Settles O56: looking, a write of the input, a reset and every move of a call keep the shape. -/
theorem stepKeepsTheShape : Obligations.StepKeepsTheShape := fun _ _ =>
  step_keeps (P := Inv) (fun _ q got draws => inv_of_observe q got draws) (fun _ _ _ hb hwf => inv_of_input hb hwf)
    (fun _ => inv_of_reset rfl rfl rfl) callMove_keeps_inv

end Sys2Proof.Machine
end

section
/-! What every known command's call leaves behind (10_state.md R38, 40_registry.md R104 to R106): its end in closed
form, the frame, the registers of the other schemes, and the length of the output. -/

namespace Sys2Proof.Machine

/-! ### The end of a call -/

/-- A call ends DONE exactly under the contract, in the state of R208 (R203). -/
theorem exec_next_iff {i : Instr} {s t : State} :
    exec i s = .next t ↔ contractMet i s ∧ t = endCall (transformOf i).release (loopEnd i s) := by
  refine ⟨fun h => ?_, fun ⟨hc, ht⟩ => ht ▸ exec_of_contractMet hc⟩
  have hrun := h
  rw [exec_eq_runCall] at hrun
  obtain ⟨hcheck, hfit, -⟩ := runCall_next.mp hrun
  have hic := (transform_check_eq_none_iff i s).mp hcheck
  rw [exec_of_icAdmitted hfit hic] at h
  obtain ⟨hrem, rfl⟩ := closeCall_next.mp h
  exact ⟨⟨hfit, hic, (groupsWhole_iff i s).mpr fun hpart => hrem ((loopEnd_cur_lt_len_iff i s).mpr hpart)⟩, rfl⟩

/-- Settles O27: the index passes the check, and the length does not. -/
theorem tooLongInputIsRefused : Obligations.TooLongInputIsRefused := by
  intro i s hic hlong
  rw [exec_eq_runCall]
  simp only [runCall, startCall, (transform_check_eq_none_iff i s).mpr hic, if_pos hlong]

/-! ### The output's length -/

/-- The passes of a call emit OUT_PER_GROUP symbols each (R106). -/
theorem iterate_olen (i : Instr) (m : Nat) (s : State) :
    ((groupStep (transformOf i))^[m] s).olen = s.olen + m * outPerGroupOf i := by
  induction m with
  | zero => simp
  | succ m ih =>
    rw [Function.iterate_succ_apply', groupStep_olen, transform_step_olen, ih, Nat.succ_mul, Nat.add_assoc]

/-- OUT_LEN after a DONE call (R106). -/
theorem exec_next_outLen {i : Instr} {s t : State} (h : exec i s = .next t) :
    t.outLen = s.inLen / groupSizeOf i * outPerGroupOf i := by
  obtain ⟨-, -, holen, -⟩ := init_openCall_frame i s
  rw [exec_next_iterate h, endCall_outLen, (transform_release_frame i _).2.1, iterate_olen, holen, Nat.zero_add]

/-- On whole groups the product is the column of R100. -/
theorem outLenOf_eq_column {i : Instr} {s : State} (h : groupsWhole i s) :
    s.inLen / groupSizeOf i * outPerGroupOf i = outLenColumn i s.inLen := by
  cases i with
  | ami | b8zs | pstern | nrzu | nrzl | nrzi | mlt3 => simp [outLenColumn]
  | man | dman | rz => simp [outLenColumn, Nat.mul_comm]
  | twoB1Q => simp [outLenColumn]
  | fourB5B =>
    have hwhole : s.inLen % 4 = 0 := h
    simp only [groupSizeOf_fourB5B, outPerGroupOf_fourB5B, outLenColumn]
    omega

/-- Settles O9: every pass emits as many symbols as DESC says, and a DONE call has met the contract, so the column
counts them; with no input there is no partial group. -/
theorem outputLengthIsTheColumn : Obligations.OutputLengthIsTheColumn := by
  refine ⟨fun i s t h => ?_, substitute_olen, fun i s hn hic => ?_⟩
  · obtain ⟨⟨-, -, hwhole⟩, -⟩ := exec_next_iff.mp h
    have hlen := exec_next_outLen h
    exact ⟨hlen, hlen.trans (outLenOf_eq_column hwhole)⟩
  · have hwhole : groupsWhole i s := (groupsWhole_iff i s).mpr fun hpart => absurd (by rw [hn, Nat.zero_mod]) hpart
    have hfit : inputFits s := by rw [inputFits, hn]; exact Nat.zero_le _
    have ht := exec_of_contractMet ⟨hfit, hic, hwhole⟩
    refine ⟨_, ht, rfl, ?_⟩
    rw [exec_next_outLen ht, hn, Nat.zero_div, Nat.zero_mul]

/-! ### The frame -/

/-- What no call writes (R38): the passes and the scheme's own functions keep `schemeFrame`. -/
theorem exec_next_callFrame {i : Instr} {s t : State} (h : exec i s = .next t) : callFrame s t := by
  have hloop : callFrame s (loopEnd i s) := by
    rw [loopEnd]
    generalize s.inLen / groupSizeOf i = n
    induction n with
    | zero =>
      obtain ⟨-, -, -, hlen, hparams, hcmd, hin, -, hhost, hgot, -, hresets, -⟩ := init_openCall_frame i s
      exact ⟨hparams, hcmd, hlen, hin, memReadIn_congr hin hresets hparams, hhost, hgot, hresets⟩
    | succ m ih =>
      rw [Function.iterate_succ_apply']
      generalize (groupStep (transformOf i))^[m] _ = v at ih ⊢
      obtain ⟨-, -, -, hparams, hcmd, hlen, -, -, -, -, hin, hhost, hgot, -, hresets⟩ := groupStep_frame i v
      obtain ⟨hparams', hcmd', hlen', hin', hread', hhost', hgot', hresets'⟩ := ih
      exact ⟨hparams.trans hparams', hcmd.trans hcmd', hlen.trans hlen', hin.trans hin',
        fun a => ((groupStep_reads i v).2.2 a).trans (hread' a), hhost.trans hhost', hgot.trans hgot',
        hresets.trans hresets'⟩
  obtain ⟨-, rfl⟩ := exec_next_iff.mp h
  obtain ⟨⟨hparams, hcmd, hlen, -, -, -, -, hin, hhost, hgot, -, hresets⟩, -⟩ := transform_release_frame i (loopEnd i s)
  obtain ⟨hparams', hcmd', hlen', hin', hread', hhost', hgot', hresets'⟩ := hloop
  exact ⟨hparams.trans hparams', hcmd.trans hcmd', hlen.trans hlen', hin.trans hin',
    fun a => (memReadIn_congr hin hresets hparams a).trans (hread' a), hhost.trans hhost', hgot.trans hgot',
    hresets.trans hresets'⟩

/-- The schemes that use `lastLevel` and `zeroRunLength` (R34). -/
def usesAmiRegs : Instr → Bool
  | .ami _ | .b8zs _ | .pstern _ => true
  | .man _ | .dman _ | .nrzu _ | .nrzl _ | .nrzi _ | .rz _ | .twoB1Q _ | .mlt3 _ | .fourB5B _ => false

/-- The schemes that use `level` (R34). -/
def usesLevel : Instr → Bool
  | .dman _ | .nrzi _ | .mlt3 _ => true
  | .ami _ | .b8zs _ | .pstern _ | .man _ | .nrzu _ | .nrzl _ | .rz _ | .twoB1Q _ | .fourB5B _ => false

/-- The scheme that uses `growing` (R34). -/
def usesGrowing : Instr → Bool
  | .mlt3 _ => true
  | .ami _ | .b8zs _ | .pstern _ | .man _ | .dman _ | .nrzu _ | .nrzl _ | .nrzi _ | .rz _ | .twoB1Q _ | .fourB5B _ =>
    false

/-- A register that the scheme's own functions keep, and that neither a call's start nor its end writes, is kept by the
call. -/
theorem exec_next_register {α : Type} {reg : State → α} {i : Instr} {s t : State}
    (hopen : reg (openCall s) = reg s) (hinit : ∀ v, reg ((transformOf i).init v) = reg v)
    (hpass : ∀ v, reg (groupStep (transformOf i) v) = reg ((transformOf i).step v))
    (hstep : ∀ v, reg ((transformOf i).step v) = reg v)
    (hend : ∀ v, reg (endCall (transformOf i).release v) = reg ((transformOf i).release v))
    (hrelease : ∀ v, reg ((transformOf i).release v) = reg v) (h : exec i s = .next t) : reg t = reg s := by
  obtain ⟨u, hu, rfl⟩ := exec_next_induct (P := fun _ v => reg v = reg s) ((hinit _).trans hopen)
    (fun _ v _ hv => ((hpass v).trans (hstep v)).trans hv) h
  exact ((hend u).trans (hrelease u)).trans hu

/-- The shared AMI machine leaves `level` and `growing` alone (R34). -/
theorem amiFamilyStep_keeps (a b : Bool) (s : State) :
    (amiFamilyStep a b s).level = s.level ∧ (amiFamilyStep a b s).growing = s.growing := by
  obtain ⟨-, he⟩ | ⟨-, -, he⟩ | ⟨-, -, -, he⟩ := amiFamilyStep_cases a b s <;> rw [he]
  · exact ⟨amiMark_level s, amiMark_growing s⟩
  · exact ⟨amiSpace_level s, amiSpace_growing s⟩
  · exact ⟨(substitute_level _).trans (amiSpace_level s), (substitute_growing _).trans (amiSpace_growing s)⟩

/-- A scheme that does not use `lastLevel` and `zeroRunLength` does not write them (R38). -/
theorem transform_keeps_amiRegs {i : Instr} (hi : usesAmiRegs i = false) (s : State) :
    amiRegsKept s ((transformOf i).init s) ∧ amiRegsKept s ((transformOf i).step s) ∧
      amiRegsKept s ((transformOf i).release s) := by
  cases i with
  | ami | b8zs | pstern => cases hi
  | man => exact ⟨⟨rfl, rfl⟩, ⟨manStep_lastLevel s, manStep_zeroRunLength s⟩, rfl, rfl⟩
  | dman => exact ⟨⟨rfl, rfl⟩, ⟨dmanStep_lastLevel s, dmanStep_zeroRunLength s⟩, rfl, rfl⟩
  | nrzu => exact ⟨⟨rfl, rfl⟩, ⟨nrzuStep_lastLevel s, nrzuStep_zeroRunLength s⟩, rfl, rfl⟩
  | nrzl => exact ⟨⟨rfl, rfl⟩, ⟨nrzlStep_lastLevel s, nrzlStep_zeroRunLength s⟩, rfl, rfl⟩
  | nrzi => exact ⟨⟨rfl, rfl⟩, ⟨nrziStep_lastLevel s, nrziStep_zeroRunLength s⟩, rfl, rfl⟩
  | rz => exact ⟨⟨rfl, rfl⟩, ⟨rzStep_lastLevel s, rzStep_zeroRunLength s⟩, rfl, rfl⟩
  | twoB1Q => exact ⟨⟨rfl, rfl⟩, ⟨twoB1QStep_lastLevel s, twoB1QStep_zeroRunLength s⟩, rfl, rfl⟩
  | mlt3 => exact ⟨⟨rfl, rfl⟩, ⟨mlt3Step_lastLevel s, mlt3Step_zeroRunLength s⟩, rfl, rfl⟩
  | fourB5B => exact ⟨⟨rfl, rfl⟩, ⟨fourB5BStep_lastLevel s, fourB5BStep_zeroRunLength s⟩, rfl, rfl⟩

/-- A scheme that does not use `level` does not write it (R38). -/
theorem transform_keeps_level {i : Instr} (hi : usesLevel i = false) (s : State) :
    levelKept s ((transformOf i).init s) ∧ levelKept s ((transformOf i).step s) ∧
      levelKept s ((transformOf i).release s) := by
  cases i with
  | dman | nrzi | mlt3 => cases hi
  | ami | b8zs | pstern => exact ⟨rfl, (amiFamilyStep_keeps _ _ s).1, rfl⟩
  | man => exact ⟨rfl, manStep_level s, rfl⟩
  | nrzu => exact ⟨rfl, nrzuStep_level s, rfl⟩
  | nrzl => exact ⟨rfl, nrzlStep_level s, rfl⟩
  | rz => exact ⟨rfl, rzStep_level s, rfl⟩
  | twoB1Q => exact ⟨rfl, twoB1QStep_level s, rfl⟩
  | fourB5B => exact ⟨rfl, fourB5BStep_level s, rfl⟩

/-- A scheme that does not use `growing` does not write it (R38). -/
theorem transform_keeps_growing {i : Instr} (hi : usesGrowing i = false) (s : State) :
    growingKept s ((transformOf i).init s) ∧ growingKept s ((transformOf i).step s) ∧
      growingKept s ((transformOf i).release s) := by
  cases i with
  | mlt3 => cases hi
  | ami | b8zs | pstern => exact ⟨rfl, (amiFamilyStep_keeps _ _ s).2, rfl⟩
  | man => exact ⟨rfl, manStep_growing s, rfl⟩
  | dman => exact ⟨rfl, dmanStep_growing s, rfl⟩
  | nrzu => exact ⟨rfl, nrzuStep_growing s, rfl⟩
  | nrzl => exact ⟨rfl, nrzlStep_growing s, rfl⟩
  | nrzi => exact ⟨rfl, nrziStep_growing s, rfl⟩
  | rz => exact ⟨rfl, rzStep_growing s, rfl⟩
  | twoB1Q => exact ⟨rfl, twoB1QStep_growing s, rfl⟩
  | fourB5B => exact ⟨rfl, fourB5BStep_growing s, rfl⟩

/-- A call keeps the AMI family's registers, unless its scheme uses them. -/
theorem exec_next_amiRegsKept {i : Instr} {s t : State} (hi : usesAmiRegs i = false) (h : exec i s = .next t) :
    amiRegsKept s t := by
  have hkeeps := transform_keeps_amiRegs hi
  exact ⟨exec_next_register (reg := State.lastLevel) rfl (fun v => (hkeeps v).1.1) (fun _ => rfl)
      (fun v => (hkeeps v).2.1.1) (fun _ => rfl) (fun v => (hkeeps v).2.2.1) h,
    exec_next_register (reg := State.zeroRunLength) rfl (fun v => (hkeeps v).1.2) (fun _ => rfl)
      (fun v => (hkeeps v).2.1.2) (fun _ => rfl) (fun v => (hkeeps v).2.2.2) h⟩

/-- A call keeps `level`, unless its scheme uses it. -/
theorem exec_next_levelKept {i : Instr} {s t : State} (hi : usesLevel i = false) (h : exec i s = .next t) :
    levelKept s t := by
  have hkeeps := transform_keeps_level hi
  exact exec_next_register (reg := State.level) rfl (fun v => (hkeeps v).1) (fun _ => rfl)
    (fun v => (hkeeps v).2.1) (fun _ => rfl) (fun v => (hkeeps v).2.2) h

/-- A call keeps `growing`, unless its scheme uses it. -/
theorem exec_next_growingKept {i : Instr} {s t : State} (hi : usesGrowing i = false) (h : exec i s = .next t) :
    growingKept s t := by
  have hkeeps := transform_keeps_growing hi
  exact exec_next_register (reg := State.growing) rfl (fun v => (hkeeps v).1) (fun _ => rfl)
    (fun v => (hkeeps v).2.1) (fun _ => rfl) (fun v => (hkeeps v).2.2) h

/-! ### The result -/

/-- The sampled length when a call has ended (R207). -/
theorem exec_next_len {i : Instr} {s t : State} (h : exec i s = .next t) : t.len = s.inLen := by
  obtain ⟨⟨-, -, -, -, -, -, hlen, -⟩, -⟩ := transform_release_frame i (loopEnd i s)
  obtain ⟨-, rfl⟩ := exec_next_iff.mp h
  exact hlen.trans (loopEnd_len i s)

/-- A call that ends DONE with `ls` in OUT is done in every respect. -/
theorem callDone_of_outHolds {i : Instr} {s t : State} {ls : List Int} (h : exec i s = .next t) (hout : outHolds ls t) :
    callDone (groupSizeOf i) s.inLen ls t := by
  have ⟨_, holen, _⟩ := hout
  have hlen : t.outLen = ls.length := by
    obtain ⟨-, rfl⟩ := exec_next_iff.mp h
    rw [← holen, endCall_outLen, endCall_olen]
  have hstatus : statusDone t := by
    obtain ⟨-, rfl⟩ := exec_next_iff.mp h
    exact endCall_status _ _
  exact ⟨hstatus, hlen, holen, outHolds_filled hout, outHolds_outLevels hout hlen, exec_next_len h, exec_next_cur h⟩

/-- What a call's statement says of the state `t` that it ends in: the result `ls`, the frame, and every register that
the scheme does not use (R38, R104). -/
structure CallResult (i : Instr) (s : State) (ls : List Int) (t : State) : Prop where
  next : exec i s = .next t
  done : callDone (groupSizeOf i) s.inLen ls t
  frame : callFrame s t
  amiRegs : usesAmiRegs i = false → amiRegsKept s t
  level : usesLevel i = false → levelKept s t
  growing : usesGrowing i = false → growingKept s t

/-- Under the contract a call has a result, whatever is known of the output of its DONE calls. -/
theorem exists_callResult {i : Instr} {s : State} {ls : List Int} (hc : contractMet i s)
    (hout : ∀ t, exec i s = .next t → outHolds ls t) : ∃ t, CallResult i s ls t := by
  have h := exec_of_contractMet hc
  exact ⟨_, h, callDone_of_outHolds h (hout _ h), exec_next_callFrame h, fun hi => exec_next_amiRegsKept hi h,
    fun hi => exec_next_levelKept hi h, fun hi => exec_next_growingKept hi h⟩

end Sys2Proof.Machine
end

section
/-! Each command's call under the contract (42_manchester.md to 47_4b5b.md, 10_state.md R38): the output laws of the
schemes, and what every call leaves behind. -/

namespace Sys2Proof.Machine

/-- Settles O16: Manchester's output law (R130), under the contract, which every length that fits meets. -/
theorem manCallEmitsHalfBits : Obligations.ManCallEmitsHalfBits := by
  intro ic s hfit
  obtain ⟨t, ht⟩ := exists_callResult (i := .man ic) ⟨hfit, trivial, trivial⟩ fun t h => (exec_man_outHolds h).1
  exact ⟨t, ht.next, ht.done, ht.frame, ht.amiRegs rfl, ht.level rfl, ht.growing rfl⟩

/-- Settles O17: Differential Manchester's output law (R132), under the contract on the index. -/
theorem dmanCallEmitsLevelAndItsInverse : Obligations.DmanCallEmitsLevelAndItsInverse := by
  intro ic s hfit hic
  obtain ⟨t, ht⟩ := exists_callResult (i := .dman ic) ⟨hfit, hic, trivial⟩ fun t h => (exec_dman_outHolds h).1
  exact ⟨t, ht.next, ht.done, ht.frame, ht.amiRegs rfl, ht.growing rfl⟩

/-- Settles O18: NRZ-Unipolar's output law (R140), under the contract. -/
theorem nrzuCallCopiesTheInput : Obligations.NrzuCallCopiesTheInput := by
  intro ic s hfit
  obtain ⟨t, ht⟩ := exists_callResult (i := .nrzu ic) ⟨hfit, trivial, trivial⟩ fun t h => (exec_nrzu_outHolds h).1
  exact ⟨t, ht.next, ht.done, ht.frame, ht.amiRegs rfl, ht.level rfl, ht.growing rfl⟩

/-- Settles O19: NRZ-Polar-L's output law (R141), under the contract. -/
theorem nrzlCallEmitsPolarLevels : Obligations.NrzlCallEmitsPolarLevels := by
  intro ic s hfit
  obtain ⟨t, ht⟩ := exists_callResult (i := .nrzl ic) ⟨hfit, trivial, trivial⟩ fun t h => (exec_nrzl_outHolds h).1
  exact ⟨t, ht.next, ht.done, ht.frame, ht.amiRegs rfl, ht.level rfl, ht.growing rfl⟩

/-- Settles O20: NRZ-Polar-I's output law (R142), under the contract on the index. -/
theorem nrziCallInvertsOnZeros : Obligations.NrziCallInvertsOnZeros := by
  intro ic s hfit hic
  obtain ⟨t, ht⟩ := exists_callResult (i := .nrzi ic) ⟨hfit, hic, trivial⟩ fun t h => (exec_nrzi_outHolds h).1
  exact ⟨t, ht.next, ht.done, ht.frame, ht.amiRegs rfl, ht.growing rfl⟩

/-- Settles O21: RZ's output law (R150), under the contract. -/
theorem rzCallEmitsPulses : Obligations.RzCallEmitsPulses := by
  intro ic s hfit
  obtain ⟨t, ht⟩ := exists_callResult (i := .rz ic) ⟨hfit, trivial, trivial⟩ fun t h => (exec_rz_outHolds h).1
  exact ⟨t, ht.next, ht.done, ht.frame, ht.amiRegs rfl, ht.level rfl, ht.growing rfl⟩

/-- Settles O22: 2B1Q's output law (R155, R156), under the contract, which a trailing bit does not break. -/
theorem twoB1QCallEmitsOneSymbolPerPair : Obligations.TwoB1QCallEmitsOneSymbolPerPair := by
  intro ic s hfit
  obtain ⟨t, ht⟩ := exists_callResult (i := .twoB1Q ic) ⟨hfit, trivial, trivial⟩ fun t h => (exec_twoB1Q_outHolds h).1
  exact ⟨t, ht.next, ht.done, ht.frame, ht.amiRegs rfl, ht.level rfl, ht.growing rfl⟩

/-- Settles O23: MLT-3's output law (R166, R167), under the contract. -/
theorem mlt3CallWalksTheLevels : Obligations.Mlt3CallWalksTheLevels := by
  intro ic s hfit
  obtain ⟨t, ht⟩ := exists_callResult (i := .mlt3 ic) ⟨hfit, trivial, trivial⟩ fun t h => (exec_mlt3_outHolds h).1
  exact ⟨t, ht.next, ht.done, ht.frame, ht.amiRegs rfl⟩

/-- Settles O24: 4B5B's output law (R180), under the contract on whole groups. -/
theorem fourB5BCallEmitsCodewords : Obligations.FourB5BCallEmitsCodewords := by
  intro ic s hfit hwhole
  obtain ⟨t, ht⟩ := exists_callResult (i := .fourB5B ic) ⟨hfit, trivial, hwhole⟩ fun t h => (exec_fourB5B_outHolds h).1
  exact ⟨t, ht.next, ht.done, ht.frame, ht.amiRegs rfl, ht.level rfl, ht.growing rfl⟩

/-! ### MLT-3's table, row by row -/

/-- A step whose table entry is `(l, g)` is that row (R168). -/
theorem mlt3Row_of_registers {s : State} {l : Int} {g : Bool} (h : mlt3Registers (mlt3Step s) = (l, g)) :
    mlt3Row s l g := by
  obtain ⟨hl, hg⟩ := Prod.mk.inj h
  refine ⟨hl, hg, mlt3Step_olen s, ?_⟩
  have hout : cellsRead (mlt3Step s).mem.outSyms s.olen = some (symOfLevel (mlt3Step s).level.toInt) := by
    cases hbit : groupBit 0 s with
    | true =>
      have holen : (mlt3Move s).olen = s.olen := by rw [mlt3Move_eq]
      rw [mlt3Step_mark hbit, cellsRead_emit, holen, if_pos rfl, emit_level]
    | false => rw [mlt3Step_space hbit, cellsRead_emit, if_pos rfl, emit_level]
  rw [outLevel, memReadOut, hout, Option.getD_some, levelOfSym_symOfLevel (level_toInt_bounds _), hl]

/-- Settles O33: a step takes the registers to the table's next entry and emits the level it leaves. -/
theorem mlt3StepFollowsItsTable : Obligations.Mlt3StepFollowsItsTable := by
  intro s
  have hstep := mlt3Step_registers s
  have hrow {l : Int} {g : Bool} (hbit : groupBit 0 s = true) (hl : s.level.toInt = l) (hg : s.growing = g) :
      mlt3Row s (mlt3Next l g true).1 (mlt3Next l g true).2 := by
    refine mlt3Row_of_registers ?_
    rw [hstep, hbit, mlt3Registers, hl, hg]
  refine ⟨fun hbit => ⟨hrow hbit, hrow hbit, hrow hbit, hrow hbit, hrow hbit, hrow hbit⟩, fun hbit => ?_⟩
  refine mlt3Row_of_registers ?_
  rw [hstep, hbit]
  rfl

/-! ### 4B5B gives its input back -/

/-- No two groups have the same codeword (R181). -/
theorem codewordLevels_t4b5b_injective {g h : BitVec 4} (he : codewordLevels (t4b5b g) = codewordLevels (t4b5b h)) :
    g = h := by
  revert g h; decide

/-- A group is read off its index (R52). -/
theorem nibbleOf_injective {a b c d a' b' c' d' : Bit} (h : nibbleOf a b c d = nibbleOf a' b' c' d') :
    [a, b, c, d] = [a', b', c', d'] := by
  revert a b c d a' b' c' d'; decide

/-- On whole groups 4B5B is injective, group by group. -/
theorem fourB5BLevels_injective :
    ∀ {xs ys : List Bit}, xs.length % 4 = 0 → ys.length % 4 = 0 → fourB5BLevels xs = fourB5BLevels ys → xs = ys
  | [], [], _, _, _ => rfl
  | [], _ :: _ :: _ :: _ :: _, _, _, h => by simp [fourB5BLevels, codewordLevels] at h
  | _ :: _ :: _ :: _ :: _, [], _, _, h => by simp [fourB5BLevels, codewordLevels] at h
  | a :: b :: c :: d :: xs, a' :: b' :: c' :: d' :: ys, hx, hy, h => by
    obtain ⟨hword, hrest⟩ := List.append_inj h rfl
    have hgroup := nibbleOf_injective (codewordLevels_t4b5b_injective hword)
    have htail := fourB5BLevels_injective (xs := xs) (ys := ys) (by rw [← Nat.add_mod_right]; exact hx)
      (by rw [← Nat.add_mod_right]; exact hy) hrest
    change [a, b, c, d] ++ xs = [a', b', c', d'] ++ ys
    rw [hgroup, htail]
  | [_], _, hx, _, _ | [_, _], _, hx, _, _ | [_, _, _], _, hx, _, _ => by simp at hx
  | _, [_], _, hy, _ | _, [_, _], _, hy, _ | _, [_, _, _], _, hy, _ => by simp at hy

/-- All of the output of a call of ENC.4B5B (R180, R233). -/
theorem exec_fourB5B_outLevels {ic : BitVec 2} {s t : State} (h : exec (.fourB5B ic) s = .next t) :
    outLevels t = fourB5BLevels (inputBits s s.inLen) := by
  obtain ⟨-, -, -, -, hlevels, -⟩ := callDone_of_outHolds h (exec_fourB5B_outHolds h).1
  exact hlevels

/-- Settles O36: a DONE call was on whole groups, and on those the code is injective. -/
theorem fourB5BIsInjective : Obligations.FourB5BIsInjective := by
  intro ic ic' s s' t t' h h' hout
  have hwhole {ic : BitVec 2} {s t : State} (h : exec (.fourB5B ic) s = .next t) :
      (inputBits s s.inLen).length % 4 = 0 := by
    obtain ⟨⟨-, -, hwhole⟩, -⟩ := exec_next_iff.mp h
    rw [inputBits_length]
    exact hwhole
  rw [exec_fourB5B_outLevels h, exec_fourB5B_outLevels h'] at hout
  exact fourB5BLevels_injective (hwhole h) (hwhole h') hout

end Sys2Proof.Machine
end

section
/-! A call run one group a step (20_memory.md R57, R61, 40_registry.md R104; log 10). The queue is no matter of a call,
so the call that the wait carries along is the call that `CMD` runs whole, group by group. -/

namespace Sys2Proof.Machine

/-! ### The queue is no matter of a call -/

/-- The shared AMI machine carries the queue along. -/
theorem amiFamilyStep_withHost (a b : Bool) (q : List HostOp) (s : State) :
    amiFamilyStep a b (withHost q s) = withHost q (amiFamilyStep a b s) := by
  obtain ⟨hbit, he⟩ | ⟨hbit, hrun, he⟩ | ⟨hbit, rfl, h7, he⟩ := amiFamilyStep_cases a b s <;> rw [he]
  · rw [amiFamilyStep_mark (s := withHost q s) hbit]; rfl
  · rw [amiFamilyStep_space (s := withHost q s) hbit hrun]; rfl
  · rw [amiFamilyStep_substitute (s := withHost q s) hbit h7]; rfl

/-- So does the flip. -/
theorem dmanFlip_withHost (q : List HostOp) (s : State) : dmanFlip (withHost q s) = withHost q (dmanFlip s) := by
  rw [dmanFlip_eq, dmanFlip_eq]; rfl

/-- And MLT-3's move. -/
theorem mlt3Move_withHost (q : List HostOp) (s : State) : mlt3Move (withHost q s) = withHost q (mlt3Move s) := by
  obtain ⟨hl, hg⟩ := mlt3Move_congr (s := s) (u := withHost q s) rfl rfl
  rw [mlt3Move_eq (withHost q s), mlt3Move_eq s, hl, hg]
  rfl

/-- A scheme's step carries the queue along. -/
theorem transform_step_withHost (i : Instr) (q : List HostOp) (s : State) :
    (transformOf i).step (withHost q s) = withHost q ((transformOf i).step s) := by
  cases i with
  | ami => exact amiFamilyStep_withHost false false q s
  | b8zs => exact amiFamilyStep_withHost true false q s
  | pstern => exact amiFamilyStep_withHost false true q s
  | dman => simp only [transformOf, dmanTransform, dmanStep, dmanFlip_withHost]; rfl
  | nrzi => simp only [transformOf, nrziTransform, nrziStep, nrziFlip_eq_dmanFlip, dmanFlip_withHost]; rfl
  | mlt3 =>
    simp only [transformOf, mlt3Transform]
    cases hbit : groupBit 0 s with
    | true => rw [mlt3Step_mark hbit, mlt3Step_mark (s := withHost q s) hbit, mlt3Move_withHost]; rfl
    | false => rw [mlt3Step_space hbit, mlt3Step_space (s := withHost q s) hbit]; rfl
  | man | nrzu | nrzl | rz | twoB1Q | fourB5B => rfl

/-- So does a pass. -/
theorem groupStep_withHost (i : Instr) (q : List HostOp) (s : State) :
    groupStep (transformOf i) (withHost q s) = withHost q (groupStep (transformOf i) s) := by
  simp only [groupStep, transform_step_withHost]
  rfl

/-- So do any number of passes. -/
theorem iterate_withHost (i : Instr) (q : List HostOp) (m : Nat) (s : State) :
    (groupStep (transformOf i))^[m] (withHost q s) = withHost q ((groupStep (transformOf i))^[m] s) := by
  induction m generalizing s with
  | zero => rfl
  | succ m ih => rw [Function.iterate_succ_apply, Function.iterate_succ_apply, groupStep_withHost, ih]

/-- The outcome with `f` done to its next state. -/
def mapNext (f : State → State) : Host.Outcome State Fault Refusal → Host.Outcome State Fault Refusal
  | .next s => .next (f s)
  | .fault r => .fault r
  | .refused r => .refused r

/-- The queue set last is the one that is there. -/
theorem mapNext_withHost (q r : List HostOp) (o : Host.Outcome State Fault Refusal) :
    mapNext (withHost q) (mapNext (withHost r) o) = mapNext (withHost q) o := by
  cases o <;> rfl

/-- The start of a call carries the queue along. -/
theorem startCall_withHost (i : Instr) (q : List HostOp) (s : State) :
    startCall (transformOf i) (withHost q s) = mapNext (withHost q) (startCall (transformOf i) s) := by
  have hcheck : (transformOf i).check (withHost q s) = (transformOf i).check s := transform_check_congr i rfl
  have hinit : (transformOf i).init (openCall (withHost q s)) = withHost q ((transformOf i).init (openCall s)) := by
    cases i <;> rfl
  simp only [startCall, hcheck, hinit]
  cases (transformOf i).check s with
  | some r => rfl
  | none =>
    change (if s.params.maxInLen < s.inLen then _ else _) = _
    split <;> rfl

/-- The end of a call carries the queue along. -/
theorem closeCall_withHost (i : Instr) (q : List HostOp) (s : State) :
    closeCall (transformOf i) (withHost q s) = mapNext (withHost q) (closeCall (transformOf i) s) := by
  have hend : endCall (transformOf i).release (withHost q s) = withHost q (endCall (transformOf i).release s) := by
    cases i <;> rfl
  simp only [closeCall, hend]
  change (if s.cur < s.len then _ else _) = _
  split
  · cases (transformOf i).remainder <;> rfl
  · rfl

/-! ### Waiting -/

/-- Waiting while a full group is left does it (R57). -/
theorem step_wait_group {i : Instr} {s : State} {rest : List HostOp} (hb : isBusy s = true) (hd : decode s.cmd = .ok i)
    (hhost : s.host = .waitEnd :: rest) (hready : groupReady (transformOf i) s = true) :
    step s = .next (groupStep (transformOf i) s) := by
  rw [step_waitEnd_busy hb hhost, engineStep_busy hb hd]
  exact callStep_next.mpr (.inl ⟨hready, rfl⟩)

/-- Waiting when none is left ends the call. -/
theorem step_wait_close {i : Instr} {s : State} {rest : List HostOp} (hb : isBusy s = true) (hd : decode s.cmd = .ok i)
    (hhost : s.host = .waitEnd :: rest) (hready : groupReady (transformOf i) s = false) :
    step s = closeCall (transformOf i) s := by
  rw [step_waitEnd_busy hb hhost, engineStep_busy hb hd, callStep, hready]
  rfl

/-- The end of a call keeps the queue. -/
theorem closeCall_host {i : Instr} {s t : State} (h : closeCall (transformOf i) s = .next t) :
    t.host = s.host ∧ isBusy t = false := by
  obtain ⟨-, rfl⟩ := closeCall_next.mp h
  obtain ⟨⟨-, -, -, -, -, -, -, -, hhost, -⟩, -⟩ := transform_release_frame i s
  exact ⟨hhost, isBusy_endCall _ _⟩

/-- A call with `m` full groups left, waited for: `m` passes, the call's end, and the end of the wait. -/
theorem runSteps_wait {i : Instr} {rest : List HostOp} :
    ∀ (m : Nat) {s : State}, isBusy s = true → decode s.cmd = .ok i → s.host = .waitEnd :: rest →
      (∀ k, k < m → groupReady (transformOf i) ((groupStep (transformOf i))^[k] s) = true) →
      groupReady (transformOf i) ((groupStep (transformOf i))^[m] s) = false →
      runSteps (m + 2) s = mapNext (withHost rest) (closeCall (transformOf i) ((groupStep (transformOf i))^[m] s))
  | 0, s, hb, hd, hhost, _, hlast => by
    have hclose := step_wait_close hb hd hhost hlast
    rw [Function.iterate_zero_apply]
    obtain ⟨t, ht, -⟩ | ⟨r, hr⟩ := closeCall_done_or_refused (transformOf i) s
    · obtain ⟨hhost', hidle⟩ := closeCall_host ht
      rw [runSteps_succ (hclose.trans ht), runSteps_succ (step_waitEnd_idle hidle (hhost'.trans hhost)), ht]
      rfl
    · rw [runSteps_succ_refused (hclose.trans hr), hr]
      rfl
  | m + 1, s, hb, hd, hhost, hready, hlast => by
    obtain ⟨hbusy, hcmd⟩ := groupStep_keeps_call i s
    obtain ⟨-, -, -, -, -, -, -, -, -, -, -, hhost', -⟩ := groupStep_frame i s
    rw [Nat.add_right_comm, runSteps_succ (step_wait_group hb hd hhost (hready 0 (Nat.succ_pos m))),
      Function.iterate_succ_apply]
    exact runSteps_wait m (hbusy.trans hb) (hcmd ▸ hd) (hhost'.trans hhost)
      (fun k hk => hready (k + 1) (Nat.succ_lt_succ hk)) hlast

/-- A call that has started, waited for, ends where the whole call ends. -/
theorem runSteps_wait_started {i : Instr} {s u : State} {rest : List HostOp} (hd : decode s.cmd = .ok i)
    (h : startCall (transformOf i) s = .next u) :
    runSteps (s.inLen / groupSizeOf i + 2) (withHost (.waitEnd :: rest) u) = exec i (withHost rest s) := by
  have hstart : startCall (transformOf i) (withHost rest s) = .next (withHost rest u) := by
    rw [startCall_withHost, h]; rfl
  obtain ⟨-, -, hu⟩ := startCall_next.mp h
  obtain ⟨hlen, hcur, -⟩ := init_openCall_frame i s
  obtain ⟨hbusy, hcmd⟩ := init_openCall_busy i s
  rw [← hu] at hlen hcur hbusy hcmd
  have hready (k : Nat) : groupReady (transformOf i) ((groupStep (transformOf i))^[k] (withHost (.waitEnd :: rest) u)) =
      true ↔ k < s.inLen / groupSizeOf i := by
    rw [groupReady_iterate i (u := withHost (.waitEnd :: rest) u) hcur k, ← hlen]
    rfl
  rw [runSteps_wait (s := withHost (.waitEnd :: rest) u) _ hbusy ((congrArg decode hcmd).trans hd) rfl
    (fun k hk => (hready k).mpr hk)
    (Bool.eq_false_iff.mpr fun hr => lt_irrefl _ ((hready _).mp hr)), exec_of_startCall hstart, iterate_withHost,
    iterate_withHost, closeCall_withHost, closeCall_withHost, mapNext_withHost]
  rfl

/-- Settles O11: the write starts the call that `CMD` runs, and both are refused at the start or go through the same
passes to the same end. -/
theorem stepwiseCallEqualsWholeCall : Obligations.StepwiseCallEqualsWholeCall := by
  intro s w rest i hb hd
  have hwrite : step (withHost (.writeCmd w :: .waitEnd :: rest) s) =
      mapNext (withHost (.waitEnd :: rest)) (startCall (transformOf i) (latchCommand w s)) :=
    ((step_writeCmd (s := withHost (.writeCmd w :: .waitEnd :: rest) s) hb rfl).trans (hostWriteCmd_of_ok hd _)).trans
      (startCall_withHost i (.waitEnd :: rest) (latchCommand w s))
  have hwhole : step (withHost (.command w :: rest) s) = exec i (withHost rest (latchCommand w s)) :=
    (step_command (s := withHost (.command w :: rest) s) hb rfl).trans (hostCommand_of_ok hd _)
  change runSteps _ (withHost (.writeCmd w :: .waitEnd :: rest) s) = step (withHost (.command w :: rest) s)
  cases hcall : startCall (transformOf i) (latchCommand w s) with
  | next u =>
    rw [hcall] at hwrite
    rw [runSteps_succ hwrite, hwhole]
    exact runSteps_wait_started (s := latchCommand w s) hd hcall
  | refused r =>
    have hstart : startCall (transformOf i) (withHost rest (latchCommand w s)) = .refused r := by
      rw [startCall_withHost, hcall]; rfl
    rw [hcall] at hwrite
    rw [runSteps_succ_refused hwrite, hwhole, exec_eq_runCall, runCall, hstart]
  | fault r => exact absurd (by rw [runCall, hcall]) (runCall_not_fault (transformOf i) (latchCommand w s) r)

end Sys2Proof.Machine
end

section
/-! AMI and Pseudoternary (41_ami_family.md R111, R113, R115, R117). `amiAfter` follows the register `lastLevel` through
the input; a mark bit negates it and emits it. -/

namespace Sys2Proof.Machine

/-! ### The pure form -/

/-- The polarity after a bit (R111). -/
def amiNext (invertRoles : Bool) (last : Int) (b : Bit) : Int := if b != invertRoles then -last else last

/-- The symbol of a bit (R111). -/
def amiSymbol (invertRoles : Bool) (last : Int) (b : Bit) : Int := if b != invertRoles then -last else 0

/-- The polarity once the bits have been read. -/
def amiAfter (invertRoles : Bool) (last : Int) (bits : List Bit) : Int := bits.foldl (amiNext invertRoles) last

/-- A symbol a bit, and then the rest from the next polarity. -/
theorem amiLevels_cons (inv : Bool) (last : Int) (b : Bit) (bs : List Bit) :
    amiLevels inv last (b :: bs) = amiSymbol inv last b :: amiLevels inv (amiNext inv last b) bs := by
  rw [amiLevels, amiSymbol, amiNext]
  split <;> rfl

@[simp] theorem amiAfter_cons (inv : Bool) (last : Int) (b : Bit) (bs : List Bit) :
    amiAfter inv last (b :: bs) = amiAfter inv (amiNext inv last b) bs := rfl

/-- One bit more. -/
@[simp] theorem amiAfter_concat (inv : Bool) (last : Int) (bs : List Bit) (b : Bit) :
    amiAfter inv last (bs ++ [b]) = amiNext inv (amiAfter inv last bs) b := by simp [amiAfter]

/-- One bit more of the output. -/
theorem amiLevels_concat (inv : Bool) (last : Int) (bs : List Bit) (b : Bit) :
    amiLevels inv last (bs ++ [b]) = amiLevels inv last bs ++ [amiSymbol inv (amiAfter inv last bs) b] := by
  induction bs generalizing last with
  | nil => rw [List.nil_append, amiLevels_cons]; rfl
  | cons c cs ih => rw [List.cons_append, amiLevels_cons, ih, amiLevels_cons, amiAfter_cons, List.cons_append]

/-- A symbol a bit. -/
theorem amiLevels_length (inv : Bool) (last : Int) (bits : List Bit) :
    (amiLevels inv last bits).length = bits.length := by
  induction bits generalizing last with
  | nil => rfl
  | cons b bs ih => rw [amiLevels_cons, List.length_cons, ih, List.length_cons]

/-- A level is 1 or -1. -/
def isPolarity (v : Int) : Prop := v = 1 ∨ v = -1

theorem isPolarity_neg {v : Int} (h : isPolarity v) : isPolarity (-v) := by
  rw [isPolarity] at h ⊢
  omega

/-- The starting polarity (R30). -/
theorem isPolarity_icPolarity (ic : BitVec 2) : isPolarity (icPolarity ic) := by
  rw [icPolarity, isPolarity]
  split
  · exact .inl rfl
  · exact .inr rfl

/-- The polarity stays one. -/
theorem isPolarity_amiNext {inv : Bool} {last : Int} {b : Bit} (h : isPolarity last) :
    isPolarity (amiNext inv last b) := by
  rw [amiNext]
  split
  · exact isPolarity_neg h
  · exact h

/-- Three levels (R113). -/
theorem amiLevels_mem {inv : Bool} {last v : Int} {bits : List Bit} (h : isPolarity last)
    (hv : v ∈ amiLevels inv last bits) : v = -1 ∨ v = 0 ∨ v = 1 := by
  induction bits generalizing last with
  | nil => cases hv
  | cons b bs ih =>
    rw [amiLevels_cons] at hv
    rcases List.mem_cons.mp hv with rfl | hv
    · rw [amiSymbol]
      have hneg := isPolarity_neg h
      rw [isPolarity] at hneg
      split <;> omega
    · exact ih (isPolarity_amiNext h) hv

/-- Each mark negates the mark before it, and the first one the starting polarity (R113). -/
theorem amiLevels_marks_isChain (inv : Bool) {last : Int} (h : isPolarity last) (bits : List Bit) :
    List.IsChain (fun a b => b = -a) (last :: (amiLevels inv last bits).filter (· ≠ 0)) := by
  induction bits generalizing last with
  | nil => exact List.isChain_singleton last
  | cons b bs ih =>
    rw [amiLevels_cons, amiSymbol, amiNext]
    split
    · have hne : -last ≠ 0 := by rw [isPolarity] at h; omega
      rw [List.filter_cons_of_pos (by simpa using hne)]
      exact List.isChain_cons_cons.mpr ⟨rfl, ih (isPolarity_neg h)⟩
    · rw [List.filter_cons_of_neg (by simp)]
      exact ih h

/-- Pseudoternary is AMI of the complement (R117). -/
theorem amiLevels_true_eq (last : Int) (bits : List Bit) :
    amiLevels true last bits = amiLevels false last (bits.map (!·)) := by
  induction bits generalizing last with
  | nil => rfl
  | cons b bs ih =>
    rw [List.map_cons, amiLevels_cons, amiLevels_cons, ih]
    cases b <;> rfl

/-! ### The engine -/

/-- A polarity is negated in its register without loss (R30). -/
theorem lastLevel_neg {v : BitVec 2} (h : isPolarity v.toInt) : (BitVec.ofInt 2 (-v.toInt)).toInt = -v.toInt := by
  have htable : ∀ v : BitVec 2, v.toInt = 1 ∨ v.toInt = -1 → (BitVec.ofInt 2 (-v.toInt)).toInt = -v.toInt := by decide
  exact htable v h

/-- A mark appends the negated polarity and keeps it (R111). -/
theorem outHolds_amiMark {ls : List Int} {s : State} (h : outHolds ls s) (hp : isPolarity s.lastLevel.toInt) :
    outHolds (ls ++ [-s.lastLevel.toInt]) (amiMark s) ∧ (amiMark s).lastLevel.toInt = -s.lastLevel.toInt := by
  have hneg := lastLevel_neg hp
  have hbounds : -4 ≤ -s.lastLevel.toInt ∧ -s.lastLevel.toInt ≤ 3 := by rw [isPolarity] at hp; omega
  refine ⟨?_, hneg⟩
  have hemit := outHolds_emit (s := setLastLevel (-s.lastLevel.toInt) (setZeroRunLength 0 s))
    (outHolds_congr h rfl rfl) hbounds
  rw [amiMark, setLastLevel_lastLevel, hneg]
  exact hemit

/-- A space appends 0 (R111). -/
theorem outHolds_amiSpace {ls : List Int} {s : State} (h : outHolds ls s) : outHolds (ls ++ [0]) (amiSpace s) :=
  outHolds_emit (s := setZeroRunLength (s.zeroRunLength + 1) s) (outHolds_congr h rfl rfl) (by decide)

/-- One step without substitution (R111). -/
theorem outHolds_amiFamilyStep {ls : List Int} {s : State} (inv : Bool) (h : outHolds ls s)
    (hp : isPolarity s.lastLevel.toInt) :
    outHolds (ls ++ [amiSymbol inv s.lastLevel.toInt (groupBit 0 s)]) (amiFamilyStep false inv s) ∧
      (amiFamilyStep false inv s).lastLevel.toInt = amiNext inv s.lastLevel.toInt (groupBit 0 s) := by
  obtain ⟨hbit, he⟩ | ⟨hbit, -, he⟩ | ⟨-, hsub, -⟩ := amiFamilyStep_cases false inv s
  · have hmark : (groupBit 0 s != inv) = true := by rw [hbit]; cases inv <;> rfl
    rw [he, amiSymbol, amiNext, if_pos hmark, if_pos hmark]
    exact outHolds_amiMark h hp
  · have hspace : ¬(groupBit 0 s != inv) = true := by rw [hbit]; simp
    rw [he, amiSymbol, amiNext, if_neg hspace, if_neg hspace]
    exact ⟨outHolds_amiSpace h, rfl⟩
  · cases hsub

/-- A call of AMI or Pseudoternary after the first `m` bits of the input of `s`: its output, and the polarity. -/
def amiPoint (inv : Bool) (ic : BitVec 2) (s : State) (m : Nat) (v : State) : Prop :=
  outHolds (amiLevels inv (icPolarity ic) (inputBits s m)) v ∧
    v.lastLevel.toInt = amiAfter inv (icPolarity ic) (inputBits s m)

/-- The starting polarity is read back as it was stored. -/
theorem amiInit_lastLevel_toInt (ic : BitVec 2) (s : State) : (amiInit ic s).lastLevel.toInt = icPolarity ic := by
  have htable : ∀ ic : BitVec 2, (BitVec.ofInt 2 (icPolarity ic)).toInt = icPolarity ic := by decide
  exact htable ic

/-- The polarity after any input is one. -/
theorem isPolarity_amiAfter (inv : Bool) {last : Int} (h : isPolarity last) (bits : List Bit) :
    isPolarity (amiAfter inv last bits) := by
  induction bits generalizing last with
  | nil => exact h
  | cons b bs ih => exact ih (isPolarity_amiNext h)

/-- A pass on bit `m` of the input leads on to the next point. -/
theorem amiPoint_groupStep {i : Instr} {inv : Bool} {ic : BitVec 2} {s v : State} {m : Nat}
    (hstep : (transformOf i).step v = amiFamilyStep false inv v) (hbit : groupBit 0 v = memReadIn s m)
    (h : amiPoint inv ic s m v) : amiPoint inv ic s (m + 1) (groupStep (transformOf i) v) := by
  obtain ⟨hout, hlast⟩ := h
  obtain ⟨hout', hlast'⟩ := outHolds_amiFamilyStep inv hout
    (hlast ▸ isPolarity_amiAfter inv (isPolarity_icPolarity ic) _)
  rw [hlast, hbit] at hout' hlast'
  rw [amiPoint, inputBits_succ, amiLevels_concat, amiAfter_concat, groupStep_lastLevel, hstep]
  exact ⟨outHolds_congr hout' (by rw [groupStep_mem, hstep]) (by rw [groupStep_olen, hstep]), hlast'⟩

/-- The output of a call whose scheme is the shared machine without substitution. -/
theorem exec_outHolds_of_amiFamily {i : Instr} {inv : Bool} {ic : BitVec 2} {s t : State} (hg : groupSizeOf i = 1)
    (hinit : ∀ v, (transformOf i).init v = amiInit ic v)
    (hstep : ∀ v, (transformOf i).step v = amiFamilyStep false inv v) (h : exec i s = .next t) :
    outHolds (amiLevels inv (icPolarity ic) (inputBits s s.inLen)) t := by
  obtain ⟨u, ⟨hu, -⟩, rfl⟩ := exec_next_induct_bits (P := amiPoint inv ic s) hg
    ⟨outHolds_init_openCall i s, by rw [hinit]; exact amiInit_lastLevel_toInt ic _⟩
    (fun _ v => amiPoint_groupStep (hstep v)) h
  exact (outHolds_endCall i hu).1

/-- The output of a call of ENC.AMI is AMI of its input (R115). -/
theorem exec_ami_outHolds {ic : BitVec 2} {s t : State} (h : exec (.ami ic) s = .next t) :
    outHolds (amiLevels false (icPolarity ic) (inputBits s s.inLen)) t :=
  exec_outHolds_of_amiFamily rfl (fun _ => rfl) (fun _ => rfl) h

/-- The output of a call of ENC.PSTERN is Pseudoternary of its input (R117). -/
theorem exec_pstern_outHolds {ic : BitVec 2} {s t : State} (h : exec (.pstern ic) s = .next t) :
    outHolds (amiLevels true (icPolarity ic) (inputBits s s.inLen)) t :=
  exec_outHolds_of_amiFamily rfl (fun _ => rfl) (fun _ => rfl) h

/-- Settles O13: AMI's output law, under the contract. -/
theorem amiCallEmitsAlternatingMarks : Obligations.AmiCallEmitsAlternatingMarks := by
  intro ic s hfit
  obtain ⟨t, ht⟩ := exists_callResult (i := .ami ic) ⟨hfit, trivial, trivial⟩ fun _ => exec_ami_outHolds
  exact ⟨t, ht.next, ht.done, ht.frame, ht.level rfl, ht.growing rfl⟩

/-- Settles O15: Pseudoternary's output law, under the contract. -/
theorem psternCallEmitsMarksForZeros : Obligations.PsternCallEmitsMarksForZeros := by
  intro ic s hfit
  obtain ⟨t, ht⟩ := exists_callResult (i := .pstern ic) ⟨hfit, trivial, trivial⟩ fun _ => exec_pstern_outHolds
  exact ⟨t, ht.next, ht.done, ht.frame, ht.level rfl, ht.growing rfl⟩

/-- All of the output of a DONE call, and its length, from its output law (R233). -/
theorem exec_next_outLevels {i : Instr} {s t : State} {ls : List Int} (h : exec i s = .next t) (hout : outHolds ls t) :
    outLevels t = ls ∧ t.outLen = ls.length := by
  obtain ⟨-, hlen, -, -, hlevels, -⟩ := callDone_of_outHolds h hout
  exact ⟨hlevels, hlen⟩

/-- Settles O37: the nonzero symbols of either output, after the starting polarity, are a chain of negations. -/
theorem amiAndPsternMarksAlternate : Obligations.AmiAndPsternMarksAlternate := by
  intro ic s t h
  obtain ⟨inv, hlevels, hlen⟩ : ∃ inv, outLevels t = amiLevels inv (icPolarity ic) (inputBits s s.inLen) ∧
      t.outLen = (amiLevels inv (icPolarity ic) (inputBits s s.inLen)).length := by
    rcases h with h | h
    · exact ⟨false, exec_next_outLevels h (exec_ami_outHolds h)⟩
    · exact ⟨true, exec_next_outLevels h (exec_pstern_outHolds h)⟩
  have hp := isPolarity_icPolarity ic
  have hchain := amiLevels_marks_isChain inv hp (inputBits s s.inLen)
  rw [hlevels]
  refine ⟨by rw [hlen, amiLevels_length, inputBits_length], fun v => amiLevels_mem hp, fun a b l r hsplit => ?_,
    fun a ha => ?_⟩
  · rw [hsplit, ← List.cons_append] at hchain
    exact (List.isChain_cons_cons.mp (List.isChain_append.mp hchain).2.1).1
  · exact (List.isChain_cons.mp hchain).1 a ha

/-- Settles O38: the two inputs are complements of each other. -/
theorem psternIsAmiOfTheComplement : Obligations.PsternIsAmiOfTheComplement := by
  intro ic s u t v hlen hin ht hv
  have hcomplement : inputBits u u.inLen = (inputBits s s.inLen).map (!·) := by
    rw [← hlen, inputBits, inputBits, List.map_map]
    refine List.map_congr_left fun a ha => ?_
    rw [Function.comp_apply, hin a (List.mem_range.mp ha), Bool.not_not]
  rw [(exec_next_outLevels ht (exec_pstern_outHolds ht)).1, (exec_next_outLevels hv (exec_ami_outHolds hv)).1,
    hcomplement, amiLevels_true_eq]

end Sys2Proof.Machine
end

section
/-! B8ZS (41_ami_family.md R112, R113, R116). The engine writes back over a run that has become eight zeros long; the
pure form looks ahead. They meet in `b8zsPoint`: the symbols before the pending run are decided, and the run's zeros
still stand for themselves in front of whatever input follows. -/

namespace Sys2Proof.Machine

/-! ### The substitution -/

/-- A read of OUT after a write to it. -/
theorem memReadOut_memWriteOut (j k : Nat) (v : Int) (s : State) :
    memReadOut (memWriteOut j v s) k = if k = j then symOfLevel v else memReadOut s k := by
  rw [memReadOut, cellsRead_memWriteOut]
  split <;> rfl

/-- What OUT reads as after a substitution (R112). -/
theorem memReadOut_substitute (s : State) (k : Nat) :
    memReadOut (substitute s) k =
      if k = s.olen - 1 then symOfLevel s.lastLevel.toInt
      else if k = s.olen - 2 then symOfLevel (-s.lastLevel.toInt)
      else if k = s.olen - 4 then symOfLevel (-s.lastLevel.toInt)
      else if k = s.olen - 5 then symOfLevel s.lastLevel.toInt
      else memReadOut s k := by
  change memReadOut (memWriteOut _ _ (memWriteOut _ _ (memWriteOut _ _ (memWriteOut _ _ s)))) k = _
  simp only [memReadOut_memWriteOut]

/-- Settles O40: the four writes fall on four different places. -/
theorem substitutionWritesFourSymbols : Obligations.SubstitutionWritesFourSymbols := by
  intro s holen hp
  have hlevel : levelOfSym (symOfLevel s.lastLevel.toInt) = s.lastLevel.toInt := levelOfSym_symOfLevel (by omega)
  have hneg : levelOfSym (symOfLevel (-s.lastLevel.toInt)) = -s.lastLevel.toInt := levelOfSym_symOfLevel (by omega)
  refine ⟨?_, ?_, ?_, ?_, fun j h5 h4 h2 h1 => ?_, substitute_lastLevel s, substitute_olen s,
    substitute_zeroRunLength s⟩
  · rw [outLevel, memReadOut_substitute, if_neg (by omega), if_neg (by omega), if_neg (by omega), if_pos rfl, hlevel]
  · rw [outLevel, memReadOut_substitute, if_neg (by omega), if_neg (by omega), if_pos rfl, hneg]
  · rw [outLevel, memReadOut_substitute, if_neg (by omega), if_pos rfl, hneg]
  · rw [outLevel, memReadOut_substitute, if_pos rfl, hlevel]
  · rw [memReadOut_substitute, if_neg h1, if_neg h2, if_neg h4, if_neg h5]

/-- A substitution over eight zeros at the end of OUT leaves the pattern there (R112). -/
theorem outHolds_substitute {ls : List Int} {s : State} (h : outHolds (ls ++ List.replicate 8 0) s)
    (hp : isPolarity s.lastLevel.toInt) : outHolds (ls ++ b8zsPattern s.lastLevel.toInt) (substitute s) := by
  have hv : -4 ≤ s.lastLevel.toInt ∧ s.lastLevel.toInt ≤ 3 := by rw [isPolarity] at hp; omega
  have hn : -4 ≤ -s.lastLevel.toInt ∧ -s.lastLevel.toInt ≤ 3 := by rw [isPolarity] at hp; omega
  have holen : s.olen = ls.length + 8 := by rw [h.2.1, List.length_append, List.length_replicate]
  have hset (xs : List Int) (k : Nat) (v : Int) : (ls ++ xs).set (ls.length + k) v = ls ++ xs.set k v := by
    rw [List.set_append_right _ _ (Nat.le_add_right _ _), Nat.add_sub_cancel_left]
  have hlen (k : Nat) (hk : k < 8) : ls.length + k < (ls ++ List.replicate 8 (0 : Int)).length := by
    rw [List.length_append, List.length_replicate]; omega
  have hfour := outHolds_memWriteOut (outHolds_memWriteOut (outHolds_memWriteOut (outHolds_memWriteOut h
    (hlen 3 (by decide)) hv) (by rw [List.length_set]; exact hlen 4 (by decide)) hn)
    (by rw [List.length_set, List.length_set]; exact hlen 6 (by decide)) hn)
    (by rw [List.length_set, List.length_set, List.length_set]; exact hlen 7 (by decide)) hv
  rw [hset, hset, hset, hset] at hfour
  refine outHolds_congr hfour ?_ (substitute_olen s)
  simp only [substitute, setZeroRunLength_mem, memWriteOut_mem, holen]
  rfl

/-! ### The pure form -/

/-- A 0 that does not begin eight of them stands for itself (R116). -/
theorem b8zsLevels_space {last : Int} {bs : List Bit} (h : ∀ r, bs ≠ List.replicate 7 false ++ r) :
    b8zsLevels last (false :: bs) = 0 :: b8zsLevels last bs := by
  rw [b8zsLevels]
  intro r hr
  exact h r hr

/-- Fewer than eight zeros before a mark stand for themselves (R116). -/
theorem b8zsLevels_run_mark (last : Int) :
    ∀ (z : Nat) (r : List Bit), z ≤ 7 → b8zsLevels last (List.replicate z false ++ true :: r) =
      List.replicate z 0 ++ -last :: b8zsLevels (-last) r
  | 0, _, _ => by rw [List.replicate_zero, List.nil_append, b8zsLevels]; rfl
  | z + 1, r, hz => by
    rw [List.replicate_succ, List.cons_append, b8zsLevels_space, b8zsLevels_run_mark last z r (by omega)]
    · rfl
    · intro r' hr
      have hget := congrArg (·[z]?) hr
      simp only [List.getElem?_append_right (List.length_replicate (n := z) (a := false)).le] at hget
      rw [List.getElem?_append_left (by rw [List.length_replicate]; omega), List.getElem?_replicate] at hget
      simp [show z < 7 by omega] at hget

/-- Fewer than eight zeros at the end of the input stand for themselves (R116). -/
theorem b8zsLevels_run_end (last : Int) :
    ∀ z : Nat, z ≤ 7 → b8zsLevels last (List.replicate z false) = List.replicate z 0
  | 0, _ => by rw [List.replicate_zero, b8zsLevels]; rfl
  | z + 1, hz => by
    rw [List.replicate_succ, b8zsLevels_space, b8zsLevels_run_end last z (by omega)]
    · rfl
    · intro r hr
      have hlen := congrArg List.length hr
      rw [List.length_append, List.length_replicate, List.length_replicate] at hlen
      omega

/-- Eight zeros become the pattern (R112). -/
theorem b8zsLevels_eight (last : Int) (r : List Bit) :
    b8zsLevels last (List.replicate 8 false ++ r) = b8zsPattern last ++ b8zsLevels last r := by
  change b8zsLevels last (false :: false :: false :: false :: false :: false :: false :: false :: r) = _
  rw [b8zsLevels]

/-- An input is at its end within a run of fewer than eight zeros, or goes on with a mark after such a run, or with
eight zeros. -/
theorem input_run_cases (n : Nat) (bits : List Bit) :
    (∃ z, z < n ∧ bits = List.replicate z false) ∨ (∃ z r, z < n ∧ bits = List.replicate z false ++ true :: r) ∨
      ∃ r, bits = List.replicate n false ++ r := by
  induction n generalizing bits with
  | zero => exact .inr (.inr ⟨bits, rfl⟩)
  | succ n ih =>
    match bits with
    | [] => exact .inl ⟨0, Nat.succ_pos n, rfl⟩
    | true :: r => exact .inr (.inl ⟨0, r, Nat.succ_pos n, rfl⟩)
    | false :: bs =>
      obtain ⟨z, hz, rfl⟩ | ⟨z, r, hz, rfl⟩ | ⟨r, rfl⟩ := ih bs
      · exact .inl ⟨z + 1, Nat.succ_lt_succ hz, rfl⟩
      · exact .inr (.inl ⟨z + 1, r, Nat.succ_lt_succ hz, rfl⟩)
      · exact .inr (.inr ⟨r, rfl⟩)

/-- Induction on the runs of the input, as B8ZS reads it (R116). -/
theorem b8zs_induct {P : Int → List Bit → Prop} (hend : ∀ last z, z ≤ 7 → P last (List.replicate z false))
    (hmark : ∀ last z r, z ≤ 7 → P (-last) r → P last (List.replicate z false ++ true :: r))
    (heightZeros : ∀ last r, P last r → P last (List.replicate 8 false ++ r)) (last : Int) (bits : List Bit) :
    P last bits := by
  induction hn : bits.length using Nat.strong_induction_on generalizing last bits with
  | _ n ih =>
    subst hn
    obtain ⟨z, hz, rfl⟩ | ⟨z, r, hz, rfl⟩ | ⟨r, rfl⟩ := input_run_cases 8 bits
    · exact hend last z (Nat.le_of_lt_succ hz)
    · exact hmark last z r (Nat.le_of_lt_succ hz)
        (ih _ (by rw [List.length_append, List.length_cons]; omega) _ _ rfl)
    · exact heightZeros last r (ih _ (by rw [List.length_append, List.length_replicate]; omega) _ _ rfl)

/-- A symbol a bit (R113). -/
theorem b8zsLevels_length (last : Int) (bits : List Bit) : (b8zsLevels last bits).length = bits.length := by
  induction last, bits using b8zs_induct with
  | hend last z hz => rw [b8zsLevels_run_end last z hz, List.length_replicate, List.length_replicate]
  | hmark last z r hz ih => rw [b8zsLevels_run_mark last z r hz]; simp [ih]
  | heightZeros last r ih => rw [b8zsLevels_eight]; simp [ih, b8zsPattern]

/-- Three levels (R113). -/
theorem b8zsLevels_mem {last : Int} (hp : isPolarity last) {bits : List Bit} {v : Int} (hv : v ∈ b8zsLevels last bits) :
    v = -1 ∨ v = 0 ∨ v = 1 := by
  induction last, bits using b8zs_induct with
  | hend last z hz =>
    rw [b8zsLevels_run_end last z hz] at hv
    exact .inr (.inl (List.eq_of_mem_replicate hv))
  | hmark last z r hz ih =>
    rw [b8zsLevels_run_mark last z r hz] at hv
    rcases List.mem_append.mp hv with hv | hv
    · exact .inr (.inl (List.eq_of_mem_replicate hv))
    · rcases List.mem_cons.mp hv with rfl | hv
      · rw [isPolarity] at hp; omega
      · exact ih (isPolarity_neg hp) hv
  | heightZeros last r ih =>
    rw [b8zsLevels_eight] at hv
    rcases List.mem_append.mp hv with hv | hv
    · simp only [b8zsPattern, List.mem_cons, List.not_mem_nil, or_false] at hv
      rw [isPolarity] at hp
      omega
    · exact ih hp hv

/-- Any eight symbols in a row hold one that is not 0. -/
def noEightZeros (ls : List Int) : Prop := ∀ j, j + 8 ≤ ls.length → ∃ k v, k < 8 ∧ ls[j + k]? = some v ∧ v ≠ 0

/-- Symbols each of which has a nonzero one among itself and the seven after it, in front of others without eight zeros
in a row. -/
theorem noEightZeros_append {pre ls : List Int} (h : noEightZeros ls)
    (hpre : ∀ j, j < pre.length → ∃ k v, k < 8 ∧ pre[j + k]? = some v ∧ v ≠ 0) : noEightZeros (pre ++ ls) := by
  intro j hj
  rcases Nat.lt_or_ge j pre.length with hlt | hge
  · obtain ⟨k, v, hk, hget, hv⟩ := hpre j hlt
    exact ⟨k, v, hk, (List.getElem?_append_left (List.getElem?_eq_some_iff.mp hget).1).trans hget, hv⟩
  · rw [List.length_append] at hj
    obtain ⟨k, v, hk, hget, hv⟩ := h (j - pre.length) (by omega)
    refine ⟨k, v, hk, ?_, hv⟩
    rw [List.getElem?_append_right (by omega), show j + k - pre.length = j - pre.length + k by omega]
    exact hget

/-- B8ZS never leaves eight zeros in a row (R113): a run before a mark is shorter, and the pattern's last symbol is a
mark. -/
theorem b8zsLevels_noEightZeros {last : Int} (hp : isPolarity last) (bits : List Bit) :
    noEightZeros (b8zsLevels last bits) := by
  induction last, bits using b8zs_induct with
  | hend last z hz =>
    rw [b8zsLevels_run_end last z hz]
    intro j hj
    rw [List.length_replicate] at hj
    omega
  | hmark last z r hz ih =>
    rw [b8zsLevels_run_mark last z r hz, List.append_cons]
    refine noEightZeros_append (ih (isPolarity_neg hp)) fun j hj => ⟨z - j, -last, by omega, ?_, ?_⟩
    · rw [List.length_append, List.length_replicate, List.length_singleton] at hj
      rw [List.getElem?_append_right (by rw [List.length_replicate]; omega), List.length_replicate,
        show j + (z - j) - z = 0 by omega]
      rfl
    · rw [isPolarity] at hp; omega
  | heightZeros last r ih =>
    rw [b8zsLevels_eight]
    refine noEightZeros_append (ih hp) fun j hj => ⟨7 - j, last, by omega, ?_, ?_⟩
    · have hj8 : j < 8 := hj
      rw [show j + (7 - j) = 7 by omega]
      rfl
    · rw [isPolarity] at hp; omega

/-! ### The engine -/

/-- A call of ENC.B8ZS after the first `m` bits of the input of `s`: `ls` is decided, and the pending zeros follow it in
OUT; whatever input follows, the output is `ls` and then B8ZS of the pending zeros and that input. -/
def b8zsPoint (ic : BitVec 2) (s : State) (m : Nat) (v : State) : Prop :=
  isPolarity v.lastLevel.toInt ∧ v.zeroRunLength ≤ 7 ∧ ∃ ls, outHolds (ls ++ List.replicate v.zeroRunLength 0) v ∧
    ∀ r, b8zsLevels (icPolarity ic) (inputBits s m ++ r) =
      ls ++ b8zsLevels v.lastLevel.toInt (List.replicate v.zeroRunLength false ++ r)

/-- The loop starts with nothing decided and no zero pending (R111). -/
theorem b8zsPoint_init (ic : BitVec 2) (s : State) :
    b8zsPoint ic s 0 ((transformOf (.b8zs ic)).init (openCall s)) := by
  have hlast : ((transformOf (.b8zs ic)).init (openCall s)).lastLevel.toInt = icPolarity ic :=
    amiInit_lastLevel_toInt ic _
  have hrun : ((transformOf (.b8zs ic)).init (openCall s)).zeroRunLength = 0 := rfl
  rw [b8zsPoint, hlast, hrun]
  exact ⟨isPolarity_icPolarity ic, Nat.zero_le 7, [], outHolds_init_openCall (.b8zs ic) s, fun _ => rfl⟩

/-- A mark decides the pending zeros and itself. -/
theorem b8zsPoint_mark {ic : BitVec 2} {s v : State} {m : Nat} (hbit : memReadIn s m = true) (h : b8zsPoint ic s m v) :
    b8zsPoint ic s (m + 1) (amiMark v) := by
  obtain ⟨hp, h7, ls, hout, hpure⟩ := h
  obtain ⟨hout', hlast⟩ := outHolds_amiMark hout hp
  rw [b8zsPoint, hlast, amiMark_zeroRunLength]
  refine ⟨isPolarity_neg hp, Nat.zero_le 7, _, by rw [List.replicate_zero, List.append_nil]; exact hout', fun r => ?_⟩
  rw [inputBits_succ, hbit, List.append_assoc, hpure, List.singleton_append, b8zsLevels_run_mark _ _ _ h7]
  simp

/-- A space makes the run longer. -/
theorem b8zsPoint_space {ic : BitVec 2} {s v : State} {m : Nat} (hbit : memReadIn s m = false)
    (hrun : v.zeroRunLength ≠ 7) (h : b8zsPoint ic s m v) : b8zsPoint ic s (m + 1) (amiSpace v) := by
  obtain ⟨hp, h7, ls, hout, hpure⟩ := h
  have hout' := outHolds_amiSpace hout
  rw [List.append_assoc, ← List.replicate_succ'] at hout'
  rw [b8zsPoint, amiSpace_lastLevel, amiSpace_zeroRunLength]
  refine ⟨hp, by omega, ls, hout', fun r => ?_⟩
  rw [inputBits_succ, hbit, List.append_assoc, hpure, List.singleton_append, List.replicate_succ', List.append_assoc,
    List.singleton_append]

/-- The eighth zero decides the run: the pattern is written over it (R112). -/
theorem b8zsPoint_substitute {ic : BitVec 2} {s v : State} {m : Nat} (hbit : memReadIn s m = false)
    (hrun : v.zeroRunLength = 7) (h : b8zsPoint ic s m v) : b8zsPoint ic s (m + 1) (substitute (amiSpace v)) := by
  obtain ⟨hp, -, ls, hout, hpure⟩ := h
  have hspace := outHolds_amiSpace hout
  rw [List.append_assoc, ← List.replicate_succ', hrun] at hspace
  have hout' := outHolds_substitute hspace hp
  rw [b8zsPoint, substitute_lastLevel, substitute_zeroRunLength]
  refine ⟨hp, Nat.zero_le 7, _, by rw [List.replicate_zero, List.append_nil]; exact hout', fun r => ?_⟩
  rw [inputBits_succ, hbit, List.append_assoc, hpure, List.singleton_append, hrun, List.append_cons,
    ← List.replicate_succ', b8zsLevels_eight, amiSpace_lastLevel]
  simp

/-- A pass on bit `m` of the input leads on to the next point, whichever branch it takes. -/
theorem b8zsPoint_groupStep {ic : BitVec 2} {s v : State} {m : Nat} (hbit : groupBit 0 v = memReadIn s m)
    (h : b8zsPoint ic s m v) : b8zsPoint ic s (m + 1) (groupStep (transformOf (.b8zs ic)) v) := by
  have hstep : b8zsPoint ic s (m + 1) (amiFamilyStep true false v) := by
    obtain ⟨hb, he⟩ | ⟨hb, hrun, he⟩ | ⟨hb, -, h7, he⟩ := amiFamilyStep_cases true false v <;> rw [he]
    · exact b8zsPoint_mark (hbit.symm.trans hb) h
    · exact b8zsPoint_space (hbit.symm.trans hb) (hrun.resolve_left (by decide)) h
    · exact b8zsPoint_substitute (hbit.symm.trans hb) h7 h
  obtain ⟨hp, h7, ls, hout, hpure⟩ := hstep
  exact ⟨hp, h7, ls, outHolds_congr hout rfl rfl, hpure⟩

/-- The output of a call of ENC.B8ZS is B8ZS of its input (R116): at its end nothing follows the pending zeros. -/
theorem exec_b8zs_outHolds {ic : BitVec 2} {s t : State} (h : exec (.b8zs ic) s = .next t) :
    outHolds (b8zsLevels (icPolarity ic) (inputBits s s.inLen)) t := by
  obtain ⟨u, ⟨-, h7, ls, hout, hpure⟩, rfl⟩ := exec_next_induct_bits rfl (b8zsPoint_init ic s)
    (fun _ _ => b8zsPoint_groupStep) h
  have hlevels := hpure []
  rw [List.append_nil, List.append_nil, b8zsLevels_run_end _ _ h7] at hlevels
  rw [hlevels]
  exact (outHolds_endCall _ hout).1

/-- Settles O14: B8ZS's output law, under the contract. -/
theorem b8zsCallSubstitutesEightZeros : Obligations.B8zsCallSubstitutesEightZeros := by
  intro ic s hfit
  obtain ⟨t, ht⟩ := exists_callResult (i := .b8zs ic) ⟨hfit, trivial, trivial⟩ fun _ => exec_b8zs_outHolds
  exact ⟨t, ht.next, ht.done, ht.frame, ht.level rfl, ht.growing rfl⟩

/-- Settles O39: the output is B8ZS of the input, which has the three properties. -/
theorem b8zsNeverLeavesEightZeros : Obligations.B8zsNeverLeavesEightZeros := by
  intro ic s t h
  have hout := exec_b8zs_outHolds h
  have hp := isPolarity_icPolarity ic
  obtain ⟨hlevels, hlen⟩ := exec_next_outLevels h hout
  refine ⟨by rw [hlen, b8zsLevels_length, inputBits_length], fun v hv => b8zsLevels_mem hp (hlevels ▸ hv),
    fun j hj => ?_⟩
  obtain ⟨k, v, hk, hget, hv⟩ := b8zsLevels_noEightZeros hp (inputBits s s.inLen) j (hlen ▸ hj)
  exact ⟨k, hk, outLevel_of_getElem? hout hget ▸ hv⟩

end Sys2Proof.Machine
end

section
/-! Streaming (70_reset_and_hazards.md R228; log 34). Only a substitution rewrites symbols that are out; it falls on the
positions 4, 5, 7 and 8 of a run of eight, and a symbol is final once it lies before the run or on another position of
it. -/

namespace Sys2Proof.Machine

/-! ### What is final -/

/-- Only a known word whose call will not be refused has symbols that are readable (R183, R201). -/
theorem known_of_readable {s : State} {p : Nat} (h : p < readableSoFar s) :
    ∃ i, decode s.cmd = .ok i ∧ willBeRefused s = false ∧ p < s.olen := by
  have holen := lt_of_lt_of_le h (readableSoFar_le s)
  have hrefused : willBeRefused s = false := Bool.eq_false_iff.mpr fun hw => by
    rw [readableSoFar_refused hw] at h; omega
  cases hd : decode s.cmd with
  | ok i => exact ⟨i, rfl, hrefused, holen⟩
  | error e => rw [readableSoFar_unknown ⟨e, hd⟩] at h; omega

/-- A final symbol of a call in progress is readable. -/
theorem readable_of_isFinal {s : State} {p : Nat} (hb : isBusy s = true) (h : isFinal s p = true) :
    p < readableSoFar s := by
  rw [isFinal, hb, if_pos rfl, Bool.and_eq_true, decide_eq_true_eq] at h
  exact h.1

/-- The symbols of a call in progress that are final (R228). -/
theorem isFinal_busy_iff {s : State} {i : Instr} {p : Nat} (hb : isBusy s = true) (hd : decode s.cmd = .ok i) :
    isFinal s p = true ↔ p < readableSoFar s ∧ ∀ ic, i = .b8zs ic → isFinalB8zs s p = true := by
  rw [isFinal, hb, if_pos rfl, Bool.and_eq_true, decide_eq_true_eq, hd]
  cases i <;> simp

/-- When a call has ended its output is final. -/
theorem isFinal_idle_iff {s : State} {p : Nat} (hb : isBusy s = false) : isFinal s p = true ↔ p < s.outLen := by
  simp [isFinal, hb]

/-- A symbol of B8ZS is final before the run and at its positions 1, 2, 3 and 6 (R228). -/
theorem isFinalB8zs_iff (s : State) (p : Nat) : isFinalB8zs s p = true ↔ p < runStart s ∨ p - runStart s = 0 ∨
    p - runStart s = 1 ∨ p - runStart s = 2 ∨ p - runStart s = 5 := by
  simp [isFinalB8zs, runOffsetNeverWritten, or_assoc]

/-! ### What a pass writes -/

/-- Appending a symbol leaves those that are out as they are. -/
theorem cellsRead_emit_of_lt {s : State} {p : Nat} (v : Int) (h : p < s.olen) :
    cellsRead (emit v s).mem.outSyms p = cellsRead s.mem.outSyms p := by
  rw [cellsRead_emit, if_neg (by omega)]

/-- A substitution leaves the elements it does not write as they are (R112). -/
theorem cellsRead_substitute_of_ne {s : State} {p : Nat} (h1 : p ≠ s.olen - 1) (h2 : p ≠ s.olen - 2)
    (h4 : p ≠ s.olen - 4) (h5 : p ≠ s.olen - 5) :
    cellsRead (substitute s).mem.outSyms p = cellsRead s.mem.outSyms p := by
  change cellsRead (memWriteOut _ _ (memWriteOut _ _ (memWriteOut _ _ (memWriteOut _ _ s)))).mem.outSyms p = _
  rw [cellsRead_memWriteOut, if_neg h1, cellsRead_memWriteOut, if_neg h2, cellsRead_memWriteOut, if_neg h4,
    cellsRead_memWriteOut, if_neg h5]

/-- Without substitution the shared machine leaves the symbols that are out as they are. -/
theorem cellsRead_amiFamilyStep_of_lt (inv : Bool) {s : State} {p : Nat} (h : p < s.olen) :
    cellsRead (amiFamilyStep false inv s).mem.outSyms p = cellsRead s.mem.outSyms p := by
  obtain ⟨-, he⟩ | ⟨-, -, he⟩ | ⟨-, hsub, -⟩ := amiFamilyStep_cases false inv s
  · rw [he]; exact cellsRead_emit_of_lt _ h
  · rw [he]; exact cellsRead_emit_of_lt _ h
  · cases hsub

/-- Every scheme but B8ZS leaves the symbols that are out as they are (R228). -/
theorem cellsRead_transform_step_of_lt {i : Instr} (hi : ∀ ic, i ≠ .b8zs ic) {s : State} {p : Nat} (h : p < s.olen) :
    cellsRead ((transformOf i).step s).mem.outSyms p = cellsRead s.mem.outSyms p := by
  have hsucc {k : Nat} : p < s.olen + k := Nat.lt_add_right k h
  cases i with
  | b8zs ic => exact absurd rfl (hi ic)
  | ami | pstern => exact cellsRead_amiFamilyStep_of_lt _ h
  | nrzu | nrzl | twoB1Q => exact cellsRead_emit_of_lt _ h
  | man | rz => exact (cellsRead_emit_of_lt _ (hsucc (k := 1))).trans (cellsRead_emit_of_lt _ h)
  | dman =>
    have hflip : (dmanFlip s).olen = s.olen ∧ (dmanFlip s).mem = s.mem := by rw [dmanFlip_eq]; exact ⟨rfl, rfl⟩
    obtain ⟨holen, hmem⟩ := hflip
    refine (cellsRead_emit_of_lt _ ?_).trans ((cellsRead_emit_of_lt _ ?_).trans (by rw [hmem]))
    · rw [emit_olen, holen]; exact hsucc
    · rw [holen]; exact h
  | nrzi =>
    have hflip : (nrziFlip s).olen = s.olen ∧ (nrziFlip s).mem = s.mem := by rw [nrziFlip_eq]; exact ⟨rfl, rfl⟩
    obtain ⟨holen, hmem⟩ := hflip
    exact (cellsRead_emit_of_lt _ (by rw [holen]; exact h)).trans (by rw [hmem])
  | mlt3 =>
    change cellsRead (mlt3Step s).mem.outSyms p = _
    cases hbit : groupBit 0 s with
    | true =>
      have hmove : (mlt3Move s).olen = s.olen ∧ (mlt3Move s).mem = s.mem := by rw [mlt3Move_eq]; exact ⟨rfl, rfl⟩
      obtain ⟨holen, hmem⟩ := hmove
      rw [mlt3Step_mark hbit, cellsRead_emit_of_lt _ (by rw [holen]; exact h), hmem]
    | false => rw [mlt3Step_space hbit, cellsRead_emit_of_lt _ h]
  | fourB5B =>
    exact (cellsRead_emit_of_lt _ (hsucc (k := 4))).trans ((cellsRead_emit_of_lt _ (hsucc (k := 3))).trans
      ((cellsRead_emit_of_lt _ (hsucc (k := 2))).trans ((cellsRead_emit_of_lt _ (hsucc (k := 1))).trans
        (cellsRead_emit_of_lt _ h))))

/-- A pass of B8ZS: the run ends by a mark, becomes longer, or ends by the substitution (R111, R112). -/
theorem b8zs_groupStep_cases (ic : BitVec 2) (s : State) :
    ((groupStep (transformOf (.b8zs ic)) s).zeroRunLength = 0 ∧
        (groupStep (transformOf (.b8zs ic)) s).mem = (amiMark s).mem) ∨
      (s.zeroRunLength ≠ 7 ∧ (groupStep (transformOf (.b8zs ic)) s).zeroRunLength = s.zeroRunLength + 1 ∧
          (groupStep (transformOf (.b8zs ic)) s).mem = (amiSpace s).mem) ∨
        (s.zeroRunLength = 7 ∧ (groupStep (transformOf (.b8zs ic)) s).zeroRunLength = 0 ∧
          (groupStep (transformOf (.b8zs ic)) s).mem = (substitute (amiSpace s)).mem) := by
  have hstep : (transformOf (.b8zs ic)).step s = amiFamilyStep true false s := rfl
  rw [groupStep_zeroRunLength, groupStep_mem, hstep]
  obtain ⟨-, he⟩ | ⟨-, hrun, he⟩ | ⟨-, -, h7, he⟩ := amiFamilyStep_cases true false s <;> rw [he]
  · exact .inl ⟨rfl, rfl⟩
  · exact .inr (.inl ⟨hrun.resolve_left (by decide), rfl, rfl⟩)
  · exact .inr (.inr ⟨h7, rfl, rfl⟩)

/-- A final symbol of B8ZS is not written by the next pass, and it stays final (R228). -/
theorem isFinalB8zs_groupStep {ic : BitVec 2} {s : State} {p : Nat} (ho : s.olen = s.cur) (hpending : pendingRunLegal s)
    (hp : p < s.cur) (h : isFinalB8zs s p = true) :
    cellsRead (groupStep (transformOf (.b8zs ic)) s).mem.outSyms p = cellsRead s.mem.outSyms p ∧
      isFinalB8zs (groupStep (transformOf (.b8zs ic)) s) p = true := by
  obtain ⟨h7, hcur, -⟩ := hpending
  have hcur' : (groupStep (transformOf (.b8zs ic)) s).cur = s.cur + 1 := (groupStep_frame (.b8zs ic) s).1
  rw [isFinalB8zs_iff, runStart] at h ⊢
  obtain ⟨hrun, hmem⟩ | ⟨-, hrun, hmem⟩ | ⟨hseven, hrun, hmem⟩ := b8zs_groupStep_cases ic s <;>
    rw [hrun, hcur', hmem]
  · exact ⟨cellsRead_emit_of_lt _ (ho ▸ hp), by omega⟩
  · exact ⟨cellsRead_emit_of_lt _ (ho ▸ hp), by omega⟩
  · have holen : (amiSpace s).olen = s.cur + 1 := by rw [amiSpace_olen, ho]
    rw [cellsRead_substitute_of_ne (by omega) (by omega) (by omega) (by omega)]
    exact ⟨cellsRead_emit_of_lt _ (ho ▸ hp), by omega⟩

/-- The symbols of a B8ZS call are one for every bit. -/
theorem b8zs_olen_eq_cur {ic : BitVec 2} {s : State} (h : callLegal (.b8zs ic) s) : s.olen = s.cur := by
  obtain ⟨-, -, -, ho, -⟩ := h
  rw [ho, groupSizeOf_b8zs, outPerGroupOf_b8zs, Nat.div_one, Nat.mul_one]

/-- A symbol that is there reads the same when it was not written. -/
theorem outLevel_of_cellsRead {s t : State} {p : Nat} (hsome : (cellsRead s.mem.outSyms p).isSome = true)
    (h : cellsRead t.mem.outSyms p = cellsRead s.mem.outSyms p) : outLevel t p = outLevel s p := by
  obtain ⟨v, hv⟩ := Option.isSome_iff_exists.mp hsome
  simp only [outLevel, memReadOut, h, hv, Option.getD_some]

/-- Whether a call will be refused is decided when it is entered. -/
theorem willBeRefused_groupStep (i : Instr) (s : State) :
    willBeRefused (groupStep (transformOf i) s) = willBeRefused s := by
  obtain ⟨hbusy, hcmd⟩ := groupStep_keeps_call i s
  obtain ⟨-, hlen, -⟩ := groupStep_frame i s
  simp only [willBeRefused, hbusy, hcmd, hlen]

/-- The final symbols of a call stay final and as they are through the next pass. -/
theorem isFinal_groupStep {i : Instr} {s : State} {p : Nat} (hb : isBusy s = true) (hd : decode s.cmd = .ok i)
    (hcall : callLegal i s) (hf : isFinal s p = true) :
    isFinal (groupStep (transformOf i) s) p = true ∧
      cellsRead (groupStep (transformOf i) s).mem.outSyms p = cellsRead s.mem.outSyms p := by
  obtain ⟨hreadable, hb8zs⟩ := (isFinal_busy_iff hb hd).mp hf
  obtain ⟨-, -, hrefused, hp⟩ := known_of_readable hreadable
  obtain ⟨hbusy, hcmd⟩ := groupStep_keeps_call i s
  have hd' : decode (groupStep (transformOf i) s).cmd = .ok i := (congrArg decode hcmd).trans hd
  have hreadable' : p < readableSoFar (groupStep (transformOf i) s) := by
    rw [readableSoFar_known hd' ((willBeRefused_groupStep i s).trans hrefused), groupStep_olen, transform_step_olen]
    exact Nat.lt_add_right _ hp
  rw [isFinal_busy_iff (hbusy.trans hb) hd']
  by_cases hi : ∃ ic, i = .b8zs ic
  · obtain ⟨ic, rfl⟩ := hi
    have ho := b8zs_olen_eq_cur hcall
    obtain ⟨-, -, -, -, -, -, hpending⟩ := hcall
    obtain ⟨hcells, hfinal⟩ := isFinalB8zs_groupStep (ic := ic) ho hpending (ho ▸ hp) (hb8zs ic rfl)
    exact ⟨⟨hreadable', fun _ _ => hfinal⟩, hcells⟩
  · exact ⟨⟨hreadable', fun ic hic => absurd ⟨ic, hic⟩ hi⟩,
      cellsRead_transform_step_of_lt (fun ic hic => hi ⟨ic, hic⟩) hp⟩

/-- Settles O41: the next step is a pass, which `isFinal_groupStep` is about, or the call's end, which writes no symbol.
-/
theorem finalSymbolsStayFixed : Obligations.FinalSymbolsStayFixed := by
  intro s t p hs hb hhost hf hstep
  obtain ⟨i, hd, -, hp⟩ := known_of_readable (readable_of_isFinal hb hf)
  have hcall := hs.call hb hd
  have ⟨_, _, _, _, hfilled, _⟩ := hcall
  have hsome : (cellsRead s.mem.outSyms p).isSome = true := (hfilled p).trans (decide_eq_true hp)
  rw [step_of_host_nil hhost, engineStep_busy hb hd] at hstep
  obtain ⟨-, rfl⟩ | ⟨-, hclose⟩ := callStep_next.mp hstep
  · obtain ⟨hfinal, hcells⟩ := isFinal_groupStep hb hd hcall hf
    exact ⟨hfinal, outLevel_of_cellsRead hsome hcells⟩
  · obtain ⟨-, rfl⟩ := closeCall_next.mp hclose
    obtain ⟨-, ho, hmem⟩ := transform_release_frame i s
    refine ⟨(isFinal_idle_iff (isBusy_endCall _ s)).mpr ?_, outLevel_of_cellsRead hsome ?_⟩
    · rw [endCall_outLen, ho]; exact hp
    · rw [endCall_mem, hmem]

/-! ### What is not final -/

/-- A symbol of B8ZS that is out and not final lies on one of the positions 4, 5 and 7 of the pending run (R228). -/
theorem pending_of_not_isFinalB8zs {s : State} {p : Nat} (hpending : pendingRunLegal s) (hp : p < s.cur)
    (h : isFinalB8zs s p = false) :
    runStart s ≤ p ∧ (p - runStart s = 3 ∨ p - runStart s = 4 ∨ p - runStart s = 6) := by
  obtain ⟨h7, -, -⟩ := hpending
  have hnot := Bool.eq_false_iff.mp h
  rw [ne_eq, isFinalB8zs_iff] at hnot
  have hstart : runStart s + s.zeroRunLength ≥ s.cur := by rw [runStart]; omega
  omega

/-- A call of B8ZS is never refused for a partial group. -/
theorem willBeRefused_b8zs {s : State} {ic : BitVec 2} (hd : decode s.cmd = .ok (.b8zs ic)) :
    willBeRefused s = false := by
  refine Bool.eq_false_iff.mpr fun h => ?_
  obtain ⟨-, ic', hd', -⟩ := willBeRefused_iff.mp h
  rw [hd] at hd'
  cases hd'

/-- With a full group left and no host statement, the step of a BUSY engine is a pass. -/
theorem step_group {s : State} {i : Instr} (hb : isBusy s = true) (hhost : s.host = []) (hd : decode s.cmd = .ok i)
    (hready : groupReady (transformOf i) s = true) : step s = .next (groupStep (transformOf i) s) := by
  rw [step_of_host_nil hhost, engineStep_busy hb hd]
  exact callStep_next.mpr (.inl ⟨hready, rfl⟩)

/-- The eighth zero of a run makes the symbols on its positions 4, 5 and 7 marks, and final (R112, R228). -/
theorem b8zs_substitute_marks {ic : BitVec 2} {s : State} {p : Nat} (hb : isBusy s = true)
    (hd : decode s.cmd = .ok (.b8zs ic)) (hcall : callLegal (.b8zs ic) s) (hbit : groupBit 0 s = false)
    (h7 : s.zeroRunLength = 7) (hstart : runStart s ≤ p)
    (hoffset : p - runStart s = 3 ∨ p - runStart s = 4 ∨ p - runStart s = 6) :
    (outLevel (groupStep (transformOf (.b8zs ic)) s) p = 1 ∨ outLevel (groupStep (transformOf (.b8zs ic)) s) p = -1) ∧
      isFinal (groupStep (transformOf (.b8zs ic)) s) p = true := by
  have ho := b8zs_olen_eq_cur hcall
  obtain ⟨-, -, -, -, -, hpolarity, -, hrun, -⟩ := hcall
  have hlast : s.lastLevel.toInt = 1 ∨ s.lastLevel.toInt = -1 := by rcases hpolarity with h | h <;> rw [h] <;> decide
  have holen : (amiSpace s).olen = s.cur + 1 := by rw [amiSpace_olen, ho]
  have hpass : (transformOf (.b8zs ic)).step s = substitute (amiSpace s) := amiFamilyStep_substitute hbit h7
  have hread : outLevel (groupStep (transformOf (.b8zs ic)) s) p = outLevel (substitute (amiSpace s)) p := by
    rw [groupStep, hpass]; rfl
  obtain ⟨h5, h4, h2, -⟩ := substitutionWritesFourSymbols (amiSpace s) (by omega) hlast
  rw [holen, amiSpace_lastLevel] at h5 h4 h2
  rw [runStart] at hstart hoffset
  refine ⟨?_, ?_⟩
  · rw [hread]
    rcases hoffset with h | h | h
    · rw [show p = s.cur + 1 - 5 by omega, h5]; exact hlast
    · rw [show p = s.cur + 1 - 4 by omega, h4]; omega
    · rw [show p = s.cur + 1 - 2 by omega, h2]; omega
  · obtain ⟨hbusy, hcmd⟩ := groupStep_keeps_call (.b8zs ic) s
    have hd' := (congrArg decode hcmd).trans hd
    have hcur' : (groupStep (transformOf (.b8zs ic)) s).cur = s.cur + 1 := (groupStep_frame (.b8zs ic) s).1
    have holen' : (groupStep (transformOf (.b8zs ic)) s).olen = s.cur + 1 := by
      rw [groupStep_olen, hpass, substitute_olen, holen]
    have hzero : (groupStep (transformOf (.b8zs ic)) s).zeroRunLength = 0 := by
      rw [groupStep_zeroRunLength, hpass, substitute_zeroRunLength]
    rw [isFinal_busy_iff (hbusy.trans hb) hd', readableSoFar_known hd' (willBeRefused_b8zs hd'), holen']
    refine ⟨by omega, fun _ _ => (isFinalB8zs_iff _ p).mpr (.inl ?_)⟩
    rw [runStart, hcur', hzero]
    omega

/-- The next zero of a run that stays shorter than eight, as one step: the run grows, and its start stays where it is.
-/
theorem b8zs_space_step {ic : BitVec 2} {s : State} (hbit : groupBit 0 s = false) (hrun : s.zeroRunLength ≠ 7) :
    (groupStep (transformOf (.b8zs ic)) s).zeroRunLength = s.zeroRunLength + 1 ∧
      runStart (groupStep (transformOf (.b8zs ic)) s) = runStart s := by
  have hpass : (transformOf (.b8zs ic)).step s = amiSpace s := amiFamilyStep_space hbit (.inr hrun)
  have hzero : (groupStep (transformOf (.b8zs ic)) s).zeroRunLength = s.zeroRunLength + 1 := by
    rw [groupStep_zeroRunLength, hpass, amiSpace_zeroRunLength]
  have hcur' : (groupStep (transformOf (.b8zs ic)) s).cur = s.cur + 1 := (groupStep_frame (.b8zs ic) s).1
  refine ⟨hzero, ?_⟩
  rw [runStart, hzero, hcur', runStart]
  omega

/-- A pending symbol of a run that reaches eight zeros in `k + 1` more bits becomes a mark (R228). -/
theorem b8zs_pending_becomes_mark {ic : BitVec 2} {p : Nat} :
    ∀ (k : Nat) {s : State}, Inv s → isBusy s = true → s.host = [] → decode s.cmd = .ok (.b8zs ic) →
      s.zeroRunLength + k = 7 → s.cur + (k + 1) ≤ s.len → (∀ j, j < k + 1 → memReadIn s (s.cur + j) = false) →
      runStart s ≤ p → (p - runStart s = 3 ∨ p - runStart s = 4 ∨ p - runStart s = 6) →
      ∃ t, runSteps (k + 1) s = .next t ∧ (outLevel t p = 1 ∨ outLevel t p = -1) ∧ isFinal t p = true
  | k, s, hs, hb, hhost, hd, hrun, hlen, hin, hstart, hoffset => by
    have hready : groupReady (transformOf (.b8zs ic)) s = true := decide_eq_true (by
      rw [transform_group, groupSizeOf_b8zs]; omega)
    have hstep := step_group hb hhost hd hready
    have hbit : groupBit 0 s = false := hin 0 (Nat.succ_pos k)
    cases k with
    | zero =>
      exact ⟨_, runSteps_succ hstep, b8zs_substitute_marks hb hd (hs.call hb hd) hbit (by omega) hstart hoffset⟩
    | succ k =>
      obtain ⟨hbusy, hcmd⟩ := groupStep_keeps_call (.b8zs ic) s
      obtain ⟨-, -, -, -, -, -, -, -, -, -, -, hhost', -⟩ := groupStep_frame (.b8zs ic) s
      obtain ⟨hcur', hlen', hin'⟩ := groupStep_reads (.b8zs ic) s
      rw [groupSizeOf_b8zs] at hcur'
      obtain ⟨hrun', hstart'⟩ := b8zs_space_step (ic := ic) hbit (by omega)
      rw [runSteps_succ hstep]
      refine b8zs_pending_becomes_mark k (stepKeepsTheShape _ _ hs hstep) (hbusy.trans hb) (hhost'.trans hhost)
        ((congrArg decode hcmd).trans hd) (by omega) (by omega) (fun j hj => ?_) (by rw [hstart']; exact hstart)
        (by rw [hstart']; exact hoffset)
      rw [hin', hcur', Nat.add_assoc, Nat.add_comm 1 j]
      exact hin (j + 1) (by omega)

/-- Settles O42: a symbol that is not final lies in the pending run, whose symbols are 0 and which a substitution writes
there. -/
theorem pendingSymbolsCanStillChange : Obligations.PendingSymbolsCanStillChange := by
  intro s ic p hs hb hhost hd hp hnot
  have hcall := hs.call hb hd
  have ho := b8zs_olen_eq_cur hcall
  obtain ⟨-, -, -, -, -, -, hpending⟩ := hcall
  have ⟨h7, _, hzero⟩ := hpending
  have hb8zs : isFinalB8zs s p = false := Bool.eq_false_iff.mpr fun hf => by
    refine Bool.eq_false_iff.mp hnot ((isFinal_busy_iff hb hd).mpr ⟨?_, fun _ _ => hf⟩)
    rwa [readableSoFar_known hd (willBeRefused_b8zs hd)]
  obtain ⟨hstart, hoffset⟩ := pending_of_not_isFinalB8zs hpending (ho ▸ hp) hb8zs
  refine ⟨?_, fun hlen hin => ?_⟩
  · rw [outLevel, memReadOut, hzero p hstart (ho ▸ hp)]
    rfl
  · have hk : 8 - s.zeroRunLength = 7 - s.zeroRunLength + 1 := by omega
    rw [hk] at hlen hin ⊢
    exact b8zs_pending_becomes_mark _ hs hb hhost hd (by omega) hlen hin hstart hoffset

/-- Settles O43: a symbol that is not final lies in the pending run on position 4 or later, so it is 0 and at most four
behind the cursor. -/
theorem nonzeroOrFiveBehindIsFinal : Obligations.NonzeroOrFiveBehindIsFinal := by
  intro s p hs hb hreadable h
  obtain ⟨i, hd, -, hp⟩ := known_of_readable hreadable
  refine (isFinal_busy_iff hb hd).mpr ⟨hreadable, ?_⟩
  rintro ic rfl
  have hcall := hs.call hb hd
  have ho := b8zs_olen_eq_cur hcall
  obtain ⟨-, -, -, -, -, -, hpending⟩ := hcall
  have ⟨h7, hcur, hzero⟩ := hpending
  by_contra hnot
  obtain ⟨hstart, hoffset⟩ := pending_of_not_isFinalB8zs hpending (ho ▸ hp) (Bool.eq_false_iff.mpr hnot)
  rcases h with hne | hbehind
  · refine hne ?_
    rw [outLevel, memReadOut, hzero p hstart (ho ▸ hp)]
    rfl
  · rw [runStart] at hstart hoffset
    omega

end Sys2Proof.Machine
end
